-- ==== Sys2Proof/Word.lean ====
section
/-! DEFINITION. The word types of the core, and the two views of a byte (spec/00_scope.md R10,
spec/42_bit_order_codec.md R83). -/

namespace Sys2Proof

/-- A byte in the STORED (device-native) view: what the store holds and what travels on the wire (R83). -/
abbrev Byte := BitVec 8

/-- A byte in the NATURAL (logical) view, in which a bit index selects a pixel and a row number is an
ordinary integer (R83). A type of its own, so that the two orders cannot be mixed up; the bit reversal is
the only function between the two (Sys2Proof.Machine.toNatural and Sys2Proof.Machine.toStored). -/
structure NaturalByte where
  bits : Byte
  deriving DecidableEq, Repr

/-- A store address as it travels on the wire: 16 bits (R30, R38). -/
abbrev Addr := BitVec 16

/-- A coordinate operand: 16 bits, two's complement (R52, R53). -/
abbrev Coord := BitVec 16

/-- The host command word CW (R52). -/
abbrev CommandWord := BitVec 40

end Sys2Proof
end

