-- ==== Sys2Proof/Config.lean ====
section
/-! DEFINITION. The configuration: the parameters that spec/00_scope.md R7 leaves open, the quantities
R8 derives from them, the constraints of R9, and the free values the spec leaves open. -/

namespace Sys2Proof

/-- How bytes reach the display during a relay (R97). The spec specifies direct-link only. -/
inductive RelayMode where
  | directLink
  | storeAndForward
  deriving DecidableEq, Repr

/-- The open parameters of R7. They are constant for the life of the hardware (R21); the decided ones
(slot addresses, polarity, masks, blank and trailer bytes) stand in Machine/Operands.lean. -/
structure Config where
  /-- `W`, frame width in pixels. -/
  width        : Nat
  /-- `H`, frame height in rows. -/
  height       : Nat
  /-- `STORE_MAX_ADDR`, the store's highest valid byte address. -/
  storeMaxAddr : Nat
  /-- `CMD_CLEAR`, as stored. -/
  cmdClear     : Byte
  /-- `CMD_WRITE`, as stored. -/
  cmdWrite     : Byte
  /-- `MARKER`, as stored. -/
  marker       : Byte
  /-- `VCOM_MASK`, as stored. -/
  vcomMask     : Byte
  /-- `VCOM_INIT`, the VCOM bit after reset. -/
  vcomInit     : Bool
  /-- `OP_READ`, the store's sequential-read opcode. -/
  opRead       : Byte
  /-- `OP_WRITE`, the store's sequential-write opcode. -/
  opWrite      : Byte
  /-- `OP_WREN`, the store's write-enable opcode. -/
  opWren       : Byte
  /-- `RELAY_MODE`. -/
  relayMode    : RelayMode
  deriving DecidableEq, Repr

namespace Config

/-- `rowBytes = ceil(W / 8)` (R8). -/
def rowBytes (c : Config) : Nat := (c.width + 7) / 8

/-- `RECORD = rowBytes + 2`, the size of one LineRecord (R8). -/
def record (c : Config) : Nat := c.rowBytes + 2

/-- `FRAME_SIZE = H * RECORD`, the bytes of all LineRecords (R8). -/
def frameSize (c : Config) : Nat := c.height * c.record

/-- The constraints of R9: items 1 to 4, 6 and 7, and the first half of item 9, which with the decided slot and
relay operands reads `0 + 1 * 2 <= STORE_MAX_ADDR`. Item 5 and the second half of item 9 hold of the decided
addresses (Machine/Operands.lean), and item 8 says what is NOT a constraint. -/
abbrev Valid (c : Config) : Prop :=
  1 ≤ c.width ∧ c.width ≤ 32767 ∧ 1 ≤ c.height ∧ c.height ≤ 255 ∧ c.storeMaxAddr ≤ 0xFFFF ∧
  c.vcomMask ≠ 0 ∧ c.cmdClear &&& c.vcomMask = 0 ∧ c.cmdWrite &&& c.vcomMask = 0 ∧
  c.opRead ≠ c.opWrite ∧ c.opRead ≠ c.opWren ∧ c.opWrite ≠ c.opWren ∧ 2 ≤ c.storeMaxAddr

/-- The configuration `State.reset` holds: the source's reference frame (400 by 240, R7), the largest store
R9 allows, `VCOM_INIT = 0`, and the byte values R7 calls suggested. DESIGN CHOICE and PRESUMED,
notes/assumptions/3.md: the spec leaves every one of them open. -/
def reference : Config where
  width        := 400
  height       := 240
  storeMaxAddr := 0xFFFF
  cmdClear     := 0x20
  cmdWrite     := 0x80
  marker       := 0x00
  vcomMask     := 0x40
  vcomInit     := false
  opRead       := 0x03
  opWrite      := 0x02
  opWren       := 0x06
  relayMode    := .directLink

/-! Free values: constants with no body, applied to the counter `Bus.draws`. Nothing can be proved of them. -/

/-- `draw()` of R11: the byte the core's data output carries while it only pumps the clock (R73, R95, I2, I3). -/
opaque placeholder : Nat → Byte

/-- The store's pointer after the transfer of the byte at `STORE_MAX_ADDR` (R69, I13). -/
opaque pointerPastEnd : Nat → Addr

/-- What a data byte of a write leaves in the store when the write-enable latch is clear (R70, I14): no
instruction comes to that (notes/assumptions/9.md). -/
opaque lockedByte : Nat → Byte

/-- The store's pointer after reset (R25, R28, I12). -/
opaque resetPointer : Nat → Addr

/-- The value of a byte of the store whose byte-period was cut by reset (R138, I19). -/
opaque cutByte : Nat → Byte

/-- The store's write-enable latch after a command was cut by reset (R138, I19). -/
opaque cutLatch : Nat → Bool

/-- What the display shifts in when nothing drives its data input (notes/assumptions/24.md). -/
opaque undrivenByte : Nat → Byte

end Config
end Sys2Proof
end

