-- ==== Sys2Proof/Machine/BitOrder.lean ====
section
/-! DEFINITION. BitOrderCodec (spec/42_bit_order_codec.md R81 to R88), and the framing bytes of a LineRecord
(spec/20_memory.md R33, R34), which the display frames carry too. -/

namespace Sys2Proof.Machine

/-- `TRAILER` (R7). -/
def trailerByte : Byte := 0x00

/-- `ON_LEVEL`: the level of a natural-order pixel bit that means "on" is 0 (R7, conflict C1). -/
def onLevel : Bool := false

/-- Bit `i` of `b` moved to bit `j`, alone in its byte. -/
def moveBit (b : Byte) (i j : Nat) : Byte := ((b >>> i) &&& 1) <<< j

/-- `REVERSE(b)`: bit 0 and bit 7 change places, bit 1 and bit 6, and so on (R81). -/
def reverse (b : Byte) : Byte :=
  moveBit b 0 7 ||| moveBit b 1 6 ||| moveBit b 2 5 ||| moveBit b 3 4 |||
  moveBit b 4 3 ||| moveBit b 5 2 ||| moveBit b 6 1 ||| moveBit b 7 0

/-- From the stored view to the natural view (R83). -/
def toNatural (s : Byte) : NaturalByte := ⟨reverse s⟩

/-- From the natural view back to the stored view (R83). -/
def toStored (n : NaturalByte) : Byte := reverse n.bits

/-- `NATMASK(i)`, the natural-view mask of bit index `i` (R84). -/
def natMask (i : Fin 8) : Byte := 1 <<< i.val

/-- Drive natural bit `i` to the level that stands for `on` (R85). -/
def driveBit (n : NaturalByte) (i : Fin 8) (on : Bool) : NaturalByte :=
  if on = onLevel then ⟨n.bits ||| natMask i⟩ else ⟨n.bits &&& ~~~(natMask i)⟩

/-- `MUTATE(s, i, on)`, the single-pixel mutation of a stored byte (R85). -/
def mutate (s : Byte) (i : Fin 8) (on : Bool) : Byte :=
  toStored (driveBit (toNatural s) i on)

/-- `TEST(s, i)`, is the pixel on? (R86). -/
def testBit (s : Byte) (i : Fin 8) : Bool :=
  decide ((toNatural s).bits &&& natMask i ≠ 0) == onLevel

/-- `SMASK(i)`, the stored-view mask of natural bit index `i` (R87). -/
def storedMask (i : Fin 8) : Byte := 0x80 >>> i.val

/-- `LINENUM(y)`, the stored line-number byte of row `y` (R88). -/
def lineNum (y : Nat) : Byte := toStored ⟨BitVec.ofNat 8 (y + 1)⟩

end Sys2Proof.Machine
end

