-- ==== Sys2Proof/Syntax.lean ====
section
/-! DEFINITION. The instructions: one constructor per row of spec/opcode_table.json, in the table's order,
and the three encoded forms they travel in (spec/30_encoding.md R51). -/

namespace Sys2Proof

/-- The rows of the opcode table: five host commands (format HC, R54), three store bus transactions
(format SB, R57) and two display frames (format DF, R59). -/
inductive Instr where
  /-- `BEGIN` (R101). -/
  | begin
  /-- `SETPIXEL x, y, on` (R102). -/
  | setPixel (x y : Coord) (on : Bool)
  /-- `GETPIXEL x, y` (R103). -/
  | getPixel (x y : Coord)
  /-- `CLEAR` (R104). -/
  | clear
  /-- `REFRESH` (R105). -/
  | refresh
  /-- `SB.READ`: read `count` bytes from `address` on (R57, R65). -/
  | sbRead (address : Addr) (count : Nat)
  /-- `SB.WREN`: write-enable (R57, R68). -/
  | sbWren
  /-- `SB.WRITE`: write `data` from `address` on (R57, R66). -/
  | sbWrite (address : Addr) (data : List Byte)
  /-- `DF.WRITE`: the command byte `CMD_WRITE` with the VCOM bit, then the LineRecord of every row. The operands
  are the bit and the `rowBytes` data bytes of each row, row 0 first; line numbers and trailers are fixed (R59). -/
  | dfWrite (vcom : Bool) (data : List Byte)
  /-- `DF.CLEAR`: the command byte `CMD_CLEAR` with the VCOM bit, then the marker slot's and the write slot's byte (R59). -/
  | dfClear (vcom : Bool) (marker write : Byte)
  deriving DecidableEq, Repr

/-- An encoded instruction, in the form of its class (R51): a word at the command port, the bytes the core
sends between `SSEL+` and `SSEL-`, or the bytes the display shifts in between `DSEL+` and `DSEL-`. -/
inductive Packet where
  | command (cw : CommandWord)
  | storeWindow (sent : List Byte)
  | displayWindow (shifted : List Byte)
  deriving DecidableEq, Repr

end Sys2Proof
end

