-- ==== Sys2Proof/WellFormed.lean ====
section
/-! DEFINITION. Which instructions are well formed under a configuration. -/

namespace Sys2Proof

/-- A store transfer moves at least one byte (R65, R66, R67: `count >= 1` is a precondition), and a
`DF.WRITE` frame holds `rowBytes` data bytes for each of the `H` rows (R59). Host commands and `DF.CLEAR`
have no ill-formed operands: every coordinate is representable and clipped later (R53). -/
def Instr.wellFormed (c : Config) : Instr → Bool
  | .begin | .setPixel _ _ _ | .getPixel _ _ | .clear | .refresh => true
  | .sbRead _ count => decide (1 ≤ count)
  | .sbWren => true
  | .sbWrite _ data => decide (1 ≤ data.length)
  | .dfWrite _ data => decide (data.length = c.height * c.rowBytes)
  | .dfClear _ _ _ => true

end Sys2Proof
end

