-- ==== Sys2Proof/Decode.lean ====
section
/-! DEFINITION. The decoder, total on every packet and rejecting by name, and the encoder written from the
same tables (spec/30_encoding.md R52 to R62). -/

namespace Sys2Proof

/-- Why a packet is no instruction. -/
inductive DecodeError where
  /-- Host word with `OP` 0 or 6 to 15 (R55). -/
  | reservedOperation
  /-- Host word with `RSV` not 0 (R55). -/
  | reservedBits
  /-- A select window with no byte in it. -/
  | emptyWindow
  /-- A store opcode the core never sends (R58, R72). -/
  | unknownStoreOpcode
  /-- A read or write whose window closes before the first data byte (R57, R67). -/
  | shortTransaction
  /-- A write-enable with further bytes in its window (R57: "zero-argument"). -/
  | trailingBytes
  /-- A display frame of a length neither frame has (R59). -/
  | unknownFrameLength
  /-- A display frame whose first byte is no command byte of its length (R59, R60). -/
  | unknownCommandByte
  /-- A display frame in which a line number is not `REVERSE(y + 1)` or a trailer is not `0x00` (R59). -/
  | brokenRecord
  deriving DecidableEq, Repr

/-! ## Host command words (format HC, R52 to R55) -/

def fieldOp (w : CommandWord) : BitVec 4 := w.extractLsb' 36 4
def fieldRsv (w : CommandWord) : BitVec 3 := w.extractLsb' 33 3
def fieldOn (w : CommandWord) : BitVec 1 := w.extractLsb' 32 1
def fieldX (w : CommandWord) : Coord := w.extractLsb' 16 16
def fieldY (w : CommandWord) : Coord := w.extractLsb' 0 16

/-- The opcode map R54, with the reserved encodings of R55. The ignored fields are not looked at. -/
def decodeHC (w : CommandWord) : Except DecodeError Instr :=
  if fieldRsv w ≠ 0 then .error .reservedBits
  else if fieldOp w = 1 then .ok .begin
  else if fieldOp w = 2 then .ok (.setPixel (fieldX w) (fieldY w) (fieldOn w = 1))
  else if fieldOp w = 3 then .ok (.getPixel (fieldX w) (fieldY w))
  else if fieldOp w = 4 then .ok .clear
  else if fieldOp w = 5 then .ok .refresh
  else .error .reservedOperation

/-- A command word from its fields, `RSV = 0` (R52). -/
def packHC (op : BitVec 4) (on : Bool) (x y : Coord) : CommandWord :=
  op ++ (0 : BitVec 3) ++ BitVec.ofBool on ++ x ++ y

/-! ## Store bus transactions (format SB, R57, R58) -/

/-- The high address byte, first on the wire (R38). -/
def addrHigh (a : Addr) : Byte := a.extractLsb' 8 8

/-- The low address byte, second on the wire (R38). -/
def addrLow (a : Addr) : Byte := a.extractLsb' 0 8

/-- The address two wire bytes stand for, high byte first (R38). -/
def addrOf (high low : Byte) : Addr := high ++ low

/-- The transaction a select window of the store holds (R57). The number of data bytes is the number of
byte-periods before the window closes: there is no length field (R62). -/
def decodeSB (c : Config) : List Byte → Except DecodeError Instr
  | [] => .error .emptyWindow
  | op :: rest =>
    if op = c.opWren then
      match rest with
      | [] => .ok .sbWren
      | _ :: _ => .error .trailingBytes
    else if op = c.opRead then
      match rest with
      | high :: low :: _ :: more => .ok (.sbRead (addrOf high low) (more.length + 1))
      | _ => .error .shortTransaction
    else if op = c.opWrite then
      match rest with
      | high :: low :: first :: more => .ok (.sbWrite (addrOf high low) (first :: more))
      | _ => .error .shortTransaction
    else .error .unknownStoreOpcode

/-! ## Display frames (format DF, R59, R60) -/

/-- `vmask(v)`: the VCOM bit as a byte (R8). -/
def vmask (c : Config) (v : Bool) : Byte := if v then c.vcomMask else 0x00

/-- `cmdbyte(template, v) = template | vmask(v)` (R60). -/
def cmdByte (c : Config) (template : Byte) (v : Bool) : Byte := template ||| vmask c v

/-- The VCOM bit a command byte carries, if it is a command byte of that template (R60). -/
def vcomOfCmdByte (c : Config) (template b : Byte) : Option Bool :=
  if b = cmdByte c template false then some false
  else if b = cmdByte c template true then some true
  else none

/-- Does the list have exactly `n` elements? (Counts down, so that it runs on long frames.) -/
def hasLength {α : Type} : List α → Nat → Bool
  | [], 0 => true
  | [], _ + 1 => false
  | _ :: _, 0 => false
  | _ :: rest, n + 1 => hasLength rest n

/-- The LineRecords of the `n` rows from row `y` on, as a `DF.WRITE` frame carries them: `REVERSE(y + 1)`, the
row's data bytes, `0x00` (R59). -/
def frameRecords (c : Config) : Nat → Nat → List Byte → List Byte
  | 0, _, _ => []
  | n + 1, y, data =>
    Machine.lineNum y ::
      (data.take c.rowBytes ++ Machine.trailerByte :: frameRecords c n (y + 1) (data.drop c.rowBytes))

/-- Are these the LineRecords of the `n` rows from row `y` on, each with its line number and its trailer? -/
def framed (c : Config) : Nat → Nat → List Byte → Bool
  | 0, _, rest => rest.isEmpty
  | _ + 1, _, [] => false
  | n + 1, y, line :: rest =>
    if line = Machine.lineNum y then
      match rest.drop c.rowBytes with
      | [] => false
      | trailer :: more => if trailer = Machine.trailerByte then framed c n (y + 1) more else false
    else false

/-- The data bytes of `n` LineRecords. -/
def recordData (c : Config) : Nat → List Byte → List Byte
  | 0, _ => []
  | n + 1, records => (records.drop 1).take c.rowBytes ++ recordData c n (records.drop c.record)

/-- The frame a select window of the display holds (R59). The two frames differ in length: `DF.CLEAR` has 3
bytes and `DF.WRITE` has `1 + FRAME_SIZE`, which is at least 4. -/
def decodeDF (c : Config) : List Byte → Except DecodeError Instr
  | [] => .error .emptyWindow
  | [cmd, marker, write] =>
    match vcomOfCmdByte c c.cmdClear cmd with
    | some v => .ok (.dfClear v marker write)
    | none => .error .unknownCommandByte
  | cmd :: records =>
    if hasLength records c.frameSize then
      match vcomOfCmdByte c c.cmdWrite cmd with
      | some v =>
        if framed c c.height 0 records then .ok (.dfWrite v (recordData c c.height records))
        else .error .brokenRecord
      | none => .error .unknownCommandByte
    else .error .unknownFrameLength

/-! ## All three -/

/-- The decoder: each class has its own (R51). -/
def decode (c : Config) : Packet → Except DecodeError Instr
  | .command cw => decodeHC cw
  | .storeWindow sent => decodeSB c sent
  | .displayWindow shifted => decodeDF c shifted

/-- The encoder. Ignored fields are written 0 (R55), and so are the placeholder bytes of a read (R57, R73:
any value decodes alike). -/
def encode (c : Config) : Instr → Packet
  | .begin => .command (packHC 1 false 0 0)
  | .setPixel x y on => .command (packHC 2 on x y)
  | .getPixel x y => .command (packHC 3 false x y)
  | .clear => .command (packHC 4 false 0 0)
  | .refresh => .command (packHC 5 false 0 0)
  | .sbRead address count =>
    .storeWindow (c.opRead :: addrHigh address :: addrLow address :: List.replicate count 0x00)
  | .sbWren => .storeWindow [c.opWren]
  | .sbWrite address data => .storeWindow (c.opWrite :: addrHigh address :: addrLow address :: data)
  | .dfWrite v data => .displayWindow (cmdByte c c.cmdWrite v :: frameRecords c c.height 0 data)
  | .dfClear v marker write => .displayWindow [cmdByte c c.cmdClear v, marker, write]

/-! ## Words numbered as the opcode table numbers them -/

/-- The first `nbits / 8` (at least one) bytes of a wire format, byte 0 in bits 7..0. -/
def tableBytes (nbits w : Nat) : List Byte :=
  (List.range (max 1 ((nbits + 7) / 8))).map fun k => BitVec.ofNat 8 (w >>> (8 * k))

/-- The bytes followed by what the frame has after them. -/
def completeTo (frame bytes : List Byte) : List Byte := bytes ++ frame.drop bytes.length

/-- The packet a table word stands for. A host command is one 40-bit word (R52). The rows of the wire formats
are given by their first bytes; the packet is the shortest window of that row whose further operand bytes are zero:
one data byte for a store read or write, and for the display the whole frame, with the line numbers and trailers that
R59 fixes (notes/assumptions/28.md). -/
def tablePacket (c : Config) (nbits w : Nat) : Packet :=
  if 32 < nbits then .command (BitVec.ofNat 40 w)
  else
    let bytes := tableBytes nbits w
    let first := BitVec.ofNat 8 w
    if first = c.opWren then .storeWindow [first]
    else if first = c.opRead ∨ first = c.opWrite then .storeWindow (completeTo (List.replicate 4 0x00) bytes)
    else if (vcomOfCmdByte c c.cmdClear first).isSome then .displayWindow (completeTo (List.replicate 3 0x00) bytes)
    else
      .displayWindow
        (completeTo (first :: frameRecords c c.height 0 (List.replicate (c.height * c.rowBytes) 0x00)) bytes)

/-- What the decoder reads from a table word, under the configuration whose byte values the table shows. -/
def decodeTableWord (nbits w : Nat) : Option Instr :=
  (decode Config.reference (tablePacket Config.reference nbits w)).toOption

end Sys2Proof
end

