-- ==== Sys2Proof/Machine/State.lean ====
section
/-! DEFINITION. The state of the machine as plain data (spec/10_state.md R15 to R28), its reset value, and
the reasons a step can stop. -/

namespace Sys2Proof.Machine

/-- `CTRL`, the controller state (R16). -/
inductive Ctrl where
  | uninitialized
  | ready
  | failed
  deriving DecidableEq, Repr

/-- `STATUS`, how the last command ended (R18, R56). -/
inductive Status where
  | ok
  | errState
  | errOutOfRange
  | errIllegal
  deriving DecidableEq, Repr

/-- `MODE`, what the store is doing while selected (R25). -/
inductive StoreMode where
  | idle
  | reading
  | writing
  deriving DecidableEq, Repr

/-- The events of the bus trace (R12). `byte o i` is one byte-period: the core's data output carries `o`,
the store's data output carries `i`, or is not driven (`none`). -/
inductive BusEvent where
  | sselUp
  | sselDown
  | dselUp
  | dselDown
  | byte (o : Byte) (i : Option Byte)
  deriving DecidableEq, Repr

/-- `MEM` as cells of rising address, none equal to what an unlisted address reads as (R24). The reads, the
writes and the canonical form are in Machine/Ops.lean. -/
abbrev Memory := List Host.Cell

/-- The store (R24, R25). -/
structure Store where
  /-- `MEM`. -/
  mem    : Memory
  /-- `WEL`, the write-enable latch. -/
  wel    : Bool
  /-- `PTR`, the auto-increment pointer. -/
  ptr    : Addr
  /-- `MODE`. -/
  mode   : StoreMode
  /-- The model's own: the bytes received in the select window in progress, from which the store decodes
  opcode and address (notes/assumptions/23.md). -/
  header : List Byte
  deriving DecidableEq, Repr

/-- The serial bus with what hangs on it: the two select lines (R22), the store, the display as the model
observes it (R26), and the trace (R12). -/
structure Bus where
  /-- `SSEL`, the store's select line is asserted. -/
  ssel       : Bool
  /-- `DSEL`, the display's select line is asserted. -/
  dsel       : Bool
  store      : Store
  /-- The model's own: the bytes the display has shifted in during the select window in progress. -/
  shiftIn    : List Byte
  /-- `DISPLAY_LOG`, the frames the display has received, oldest first. -/
  displayLog : List (List Byte)
  /-- The bus trace, oldest event first. -/
  trace      : List BusEvent
  /-- The model's own: the counter the free values of Config are drawn with (notes/assumptions/7.md). -/
  draws      : Nat
  deriving DecidableEq, Repr

/-- What the outside world can do to the machine next. The host of the spec presents command words and
asserts reset (R6, R150), also in the middle of a command (R138); the two windows of `Packet` are the bus
seen alone (notes/assumptions/1.md). -/
inductive Input where
  /-- A packet arrives: a command word at the port, or one select window of the store or of the display. -/
  | packet (p : Packet)
  /-- A command word is presented and reset is asserted after `events` of its bus events, inside the
  byte-period that follows them when `midByte` holds (R138). -/
  | commandCut (cw : CommandWord) (events : Nat) (midByte : Bool)
  /-- Reset is asserted while the core is idle (R136). -/
  | reset
  deriving DecidableEq, Repr

/-- The whole state. -/
structure State where
  /-- The configuration: a parameter of the step relation (R21, R27), carried here as a field no step changes
  (notes/assumptions/2.md). -/
  cfg       : Config
  /-- `CTRL` (R16). -/
  ctrl      : Ctrl
  /-- `VCOM` (R17). -/
  vcom      : Bool
  /-- `STATUS` (R18). -/
  status    : Status
  /-- `RESULT` (R18). -/
  result    : Bool
  /-- The bus, the store and the display. -/
  bus       : Bus
  /-- The model's own: the inputs pending, oldest first (notes/assumptions/10.md). -/
  inbox     : List Input
  /-- The responses given, oldest first (R56, R150). -/
  responses : List (BitVec 3)
  deriving DecidableEq, Repr

/-- Why the machine stops with a fault: it never does. The one fault of the spec, `OutOfRange`, leads to a next
state (R117, notes/assumptions/14.md), and what the spec gives no meaning is refused (93_implementation_defined.md
section 1). -/
inductive Fault where
  deriving DecidableEq, Repr

/-- Why the machine refuses a step. -/
inductive Refusal where
  /-- Raised by `exec` alone, for an instruction without a meaning. Safe. No arm uses it. -/
  | notModelled (mnemonic : String)
  /-- Raised by `step` on a configuration that breaks R9 ("refused, not given a meaning"; I21). Safe. -/
  | configuration
  /-- Raised by `step`, and by RELAY, on a `RELAY_MODE` other than direct-link (R97, I4). Safe. -/
  | relayMode
  /-- Raised by RELAY (CLEAR, REFRESH) when it would read past `STORE_MAX_ADDR`: no meaning (R69, R98, D29, I13).
  Safe: no configuration and command of the spec reaches it (R98). -/
  | pointerPastEnd
  /-- Raised by SB.WRITE when the write-enable latch is clear: no meaning (R70, D29, I14). Safe: the core never
  sends such a write (R66). -/
  | lockedWrite
  /-- Raised by SB.READ and SB.WRITE without a data byte, which no packet decodes to (R67, I15). Safe. -/
  | zeroLength
  /-- Raised by `step` on a store window that is no SB row: an opcode the core never sends, or a window cut
  short (R58, R72). Safe. -/
  | storeWindow (why : DecodeError)
  /-- Raised by `step` on a display window that is no DF row, and by DF.WRITE with another number of data bytes,
  which no packet decodes to: what a display does with a malformed frame is not in the spec (I20). Safe. -/
  | displayWindow (why : DecodeError)
  deriving DecidableEq, Repr

/-- The store at reset (R28): `WEL = 0`, `MODE = idle`; the content of `MEM` and `PTR` are unspecified there,
and here nothing is listed and the pointer is 0 (notes/assumptions/4.md, notes/assumptions/5.md). -/
def Store.atReset : Store where
  mem    := []
  wel    := false
  ptr    := 0
  mode   := .idle
  header := []

/-- The bus at reset (R28): both selects deasserted, `DISPLAY_LOG` empty, no event yet. -/
def Bus.atReset : Bus where
  ssel       := false
  dsel       := false
  store      := Store.atReset
  shiftIn    := []
  displayLog := []
  trace      := []
  draws      := 0

/-- The state right after reset of the machine with configuration `c` (R28, R137). -/
def State.resetOf (c : Config) : State where
  cfg       := c
  ctrl      := .uninitialized
  vcom      := c.vcomInit
  status    := .ok
  result    := false
  bus       := Bus.atReset
  inbox     := []
  responses := []

/-- The machine right after reset. Its configuration is a choice of the model, notes/assumptions/3.md. -/
def State.reset : State := State.resetOf Config.reference

end Sys2Proof.Machine
end

