-- ==== Sys2Proof/Machine/Flags.lean ====
section
/-! DEFINITION. The response, the only flag-like state of the core (spec/10_state.md R18,
spec/30_encoding.md R56), and the VCOM toggle bit (spec/44_controller.md R106). -/

namespace Sys2Proof.Machine

/-- The 2-bit code of a status (R18, R56). -/
def Status.code : Status → BitVec 2
  | .ok => 0
  | .errState => 1
  | .errOutOfRange => 2
  | .errIllegal => 3

/-- `RESP[2:1] = STATUS`, `RESP[0] = RESULT` (R56). -/
def response (status : Status) (result : Bool) : BitVec 3 :=
  status.code ++ BitVec.ofBool result

/-- The end of a command: `STATUS` and `RESULT` are written and the response is presented (R18, R56). -/
def State.respond (s : State) (status : Status) (result : Bool) : State :=
  { s with
    status := status
    result := result
    responses := s.responses ++ [response status result] }

/-- `VCOM <- 1 - VCOM` (R106). -/
def State.toggleVcom (s : State) : State :=
  { s with vcom := !s.vcom }

end Sys2Proof.Machine
end

