-- ==== Sys2Proof/Machine/Operands.lean ====
section
/-! DEFINITION. Operand forms and FrameLayout (spec/41_frame_layout.md), with the decided values of
spec/00_scope.md R7. The codec and the framing bytes are in Machine/BitOrder.lean. -/

namespace Sys2Proof.Machine

/-! ## Decided values of R7 -/

def headerBase : Nat := 0
def clearSlot : Nat := 0
def markerSlot : Nat := 1
def writeSlot : Nat := 2
def lineRecordBase : Nat := 3
/-- `BLANK`, the data byte of a blank row. -/
def blankByte : Byte := 0xFF
/-- `CLEAR_LINE_COUNT` and `CLEAR_LINE_LENGTH`: the operands of the relay that CLEAR issues (R7, conflict C4). -/
def clearLineCount : Nat := 1
def clearLineLength : Nat := 2

/-! ## Coordinates (R53) -/

/-- `sext_16`: a coordinate operand as a signed integer (R10, R53). -/
def coordinate (v : Coord) : Int := v.toInt

/-! ## FrameLayout (R75 to R80) -/

/-- `FRAME_END`, the address of the last LineRecord's trailer byte (R8). -/
def frameEnd (c : Config) : Nat := lineRecordBase + c.frameSize - 1

/-- `INBOUNDS(x, y)` (R75). -/
def inBounds (c : Config) (x y : Int) : Bool :=
  decide (0 ≤ x ∧ x < c.width ∧ 0 ≤ y ∧ y < c.height)

/-- `RECADDR(y)`, the base of row `y`'s LineRecord (R79). -/
def recAddr (c : Config) (y : Nat) : Nat := lineRecordBase + y * c.record

/-- The store address of `PIXADDR(x, y)` (R76). Used in bounds only, where both coordinates are non-negative. -/
def pixAddress (c : Config) (x y : Int) : Nat :=
  lineRecordBase + y.toNat * c.record + x.toNat / 8 + 1

/-- The bit index of `PIXADDR(x, y)`, an index into the natural view (R76). -/
def pixBit (x : Int) : Fin 8 := ⟨x.toNat % 8, Nat.mod_lt _ (by decide)⟩

/-- The kinds of `CTRLSLOT` (R78). -/
inductive SlotKind where
  | clear
  | marker
  | write
  | firstLine
  deriving DecidableEq, Repr

/-- `CTRLSLOT(kind)` (R78). -/
def ctrlSlot : SlotKind → Nat
  | .clear => clearSlot
  | .marker => markerSlot
  | .write => writeSlot
  | .firstLine => lineRecordBase

/-! ## What the bulk writes hold -/

/-- `BLANKRECORD(y)`: line number, blank data bytes, trailer (R111). -/
def blankRecord (c : Config) (y : Nat) : List Byte :=
  lineNum y :: (List.replicate c.rowBytes blankByte ++ [trailerByte])

/-- The FrameHeader templates in slot order, as BEGIN writes them (R101, R32). -/
def headerTemplates (c : Config) : List Byte :=
  (((List.replicate 3 0x00).set clearSlot c.cmdClear).set markerSlot c.marker).set writeSlot c.cmdWrite

end Sys2Proof.Machine
end

