-- ==== Sys2Proof/Machine/Ops.lean ====
section
/-! DEFINITION. The shared operations: memory, the bus and the devices on it (spec/00_scope.md R12,
spec/40_store_access.md), RelayBridge (spec/43_relay_bridge.md), admission and the ways a command ends other
than normally (spec/60_exceptions.md), reset (spec/70_reset_and_hazards.md R136 to R138). -/

namespace Sys2Proof.Machine

/-! ## Memory -/

/-- What a byte of the store that is not listed reads as. DESIGN CHOICE, notes/assumptions/4.md: R28 leaves the
content of `MEM` open. Every content is the list of some memory, so a statement over all states covers all. -/
def Memory.unlisted : Byte := 0x00

/-- The byte at an address: `MEM[a]` (R11). -/
def Memory.read : Memory → Nat → Byte
  | [], _ => Memory.unlisted
  | (k, v) :: rest, a => if k = a then v else Memory.read rest a

/-- A listed byte put in its place. -/
def Memory.insert : Memory → Nat → Byte → Memory
  | [], a, v => [(a, v)]
  | (k, w) :: rest, a, v =>
    if a < k then (a, v) :: (k, w) :: rest
    else if a = k then (a, v) :: rest
    else (k, w) :: Memory.insert rest a v

/-- The address no longer listed. -/
def Memory.erase (m : Memory) (a : Nat) : Memory := m.filter fun cell => cell.1 ≠ a

/-- `MEM[a] <- v`: the canonical form is kept, since the value an unlisted address reads as is not listed. -/
def Memory.write (m : Memory) (a : Nat) (v : Byte) : Memory :=
  if v = Memory.unlisted then m.erase a else m.insert a v

/-- Bytes written at rising addresses from `a` on. -/
def Memory.writeBytes : Memory → Nat → List Byte → Memory
  | m, _, [] => m
  | m, a, v :: rest => Memory.writeBytes (m.write a v) (a + 1) rest

/-- The `n` bytes at `a`, `a + 1`, ... -/
def Memory.readBytes (m : Memory) (a n : Nat) : List Byte :=
  (List.range n).map fun k => m.read (a + k)

/-- The canonical form: addresses strictly rising, no cell equal to what an unlisted address reads as. -/
abbrev Memory.wf (m : Memory) : Prop :=
  m.Pairwise (fun p q => p.1 < q.1) ∧ ∀ cell ∈ m, cell.2 ≠ Memory.unlisted

/-- The byte of the store at an address. -/
def State.read (s : State) (a : Nat) : Byte := s.bus.store.mem.read a

/-! ## The store as a device (R25, R57, R69, R70) -/

/-- `PTR <- PTR + 1` after a data byte (R69). Past `STORE_MAX_ADDR` the pointer is a free value (I13). -/
def Store.advance (c : Config) (n : Nat) (st : Store) : Store :=
  { st with ptr := if st.ptr.toNat < c.storeMaxAddr then st.ptr + 1 else Config.pointerPastEnd n }

/-- One byte of the opcode and address: after the third byte of a read or a write the pointer is loaded and
the mode set (R57, R69). -/
def Store.receiveHeader (c : Config) (o : Byte) (st : Store) : Store :=
  let header := st.header ++ [o]
  match header with
  | [op, high, low] =>
    if op = c.opRead then { st with header := header, ptr := addrOf high low, mode := .reading }
    else if op = c.opWrite then { st with header := header, ptr := addrOf high low, mode := .writing }
    else { st with header := header }
  | _ => { st with header := header }

/-- A data byte of a write, which only an address the store has can take (R30). While the write-enable latch is
clear the spec says nothing of the byte (R70): a free value, notes/assumptions/9.md. -/
def Store.accept (c : Config) (n : Nat) (v : Byte) (st : Store) : Store :=
  if st.ptr.toNat ≤ c.storeMaxAddr then
    { st with mem := st.mem.write st.ptr.toNat (if st.wel then v else Config.lockedByte n) }
  else st

/-- One byte-period while the store is selected: `o` is what the core sends (R69). -/
def Store.clock (c : Config) (n : Nat) (o : Byte) (st : Store) : Store :=
  match st.mode with
  | .idle => st.receiveHeader c o
  | .reading => st.advance c n
  | .writing => (st.accept c n o).advance c n

/-- The window opens: the store awaits an opcode. -/
def Store.select (st : Store) : Store :=
  { st with mode := .idle, header := [] }

/-- The window closes: a write-enable sets the latch (R68), a write clears it (R70), and the mode is idle (R25). -/
def Store.deselect (c : Config) (st : Store) : Store :=
  { st with
    wel := if st.mode = .writing then false
           else if st.header = [c.opWren] then true
           else st.wel
    mode := .idle
    header := [] }

/-- The byte the store drives on its data output: `MEM[PTR]` while it reads, else nothing (R57, R69). -/
def Store.driven (st : Store) : Option Byte :=
  match st.mode with
  | .reading => some (st.mem.read st.ptr.toNat)
  | .idle | .writing => none

/-- How the store reacts to a bus event; a byte-period reaches it only while it is selected. -/
def Store.react (c : Config) (selected : Bool) (n : Nat) (e : BusEvent) (st : Store) : Store :=
  match e with
  | .sselUp => st.select
  | .sselDown => st.deselect c
  | .dselUp => st
  | .dselDown => st
  | .byte o _ => if selected then st.clock c n o else st

/-! ## The bus: one event, and every device reacts -/

/-- The store's select line after an event. -/
def BusEvent.ssel (e : BusEvent) (before : Bool) : Bool :=
  match e with
  | .sselUp => true
  | .sselDown => false
  | .dselUp | .dselDown | .byte _ _ => before

/-- The display's select line after an event. -/
def BusEvent.dsel (e : BusEvent) (before : Bool) : Bool :=
  match e with
  | .dselUp => true
  | .dselDown => false
  | .sselUp | .sselDown | .byte _ _ => before

/-- The bytes shifted into the display in this select window, after an event (R94). -/
def BusEvent.shiftIn (e : BusEvent) (selected : Bool) (n : Nat) (before : List Byte) : List Byte :=
  match e with
  | .dselUp | .dselDown => []
  | .sselUp | .sselDown => before
  | .byte _ i => if selected then before ++ [i.getD (Config.undrivenByte n)] else before

/-- `DISPLAY_LOG` after an event: the frame is complete when the display is deselected (R26). -/
def BusEvent.displayLog (e : BusEvent) (frame : List Byte) (before : List (List Byte)) : List (List Byte) :=
  match e with
  | .dselDown => before ++ [frame]
  | .sselUp | .sselDown | .dselUp | .byte _ _ => before

/-- `emit`: the event is appended to the trace (R11, R12) and the devices on the bus react to it. -/
def Bus.emit (c : Config) (e : BusEvent) (b : Bus) : Bus where
  ssel := e.ssel b.ssel
  dsel := e.dsel b.dsel
  store := b.store.react c b.ssel b.draws e
  shiftIn := e.shiftIn b.dsel b.draws b.shiftIn
  displayLog := e.displayLog b.shiftIn b.displayLog
  trace := b.trace ++ [e]
  draws := b.draws + 1

/-- The devices' reaction to a whole list of events. -/
def Bus.replay (c : Config) (events : List BusEvent) (b : Bus) : Bus :=
  events.foldl (fun b e => b.emit c e) b

/-- One byte-period: the core sends `o`, the store's output is what the selected store drives (R12). -/
def Bus.send (c : Config) (o : Byte) (b : Bus) : Bus :=
  b.emit c (.byte o (if b.ssel then b.store.driven else none))

/-- The byte-periods in which the core sends the given bytes. -/
def Bus.sendAll (c : Config) (bytes : List Byte) (b : Bus) : Bus :=
  bytes.foldl (fun b o => b.send c o) b

/-- `n` byte-periods in which the core only pumps the clock: its byte is a placeholder (R73, R95). -/
def Bus.pump (c : Config) : Nat → Bus → Bus
  | 0, b => b
  | n + 1, b => Bus.pump c n (b.send c (Config.placeholder b.draws))

/-- The opcode and the address of a read or write, high byte first (R38, R57). -/
def Bus.sendHeader (c : Config) (op : Byte) (a : Nat) (b : Bus) : Bus :=
  b.sendAll c [op, addrHigh (BitVec.ofNat 16 a), addrLow (BitVec.ofNat 16 a)]

/-! ## The three store transactions (R57) -/

/-- `SB.READ(address, n)`. -/
def Bus.readTransaction (c : Config) (a n : Nat) (b : Bus) : Bus :=
  ((((b.emit c .sselUp).sendHeader c c.opRead a).pump c n)).emit c .sselDown

/-- `SB.WREN`, which is `WREN()` of R68. -/
def Bus.writeEnable (c : Config) (b : Bus) : Bus :=
  ((b.emit c .sselUp).send c c.opWren).emit c .sselDown

/-- `SB.WRITE(address, data)`. -/
def Bus.writeTransaction (c : Config) (a : Nat) (data : List Byte) (b : Bus) : Bus :=
  (((b.emit c .sselUp).sendHeader c c.opWrite a).sendAll c data).emit c .sselDown

/-! ## Store access (R65 to R71) -/

/-- `OutOfRange(address, count)`, with the bus as the calls before the failing one left it (R71, R117). -/
structure OutOfRange where
  address : Nat
  count   : Nat
  bus     : Bus
  deriving DecidableEq, Repr

/-- `BOUNDCHECK(address, count)` passes: in unbounded integers (R67). -/
def boundOk (c : Config) (a n : Nat) : Bool := decide (a + n - 1 ≤ c.storeMaxAddr)

/-- `STORE.READ(address, count)`: the bytes read, and the bus after it (R65). -/
def storeRead (c : Config) (a n : Nat) (b : Bus) : Except OutOfRange ((Fin n → Byte) × Bus) :=
  if boundOk c a n then .ok (fun k => b.store.mem.read (a + k.val), b.readTransaction c a n)
  else .error ⟨a, n, b⟩

/-- `STORE.WRITE(address, bytes)`: bound check, write-enable, write (R66). -/
def storeWrite (c : Config) (a : Nat) (data : List Byte) (b : Bus) : Except OutOfRange Bus :=
  if boundOk c a data.length then .ok ((b.writeEnable c).writeTransaction c a data)
  else .error ⟨a, data.length, b⟩

/-- One `STORE.WRITE` of a blank record for each of the rows, in order (R101, R104). -/
def writeRecords (c : Config) : List Nat → Bus → Except OutOfRange Bus
  | [], b => .ok b
  | y :: ys, b =>
    match storeWrite c (recAddr c y) (blankRecord c y) b with
    | .ok b' => writeRecords c ys b'
    | .error e => .error e

/-- Every row, ascending (R101, R104). -/
def writeAllRecords (c : Config) (b : Bus) : Except OutOfRange Bus :=
  writeRecords c (List.range c.height) b

/-! ## RelayBridge (R89 to R98) -/

/-- `N = (lineLength + 1) + (lineCount - 1) * lineLength` byte-periods (R89, R92). -/
def relayLength (lineCount lineLength : Nat) : Nat :=
  (lineLength + 1) + (lineCount - 1) * lineLength

/-- Step 1: arm the store (R90). -/
def Bus.armStore (c : Config) (a : Nat) (b : Bus) : Bus :=
  (b.emit c .sselUp).sendHeader c c.opRead a

/-- Step 2: open the display while the store stays selected (R91). -/
def Bus.openDisplay (c : Config) (b : Bus) : Bus := b.emit c .dselUp

/-- Step 4: the display's select goes first, then the store's (R93). -/
def Bus.closeRelay (c : Config) (b : Bus) : Bus := (b.emit c .dselDown).emit c .sselDown

/-- The four steps (R89). Step 3 pumps the clock (R92). -/
def Bus.relaySteps (c : Config) (a lineCount lineLength : Nat) (b : Bus) : Bus :=
  (((b.armStore c a).openDisplay c).pump c (relayLength lineCount lineLength)).closeRelay c

/-- `RELAY(address, lineCount, lineLength)`. It makes no bound check and cannot fail where it has a meaning
(R98); a relay mode without a protocol is refused (R97), and so is one that would read past `STORE_MAX_ADDR`, which
has no meaning (R69, D29). -/
def relay (c : Config) (a lineCount lineLength : Nat) (b : Bus) : Host.Outcome Bus Fault Refusal :=
  if c.relayMode ≠ .directLink then .refused .relayMode
  else if c.storeMaxAddr < a + relayLength lineCount lineLength - 1 then .refused .pointerPastEnd
  else .next (b.relaySteps c a lineCount lineLength)

/-- A select window of the display in which its data input carries the given bytes (R59), the core pumping the
clock. -/
def Bus.showFrame (c : Config) (frame : List Byte) (b : Bus) : Bus :=
  (frame.foldl (fun b v => b.emit c (.byte (Config.placeholder b.draws) (some v))) (b.emit c .dselUp)).emit c
    .dselDown

/-! ## How a command ends other than normally (R116 to R125) -/

/-- `raise OutOfRange`: the command ends there, what it wrote before stays, `CTRL <- Failed` (R117, R120). -/
def State.raiseOutOfRange (s : State) (e : OutOfRange) : State :=
  { s with bus := e.bus, ctrl := .failed }.respond .errOutOfRange false

/-- `refuse ERR_STATE`: nothing else happens (R118). -/
def State.refuseState (s : State) : State := s.respond .errState false

/-- `refuse ERR_ILLEGAL`: nothing else happens (R119). -/
def State.refuseIllegal (s : State) : State := s.respond .errIllegal false

/-- Admission: the command runs in the state it needs and is refused in any other (R99, R118). -/
def admitIn (needed : Ctrl) (s : State) (command : State → Host.Outcome State Fault Refusal) :
    Host.Outcome State Fault Refusal :=
  if s.ctrl = needed then command s else .next s.refuseState

/-! ## Reset (R136 to R139): the only way out of `Failed` (R125) -/

/-- What reset does to the bus: an asserted select is deasserted, the store's content stays, its pointer is
unspecified and its latch too if reset fell between a write-enable and its write or inside a window (R28,
R138, I19); `DISPLAY_LOG` is empty (R137). -/
def Bus.assertReset (c : Config) (b : Bus) : Bus :=
  let b₁ := if b.dsel then b.emit c .dselDown else b
  let b₂ := if b.ssel then b₁.emit c .sselDown else b₁
  { b₂ with
    store :=
      { b₂.store with
        wel := if b.store.wel || b.ssel then Config.cutLatch b.draws else false
        ptr := Config.resetPointer b.draws
        mode := .idle
        header := [] }
    shiftIn := []
    displayLog := []
    draws := b₂.draws + 1 }

/-- Reset is asserted (R136). -/
def State.assertReset (s : State) : State :=
  { s with
    ctrl := .uninitialized
    vcom := s.cfg.vcomInit
    status := .ok
    result := false
    bus := s.bus.assertReset s.cfg }

/-- The byte-period of `e` is cut by reset: the byte of the store it would have written has an unspecified
value (R138, I19). -/
def Bus.cutDuring (c : Config) (e : Option BusEvent) (b : Bus) : Bus :=
  match e with
  | some (.byte _ _) =>
    if b.ssel && decide (b.store.mode = .writing) then
      { b with
        store := b.store.accept c b.draws (Config.cutByte b.draws)
        draws := b.draws + 1 }
    else b
  | _ => b

/-- Reset falls into a command whose bus events are `events`, after the first `n` of them (R138). -/
def State.resetDuring (s : State) (events : List BusEvent) (n : Nat) (midByte : Bool) : State :=
  let b := s.bus.replay s.cfg (events.take n)
  let b := if midByte then b.cutDuring s.cfg events[n]? else b
  State.assertReset { s with bus := b }

end Sys2Proof.Machine
end

