-- ==== Sys2Proof/Machine/Begin.lean ====
section
/-! DEFINITION. BEGIN (spec/44_controller.md R101). -/

namespace Sys2Proof.Machine

/-- The writes of BEGIN: the header, then every record, ascending. -/
def beginWrites (c : Config) (b : Bus) : Except OutOfRange Bus :=
  match storeWrite c headerBase (headerTemplates c) b with
  | .ok b' => writeAllRecords c b'
  | .error e => .error e

/-- `BEGIN` (R101). The orientation step has no effect in the core (R112). -/
def execBegin (s : State) : Host.Outcome State Fault Refusal :=
  admitIn .uninitialized s fun s =>
    match beginWrites s.cfg s.bus with
    | .ok b => .next ({ s with bus := b, ctrl := .ready }.respond .ok false)
    | .error e => .next (s.raiseOutOfRange e)

end Sys2Proof.Machine
end

