-- ==== Sys2Proof/Machine/DisplayFrame.lean ====
section
/-! DEFINITION. The display frames DF.WRITE and DF.CLEAR, each shifted into the display by itself
(spec/30_encoding.md R59, R60; spec/10_state.md R26). -/

namespace Sys2Proof.Machine

/-- `DF.WRITE` (R59): the command byte, then the LineRecord of every row. -/
def execDfWrite (vcom : Bool) (data : List Byte) (s : State) : Host.Outcome State Fault Refusal :=
  if hasLength data (s.cfg.height * s.cfg.rowBytes) then
    .next { s with
      bus := s.bus.showFrame s.cfg (cmdByte s.cfg s.cfg.cmdWrite vcom :: frameRecords s.cfg s.cfg.height 0 data) }
  else .refused (.displayWindow .unknownFrameLength)

/-- `DF.CLEAR` (R59): the command byte, then the marker slot's byte and the write slot's. -/
def execDfClear (vcom : Bool) (marker write : Byte) (s : State) : Host.Outcome State Fault Refusal :=
  .next { s with bus := s.bus.showFrame s.cfg [cmdByte s.cfg s.cfg.cmdClear vcom, marker, write] }

end Sys2Proof.Machine
end

