-- ==== Sys2Proof/Machine/Pixel.lean ====
section
/-! DEFINITION. SETPIXEL and GETPIXEL (spec/44_controller.md R102, R103). -/

namespace Sys2Proof.Machine

/-- `SETPIXEL x, y, on` (R102): clipped outside the frame, else read, MUTATE, write back, always (D16). -/
def execSetPixel (x y : Coord) (on : Bool) (s : State) : Host.Outcome State Fault Refusal :=
  admitIn .ready s fun s =>
    let px := coordinate x
    let py := coordinate y
    if inBounds s.cfg px py then
      let address := pixAddress s.cfg px py
      match storeRead s.cfg address 1 s.bus with
      | .error e => .next (s.raiseOutOfRange e)
      | .ok (bytes, b) =>
        match storeWrite s.cfg address [mutate (bytes 0) (pixBit px) on] b with
        | .error e => .next (s.raiseOutOfRange e)
        | .ok b' => .next ({ s with bus := b' }.respond .ok false)
    else .next (s.respond .ok false)

/-- `GETPIXEL x, y` (R103): 0 outside the frame, else the TEST of the byte read. -/
def execGetPixel (x y : Coord) (s : State) : Host.Outcome State Fault Refusal :=
  admitIn .ready s fun s =>
    let px := coordinate x
    let py := coordinate y
    if inBounds s.cfg px py then
      match storeRead s.cfg (pixAddress s.cfg px py) 1 s.bus with
      | .error e => .next (s.raiseOutOfRange e)
      | .ok (bytes, b) => .next ({ s with bus := b }.respond .ok (testBit (bytes 0) (pixBit px)))
    else .next (s.respond .ok false)

end Sys2Proof.Machine
end

