-- ==== Sys2Proof/Machine/StoreBus.lean ====
section
/-! DEFINITION. The store bus transactions SB.READ, SB.WREN and SB.WRITE, each run by itself
(spec/30_encoding.md R57, spec/40_store_access.md R65 to R70). The core makes the bound check of
STORE.READ and STORE.WRITE before any bus event (R44, R67). -/

namespace Sys2Proof.Machine

/-- `SB.READ(address, count)` (R57, R65). The bytes the store returns are in the trace. -/
def execSbRead (address : Addr) (count : Nat) (s : State) : Host.Outcome State Fault Refusal :=
  if count = 0 then .refused .zeroLength
  else
    match storeRead s.cfg address.toNat count s.bus with
    | .ok (_, b) => .next { s with bus := b }
    | .error e => .next (s.raiseOutOfRange e)

/-- `SB.WREN` (R57, R68). -/
def execSbWren (s : State) : Host.Outcome State Fault Refusal :=
  .next { s with bus := s.bus.writeEnable s.cfg }

/-- `SB.WRITE(address, data)` (R57, R66, R70), without the write-enable that STORE.WRITE sends before it. A write
that finds the store locked has no meaning (R70, D29). -/
def execSbWrite (address : Addr) (data : List Byte) (s : State) : Host.Outcome State Fault Refusal :=
  if data.length = 0 then .refused .zeroLength
  else if boundOk s.cfg address.toNat data.length then
    if s.bus.store.wel then .next { s with bus := s.bus.writeTransaction s.cfg address.toNat data }
    else .refused .lockedWrite
  else .next (s.raiseOutOfRange ⟨address.toNat, data.length, s.bus⟩)

end Sys2Proof.Machine
end

