-- ==== Sys2Proof/Machine/Update.lean ====
section
/-! DEFINITION. The image updates CLEAR and REFRESH (spec/44_controller.md R104, R105). -/

namespace Sys2Proof.Machine

/-- The last steps of an image update, once its store writes are done: the toggle, then the relay, then the
response (R104, R105, R106). -/
def toggleAndRelay (a lineCount lineLength : Nat) (s : State) : Host.Outcome State Fault Refusal :=
  let toggled := s.toggleVcom
  match relay toggled.cfg a lineCount lineLength toggled.bus with
  | .next b => .next ({ toggled with bus := b }.respond .ok false)
  | .fault r => .fault r
  | .refused r => .refused r

/-- The store writes of CLEAR: every record blank, then the clear slot with VCOM as it is before the toggle
(R104 steps 1 and 2, R108). -/
def clearWrites (c : Config) (v : Bool) (b : Bus) : Except OutOfRange Bus :=
  match writeAllRecords c b with
  | .ok b' => storeWrite c (ctrlSlot .clear) [cmdByte c c.cmdClear v] b'
  | .error e => .error e

/-- `CLEAR` (R104). -/
def execClear (s : State) : Host.Outcome State Fault Refusal :=
  admitIn .ready s fun s =>
    match clearWrites s.cfg s.vcom s.bus with
    | .error e => .next (s.raiseOutOfRange e)
    | .ok b => toggleAndRelay (ctrlSlot .clear) clearLineCount clearLineLength { s with bus := b }

/-- `REFRESH` (R105). -/
def execRefresh (s : State) : Host.Outcome State Fault Refusal :=
  admitIn .ready s fun s =>
    match storeWrite s.cfg (ctrlSlot .write) [cmdByte s.cfg s.cfg.cmdWrite s.vcom] s.bus with
    | .error e => .next (s.raiseOutOfRange e)
    | .ok b => toggleAndRelay (ctrlSlot .write) s.cfg.height s.cfg.record { s with bus := b }

end Sys2Proof.Machine
end

