-- ==== Sys2Proof/Machine/Dispatch.lean ====
section
/-! DEFINITION. One arm per row of the opcode table. -/

namespace Sys2Proof.Machine

def exec (i : Instr) (s : State) : Host.Outcome State Fault Refusal :=
  match i with
  | .begin => Sys2Proof.Machine.execBegin s
  | .setPixel x y on => Sys2Proof.Machine.execSetPixel x y on s
  | .getPixel x y => Sys2Proof.Machine.execGetPixel x y s
  | .clear => Sys2Proof.Machine.execClear s
  | .refresh => Sys2Proof.Machine.execRefresh s
  | .sbRead address count => Sys2Proof.Machine.execSbRead address count s
  | .sbWren => Sys2Proof.Machine.execSbWren s
  | .sbWrite address data => Sys2Proof.Machine.execSbWrite address data s
  | .dfWrite vcom data => Sys2Proof.Machine.execDfWrite vcom data s
  | .dfClear vcom marker write => Sys2Proof.Machine.execDfClear vcom marker write s

end Sys2Proof.Machine
end

