-- ==== Sys2Proof/Machine/Fetch.lean ====
section
/-! DEFINITION. What the machine does with the next input: fetching, decoding and accepting a packet
(spec/44_controller.md R100, spec/60_exceptions.md R123), and a command cut by reset
(spec/70_reset_and_hazards.md R138). -/

namespace Sys2Proof.Machine

/-- A configuration the spec gives a meaning: R9 holds and the relay mode is direct-link (R9, R97). -/
def configRefusal (c : Config) : Option Refusal :=
  if ¬ c.Valid then some .configuration
  else if c.relayMode ≠ .directLink then some .relayMode
  else none

/-- A packet arrives. A reserved command word is refused by the core, with a response (R119); a window that is
no row of the table has no meaning. -/
def acceptPacket (p : Packet) (s : State) : Host.Outcome State Fault Refusal :=
  match decode s.cfg p with
  | .ok i => exec i s
  | .error why =>
    match p with
    | .command _ => .next s.refuseIllegal
    | .storeWindow _ => .refused (.storeWindow why)
    | .displayWindow _ => .refused (.displayWindow why)

/-- A command is accepted and cut by reset (R138): the bus events are those the command makes, up to the cut;
the core keeps nothing of it. -/
def acceptCut (cw : CommandWord) (events : Nat) (midByte : Bool) (s : State) :
    Host.Outcome State Fault Refusal :=
  match acceptPacket (.command cw) s with
  | .next t => .next (s.resetDuring (t.bus.trace.drop s.bus.trace.length) events midByte)
  | .fault r => .fault r
  | .refused r => .refused r

/-- One input is taken. -/
def takeInput (i : Input) (s : State) : Host.Outcome State Fault Refusal :=
  match i with
  | .packet p => acceptPacket p s
  | .commandCut cw events midByte => acceptCut cw events midByte s
  | .reset => .next s.assertReset

/-- The next step: the oldest input pending is taken; with none the core is idle and nothing changes (R100). -/
def takeNext (s : State) : Host.Outcome State Fault Refusal :=
  match configRefusal s.cfg with
  | some r => .refused r
  | none =>
    match s.inbox with
    | [] => .next s
    | i :: rest => takeInput i { s with inbox := rest }

/-- A packet put where the next step takes its input from. -/
def State.withPacket (s : State) (p : Packet) : State :=
  { s with inbox := .packet p :: s.inbox }

/-- What an SB.WRITE window finds when it arrives as the spec has it: the write-enable right before it (R66) has
set the latch. Any other packet needs nothing. -/
def State.unlockedFor (s : State) (p : Packet) : State :=
  match p with
  | .storeWindow (op :: _) =>
    if op = s.cfg.opWrite then { s with bus := { s.bus with store := { s.bus.store with wel := true } } } else s
  | .storeWindow [] => s
  | .command _ => s
  | .displayWindow _ => s

end Sys2Proof.Machine
end

