-- ==== Sys2Proof/Machine/Step.lean ====
section
/-! DEFINITION. The step function, and where the next instruction is fetched from. -/

namespace Sys2Proof.Machine

/-- One step: the next input is taken and runs to completion (R100). -/
def step (s : State) : Host.Outcome State Fault Refusal := takeNext s

/-- The table word put at the front of the inbox, as the packet it stands for under the state's own
configuration, and for an SB.WRITE the latch set (notes/assumptions/28.md). -/
def State.withFetchWord (s : State) (nbits w : Nat) : State :=
  (s.unlockedFor (tablePacket s.cfg nbits w)).withPacket (tablePacket s.cfg nbits w)

end Sys2Proof.Machine
end

