-- ==== Sys2Proof/Safety.lean ====
section
/-! DEFINITION. What claims about the machine are stated in: the bus traces of spec/30_encoding.md R57 and
spec/43_relay_bridge.md R89 as lists of events, the invariants, and what the host of the spec can do. -/

namespace Sys2Proof.Machine

/-! ## Traces, transcribed from R57, R68 and R89. `p k` is the placeholder of data byte-period `k`. -/

/-- The opcode and the two address bytes, high first. -/
def headerEvents (op : Byte) (a : Nat) : List BusEvent :=
  [.byte op none, .byte (addrHigh (BitVec.ofNat 16 a)) none, .byte (addrLow (BitVec.ofNat 16 a)) none]

/-- The byte-periods in which the store drives `MEM[a]`, `MEM[a + 1]`, ... -/
def dataEvents (m : Memory) (a n : Nat) (p : Nat → Byte) : List BusEvent :=
  (List.range n).map fun k => .byte (p k) (some (m.read (a + k)))

/-- `SB.READ(a, n)`. -/
def readWindow (c : Config) (m : Memory) (a n : Nat) (p : Nat → Byte) : List BusEvent :=
  .sselUp :: headerEvents c.opRead a ++ dataEvents m a n p ++ [.sselDown]

/-- `SB.WREN`. -/
def wrenWindow (c : Config) : List BusEvent := [.sselUp, .byte c.opWren none, .sselDown]

/-- `SB.WRITE(a, data)`. -/
def writeWindow (c : Config) (a : Nat) (data : List Byte) : List BusEvent :=
  .sselUp :: headerEvents c.opWrite a ++ data.map (fun v => .byte v none) ++ [.sselDown]

/-- `STORE.WRITE(a, data)`: its write-enable, then the write (R66). -/
def storeWriteEvents (c : Config) (a : Nat) (data : List Byte) : List BusEvent :=
  wrenWindow c ++ writeWindow c a data

/-- `RELAY` of `n` bytes from `a` on (R89): the selects nest, the store's outside. -/
def relayWindow (c : Config) (m : Memory) (a n : Nat) (p : Nat → Byte) : List BusEvent :=
  .sselUp :: headerEvents c.opRead a ++ .dselUp :: dataEvents m a n p ++ [.dselDown, .sselDown]

/-- The writes of every record, ascending (R101, R104). -/
def recordEvents (c : Config) : List BusEvent :=
  (List.range c.height).flatMap fun y => storeWriteEvents c (recAddr c y) (blankRecord c y)

/-- The byte-periods among the events of a trace. -/
def bytePeriods (events : List BusEvent) : Nat :=
  events.countP fun e => match e with | .byte _ _ => true | .sselUp | .sselDown | .dselUp | .dselDown => false

/-! ## A command cut by reset (R138): what the bus events before the cut leave in the store. -/

/-- The calls of STORE.WRITE, address and bytes, that write every record (R101, R104). -/
def recordCalls (c : Config) : List (Nat × List Byte) :=
  (List.range c.height).map fun y => (recAddr c y, blankRecord c y)

/-- The calls of BEGIN, up to the first that fails its bound check (R101). -/
def beginCalls (c : Config) : List (Nat × List Byte) :=
  ((0, [c.cmdClear, c.marker, c.cmdWrite]) :: recordCalls c).takeWhile fun call =>
    decide (call.1 + call.2.length ≤ c.storeMaxAddr + 1)

/-- The calls of CLEAR (R104). -/
def clearCalls (c : Config) (vcom : Bool) : List (Nat × List Byte) :=
  recordCalls c ++ [(0, [cmdByte c c.cmdClear vcom])]

/-- The call of REFRESH (R105). -/
def refreshCalls (c : Config) (vcom : Bool) : List (Nat × List Byte) := [(2, [cmdByte c c.cmdWrite vcom])]

/-- `MEM` after the first `n` bus events of these calls. A call of `k` bytes is `k + 8` events: seven before its first
data byte (the write-enable's three, `SSEL+`, the opcode, the address), one for each byte, `SSEL-` (R57, R66). -/
def cutMemory : List (Nat × List Byte) → Nat → Memory → Memory
  | [], _, m => m
  | (a, data) :: calls, n, m => cutMemory calls (n - (data.length + 8)) (m.writeBytes a (data.take (n - 7)))

/-- The address the event after the first `n` writes to, if it is a data byte. -/
def cutAddress : List (Nat × List Byte) → Nat → Option Nat
  | [], _ => none
  | (a, data) :: calls, n =>
    if n < data.length + 8 then if 7 ≤ n ∧ n < data.length + 7 then some (a + (n - 7)) else none
    else cutAddress calls (n - (data.length + 8))

/-! ## Command words -/

/-- The reserved command words of R55, read off the number: `OP` 0 or 6 to 15, or `RSV` not 0. -/
abbrev Reserved (w : CommandWord) : Prop :=
  w.toNat / 2 ^ 36 = 0 ∨ 6 ≤ w.toNat / 2 ^ 36 ∨ w.toNat / 2 ^ 33 % 8 ≠ 0

/-! ## Configurations -/

/-- The frame fits the store (R101, R117): then BEGIN succeeds, and otherwise it faults. -/
abbrev Fits (c : Config) : Prop := frameEnd c ≤ c.storeMaxAddr

/-! ## Invariants -/

/-- Between commands nothing is selected and no window is in progress (R22, R93). -/
abbrev Bus.Quiet (b : Bus) : Prop :=
  b.ssel = false ∧ b.dsel = false ∧ b.store.mode = .idle ∧ b.store.header = [] ∧ b.shiftIn = []

/-- What every step keeps: memory in canonical form and inside the address space (R30), a quiet bus (R22), and
`Ready` only with a frame that fits (R98, R120). -/
abbrev MachineInv (s : State) : Prop :=
  s.bus.store.mem.wf ∧ (∀ cell ∈ s.bus.store.mem, cell.1 ≤ s.cfg.storeMaxAddr) ∧ s.bus.Quiet ∧
  (s.ctrl = .ready → Fits s.cfg)

/-- In `Ready` the persisted layout stands (R33, R34, R36): every record has its line number and its trailer,
and the padding bits of its last data byte are 1. -/
abbrev LayoutInv (s : State) : Prop :=
  s.ctrl = .ready →
    ∀ y, y < s.cfg.height →
      s.read (recAddr s.cfg y) = lineNum y ∧
      s.read (recAddr s.cfg y + s.cfg.record - 1) = trailerByte ∧
      ∀ i : Fin 8, s.cfg.width < 8 * s.cfg.rowBytes → s.cfg.width % 8 ≤ i.val →
        testBit (s.read (recAddr s.cfg y + s.cfg.rowBytes)) i = false

/-- The alternation of R107: the frames received since reset carry `VCOM_INIT`, its opposite, and so on, in a
command byte of CLEAR or REFRESH, and `VCOM` is what the next one will carry. -/
abbrev VcomInv (s : State) : Prop :=
  s.vcom = (s.cfg.vcomInit ^^ decide (s.bus.displayLog.length % 2 = 1)) ∧
  ∀ k, k < s.bus.displayLog.length →
    ∃ template ∈ [s.cfg.cmdClear, s.cfg.cmdWrite],
      (s.bus.displayLog[k]?.bind List.head?) =
        some (cmdByte s.cfg template (s.cfg.vcomInit ^^ decide (k % 2 = 1)))

/-- What the host of the spec does (R150): it presents command words and asserts reset. -/
def Input.fromHost : Input → Bool
  | .packet (.command _) => true
  | .packet (.storeWindow _) => false
  | .packet (.displayWindow _) => false
  | .commandCut _ _ _ => true
  | .reset => true

/-- What every command leaves alone: the configuration and the inputs still pending. -/
abbrev SameHost (s t : State) : Prop := t.cfg = s.cfg ∧ t.inbox = s.inbox

/-- The command ended with this response: `STATUS`, `RESULT`, and `RESP` presented once (R18, R56). -/
abbrev Responded (s t : State) (status : Status) (result : Bool) : Prop :=
  t.status = status ∧ t.result = result ∧ t.responses = s.responses ++ [response status result]

/-- No response was given: `STATUS`, `RESULT` and the responses stand as they were. -/
abbrev NoResponse (s t : State) : Prop :=
  t.status = s.status ∧ t.result = s.result ∧ t.responses = s.responses

/-- `b'` is what the devices make of some events that follow the trace of `b`. -/
abbrev Bus.Follows (c : Config) (b b' : Bus) : Prop :=
  ∃ events, b'.trace = b.trace ++ events ∧ b' = b.replay c events

end Sys2Proof.Machine
end

