-- ==== Sys2Proof/Certificates/Slice0/Obligations.lean ====
section
/-! DEFINITION. The statements for the provers. Each docstring says which rule of spec/ it formalises. A
statement over all states holds for every configuration that meets R9 (`Config.Valid`), for every content of the
store and for every value of the free values; where it would fail only in states no run reaches, it assumes an
invariant that `StepKeepsMachineInv` states. -/

open Sys2Proof Sys2Proof.Machine

/-! ## Encodings -/

/-- R54, with the operand assembly of R52 and R53: an encoding matches a row when `CW & mask = match`. The fields
are read by shifting the word. -/
def Obligations.OpcodeMapDecodesMatchingWords : Prop :=
  ∀ w : CommandWord,
    (w &&& 0xFE00000000 = 0x1000000000 → decodeHC w = .ok .begin) ∧
    (w &&& 0xFE00000000 = 0x2000000000 →
      decodeHC w = .ok (.setPixel ((w >>> 16).setWidth 16) (w.setWidth 16) (w.getLsbD 32))) ∧
    (w &&& 0xFE00000000 = 0x3000000000 →
      decodeHC w = .ok (.getPixel ((w >>> 16).setWidth 16) (w.setWidth 16))) ∧
    (w &&& 0xFE00000000 = 0x4000000000 → decodeHC w = .ok .clear) ∧
    (w &&& 0xFE00000000 = 0x5000000000 → decodeHC w = .ok .refresh)

/-- R55: the decoder rejects exactly the reserved words: `OP` 0 and 6 to 15, and `RSV` not 0 whatever the `OP`. -/
def Obligations.ReservedWordsAreTheUndecodable : Prop :=
  ∀ w : CommandWord, Reserved w ↔ ∃ why, decodeHC w = .error why

/-- R57, R58, R59, R60, R63: command words from the spec's examples, and store windows and a display frame under the
model's chosen configuration, decoded. The opcode and command bytes are open in the spec (R58, R60): those here are the
suggested ones, which the model PRESUMES, notes/assumptions/3.md. A sanity statement on fixed values. -/
def Obligations.SpecEncodingsDecode : Prop :=
  decodeHC 0x1000000000 = .ok .begin ∧
  decodeHC 0x2100070000 = .ok (.setPixel 7 0 true) ∧
  decodeHC 0x30FFFF0000 = .ok (.getPixel (-1) 0) ∧
  decodeHC 0x21018F00EF = .ok (.setPixel 399 239 true) ∧
  decodeHC 0x4000000000 = .ok .clear ∧
  decodeHC 0x5000000000 = .ok .refresh ∧
  decodeSB Config.reference [0x03, 0x30, 0xC1, 0x55] = .ok (.sbRead 12481 1) ∧
  decodeSB Config.reference [0x06] = .ok .sbWren ∧
  decodeSB Config.reference [0x02, 0x00, 0x04, 0xFE] = .ok (.sbWrite 4 [0xFE]) ∧
  decodeDF Config.reference [0x60, 0x00, 0x80] = .ok (.dfClear true 0x00 0x80)

/-- Decoding what was encoded gives the instruction back, for every well-formed instruction of the three classes
(R51 to R60) and every configuration. -/
def Obligations.DecodeEncodeRoundTrip : Prop :=
  ∀ (c : Config) (i : Instr), c.Valid → i.wellFormed c = true → decode c (encode c i) = .ok i

/-- R60 with R9 item 6: a command byte tells the VCOM bit it carries. -/
def Obligations.CommandByteCarriesVcom : Prop :=
  ∀ c : Config, c.Valid → ∀ template ∈ [c.cmdClear, c.cmdWrite],
    cmdByte c template true &&& c.vcomMask = c.vcomMask ∧
    cmdByte c template false &&& c.vcomMask = 0 ∧
    cmdByte c template false = template ∧
    cmdByte c template true ≠ cmdByte c template false

/-! ## Steps -/

/-- A step runs the decoded instruction: when the oldest pending input is a packet that decodes to `i`, the step is
`exec i` with that input taken; and a packet put in front is the one the next step takes. How a packet waits is the
model's choice (notes/assumptions/10.md). -/
def Obligations.StepRunsDecodedPacket : Prop :=
  (∀ (s : State) (p : Packet) (rest : List Input) (i : Instr),
    s.cfg.Valid → s.cfg.relayMode = .directLink → s.inbox = .packet p :: rest → decode s.cfg p = .ok i →
    step s = exec i { s with inbox := rest }) ∧
  (∀ (s : State) (p : Packet) (i : Instr),
    s.cfg.Valid → s.cfg.relayMode = .directLink → decode s.cfg p = .ok i →
    step (s.withPacket p) = exec i s)

/-- With no input pending nothing changes (the model's choice, notes/assumptions/10.md). -/
def Obligations.IdleStepChangesNothing : Prop :=
  ∀ s : State, s.cfg.Valid → s.cfg.relayMode = .directLink → s.inbox = [] → step s = .next s

/-- R9, R97, I4, I21: a configuration that breaks R9 (its item 9 too, `STORE_MAX_ADDR < 2`), or another relay mode, is
refused. Where it is refused is the model's choice, notes/assumptions/16.md; the rules that give so small a store an
effect in BEGIN are in notes/assumptions/15.md. -/
def Obligations.StepRefusesOtherConfigurations : Prop :=
  ∀ s : State,
    (¬ s.cfg.Valid → step s = .refused .configuration) ∧
    (s.cfg.Valid → s.cfg.relayMode ≠ .directLink → step s = .refused .relayMode)

/-- R119: a reserved command word is refused in every `CTRL` state: `STATUS = ERR_ILLEGAL`, `RESULT = 0` (response
`0b110`), and nothing else but that the input is taken. -/
def Obligations.ReservedWordIsRefused : Prop :=
  ∀ (s : State) (w : CommandWord) (rest : List Input),
    s.cfg.Valid → s.cfg.relayMode = .directLink → s.inbox = .packet (.command w) :: rest → Reserved w →
    step s = .next { s with
      inbox := rest
      status := .errIllegal
      result := false
      responses := s.responses ++ [0b110] }

/-- R118, R99: a command not permitted in the current `CTRL` is refused: `STATUS = ERR_STATE`, `RESULT = 0`,
response `0b010`, and nothing else. -/
def Obligations.CommandsInWrongStateAreRefused : Prop :=
  ∀ s : State,
    (s.ctrl ≠ .uninitialized →
      exec .begin s = .next { s with status := .errState, result := false, responses := s.responses ++ [0b010] }) ∧
    (s.ctrl ≠ .ready → ∀ i : Instr,
      (∃ x y on, i = .setPixel x y on) ∨ (∃ x y, i = .getPixel x y) ∨ i = .clear ∨ i = .refresh →
      exec i s = .next { s with status := .errState, result := false, responses := s.responses ++ [0b010] })

/-- R56: every command ends with one response, `RESP[2:1] = STATUS` with the codes 0 to 3 and `RESP[0] = RESULT`, and
`RESULT` is 0 unless the command was a GETPIXEL that ended `OK` and found the pixel on (its natural bit 0). -/
def Obligations.EachCommandRespondsOnce : Prop :=
  ∀ (s t : State) (w : CommandWord) (rest : List Input),
    s.inbox = .packet (.command w) :: rest → step s = .next t →
    (∃ r : BitVec 3, t.responses = s.responses ++ [r] ∧ r.getLsbD 0 = t.result ∧
      r.toNat / 2 =
        match t.status with
        | .ok => 0
        | .errState => 1
        | .errOutOfRange => 2
        | .errIllegal => 3) ∧
    (t.result = true → t.status = .ok ∧ ∃ x y : Coord, decodeHC w = .ok (.getPixel x y) ∧
      inBounds s.cfg x.toInt y.toInt = true ∧
      (reverse (s.read (pixAddress s.cfg x.toInt y.toInt))).getLsbD (x.toInt.toNat % 8) = false)

/-! ## Reset -/

/-- R28: the values the spec gives for reset, for every configuration. (`MEM` and `PTR` it leaves open.) -/
def Obligations.ResetStateValues : Prop :=
  ∀ c : Config,
    (State.resetOf c).ctrl = .uninitialized ∧ (State.resetOf c).vcom = c.vcomInit ∧
    (State.resetOf c).status = .ok ∧ (State.resetOf c).result = false ∧
    (State.resetOf c).bus.ssel = false ∧ (State.resetOf c).bus.dsel = false ∧
    (State.resetOf c).bus.store.wel = false ∧ (State.resetOf c).bus.store.mode = .idle ∧
    (State.resetOf c).bus.displayLog = []

/-- R136: reset asserted in any state, also the terminal one. The store's bytes are not touched; the latch is 0
unless a write-enable was pending or a window open (R28).
That the responses are kept is the model's choice, notes/assumptions/13.md. -/
def Obligations.ResetEvent : Prop :=
  ∀ (s : State) (rest : List Input),
    s.cfg.Valid → s.cfg.relayMode = .directLink → s.inbox = .reset :: rest →
    ∃ t, step s = .next t ∧
      t.ctrl = .uninitialized ∧ t.vcom = s.cfg.vcomInit ∧ t.status = .ok ∧ t.result = false ∧
      t.bus.ssel = false ∧ t.bus.dsel = false ∧ t.bus.store.mode = .idle ∧ t.bus.displayLog = [] ∧
      (∀ a, t.read a = s.read a) ∧
      (s.bus.store.wel = false → s.bus.ssel = false → t.bus.store.wel = false) ∧
      t.cfg = s.cfg ∧ t.inbox = rest ∧ t.responses = s.responses

/-- R138 for an in-bounds SETPIXEL, whose fourteenth bus event is the data byte of its write (six events of the read,
three of the write-enable, the select and three header bytes of the write come before it): a cut before that
byte-period leaves the store as it was, a cut after it leaves the new byte, and a cut inside it leaves every OTHER
byte as it was. No response is given and the core is as after reset.
The form of the cut input is the model's choice, notes/assumptions/12.md. -/
def Obligations.ResetDuringSetPixel : Prop :=
  ∀ (s : State) (rest : List Input) (w : CommandWord) (x y : Coord) (on : Bool) (n : Nat) (midByte : Bool),
    s.cfg.Valid → s.cfg.relayMode = .directLink → MachineInv s → s.ctrl = .ready →
    inBounds s.cfg (coordinate x) (coordinate y) = true →
    s.inbox = .commandCut w n midByte :: rest → decodeHC w = .ok (.setPixel x y on) →
    ∃ t, step s = .next t ∧
      t.ctrl = .uninitialized ∧ t.vcom = s.cfg.vcomInit ∧ t.status = .ok ∧ t.result = false ∧
      t.bus.Quiet ∧ t.bus.displayLog = [] ∧ t.responses = s.responses ∧ t.inbox = rest ∧ t.cfg = s.cfg ∧
      (∀ a, a ≠ pixAddress s.cfg (coordinate x) (coordinate y) → t.read a = s.read a) ∧
      (n < 13 ∨ (n = 13 ∧ midByte = false) →
        t.read (pixAddress s.cfg (coordinate x) (coordinate y)) =
          s.read (pixAddress s.cfg (coordinate x) (coordinate y))) ∧
      (13 < n →
        t.read (pixAddress s.cfg (coordinate x) (coordinate y)) =
          mutate (s.read (pixAddress s.cfg (coordinate x) (coordinate y))) (pixBit (coordinate x)) on)

/-- R138: whatever command reset cuts, at whatever event, the core ends as after reset with a quiet bus, an empty
`DISPLAY_LOG` and no response. Of the store, no byte above `FRAME_END` changes; a cut GETPIXEL, a clipped SETPIXEL,
a reserved word, and a command not admitted change no byte; a cut REFRESH changes at most the write slot; a cut CLEAR
leaves the marker and write slots. (A cut SETPIXEL is `ResetDuringSetPixel`, and what the cut of a longer command leaves is
`CutCommandLeavesAPrefixOfItsWrites`.) The form of the cut input is the model's choice, notes/assumptions/12.md. -/
def Obligations.ResetDuringAnyCommand : Prop :=
  ∀ (s : State) (rest : List Input) (w : CommandWord) (n : Nat) (midByte : Bool),
    s.cfg.Valid → s.cfg.relayMode = .directLink → MachineInv s →
    s.inbox = .commandCut w n midByte :: rest →
    ∃ t, step s = .next t ∧
      t.ctrl = .uninitialized ∧ t.vcom = s.cfg.vcomInit ∧ t.status = .ok ∧ t.result = false ∧
      t.bus.Quiet ∧ t.bus.displayLog = [] ∧ t.responses = s.responses ∧ t.inbox = rest ∧ t.cfg = s.cfg ∧
      (∀ a, frameEnd s.cfg < a → t.read a = s.read a) ∧
      (Reserved w ∨ (∃ x y, decodeHC w = .ok (.getPixel x y)) ∨
          (∃ x y on, decodeHC w = .ok (.setPixel x y on) ∧ inBounds s.cfg (coordinate x) (coordinate y) = false) ∨
          (decodeHC w = .ok .begin ∧ s.ctrl ≠ .uninitialized) ∨
          (decodeHC w ≠ .ok .begin ∧ s.ctrl ≠ .ready) →
        ∀ a, t.read a = s.read a) ∧
      (decodeHC w = .ok .refresh → ∀ a, a ≠ 2 → t.read a = s.read a) ∧
      (decodeHC w = .ok .clear → t.read 1 = s.read 1 ∧ t.read 2 = s.read 2)

/-! ## Store access and the relay, as the commands use them -/

/-- R65: STORE.READ makes one read transaction, returns the bytes of the store and changes none; where the last byte
would lie past the store it raises `OutOfRange` with no bus event. -/
def Obligations.StoreReadReturnsTheBytes : Prop :=
  ∀ (c : Config) (b : Bus) (a n : Nat), c.Valid → b.Quiet → 1 ≤ n →
    (a + n - 1 ≤ c.storeMaxAddr →
      ∃ (bytes : Fin n → Byte) (b' : Bus) (p : Nat → Byte), storeRead c a n b = .ok (bytes, b') ∧
        (∀ k, bytes k = b.store.mem.read (a + k.val)) ∧ b'.trace = b.trace ++ readWindow c b.store.mem a n p ∧
        b'.store.mem = b.store.mem ∧ b'.store.wel = b.store.wel ∧ b'.displayLog = b.displayLog ∧ b'.Quiet) ∧
    (c.storeMaxAddr < a + n - 1 → storeRead c a n b = .error ⟨a, n, b⟩)

/-- R66: STORE.WRITE makes one write-enable and one write transaction, puts the bytes at rising addresses, changes no
other byte and leaves the latch clear; where the last byte would lie past the store it raises `OutOfRange` with no bus
event, no write-enable either. -/
def Obligations.StoreWritePutsTheBytes : Prop :=
  ∀ (c : Config) (b : Bus) (a : Nat) (data : List Byte), c.Valid → b.Quiet → 1 ≤ data.length →
    (a + data.length - 1 ≤ c.storeMaxAddr →
      ∃ b', storeWrite c a data b = .ok b' ∧
        (∀ k, (h : k < data.length) → b'.store.mem.read (a + k) = data[k]) ∧
        (∀ a', a' < a ∨ a + data.length ≤ a' → b'.store.mem.read a' = b.store.mem.read a') ∧
        b'.trace = b.trace ++ storeWriteEvents c a data ∧
        b'.store.wel = false ∧ b'.displayLog = b.displayLog ∧ b'.Quiet) ∧
    (c.storeMaxAddr < a + data.length - 1 → storeWrite c a data b = .error ⟨a, data.length, b⟩)

/-- R67: the bound check passes exactly when every address of the access is at most `STORE_MAX_ADDR`; the sum does not
wrap. -/
def Obligations.BoundCheckCoversEveryAddress : Prop :=
  ∀ (c : Config) (a n : Nat), 1 ≤ n →
    (boundOk c a n = true ↔ ∀ k, k < n → a + k ≤ c.storeMaxAddr) ∧
    (boundOk c a n = false ↔ c.storeMaxAddr < a + n - 1)

/-- R89, R94: RELAY of `N = lineCount * lineLength + 1` bytes inside the store: the display receives exactly
`MEM[a .. a + N - 1]`, the selects nest, and no byte of the store and no latch changes. -/
def Obligations.RelayMovesTheBytes : Prop :=
  ∀ (c : Config) (b : Bus) (a lineCount lineLength : Nat),
    c.Valid → c.relayMode = .directLink → b.Quiet → 1 ≤ lineCount → 1 ≤ lineLength →
    a + lineCount * lineLength ≤ c.storeMaxAddr →
    ∃ (b' : Bus) (p : Nat → Byte), relay c a lineCount lineLength b = .next b' ∧
      b'.trace = b.trace ++ relayWindow c b.store.mem a (lineCount * lineLength + 1) p ∧
      b'.displayLog = b.displayLog ++
        [(List.range (lineCount * lineLength + 1)).map fun k => b.store.mem.read (a + k)] ∧
      b'.store.mem = b.store.mem ∧ b'.store.wel = b.store.wel ∧ b'.Quiet

/-- R69, R97, R98, D29, I13: a relay that would read past the store has no meaning and is refused by name, and so is a
relay in another mode. That the refusal comes before any bus event is the model's choice, notes/assumptions/8.md. -/
def Obligations.RelayStopsOutsideItsPrecondition : Prop :=
  ∀ (c : Config) (b : Bus) (a lineCount lineLength : Nat), 1 ≤ lineCount →
    (c.relayMode = .directLink → c.storeMaxAddr < a + lineCount * lineLength →
      relay c a lineCount lineLength b = .refused .pointerPastEnd) ∧
    (c.relayMode ≠ .directLink → relay c a lineCount lineLength b = .refused .relayMode)

/-! ## BEGIN -/

/-- R101, R33, R34, R36: BEGIN on a frame that fits. The header holds the bare templates in the slots of R32, every
record is blank, nothing above `FRAME_END` changes, and `CTRL = Ready`; `VCOM` and `DISPLAY_LOG` are untouched. -/
def Obligations.BeginInitialisesTheStore : Prop :=
  ∀ s : State, s.cfg.Valid → s.bus.Quiet → s.ctrl = .uninitialized → Fits s.cfg →
    ∃ t, exec .begin s = .next t ∧
      t.ctrl = .ready ∧ Responded s t .ok false ∧
      t.read 0 = s.cfg.cmdClear ∧ t.read 1 = s.cfg.marker ∧ t.read 2 = s.cfg.cmdWrite ∧
      (∀ y, y < s.cfg.height →
        t.read (3 + y * (s.cfg.rowBytes + 2)) = reverse (BitVec.ofNat 8 (y + 1)) ∧
        (∀ k, k < s.cfg.rowBytes → t.read (3 + y * (s.cfg.rowBytes + 2) + 1 + k) = 0xFF) ∧
        t.read (3 + y * (s.cfg.rowBytes + 2) + s.cfg.rowBytes + 1) = 0x00) ∧
      (∀ a, frameEnd s.cfg < a → t.read a = s.read a) ∧
      t.vcom = s.vcom ∧ t.bus.displayLog = s.bus.displayLog ∧ SameHost s t ∧
      t.bus.Quiet ∧ t.bus.store.wel = false

/-- R101 (bus activity), R41: `1 + H` pairs of a write-enable and a write, header first, rows ascending. -/
def Obligations.BeginBusTrace : Prop :=
  ∀ s : State, s.cfg.Valid → s.bus.Quiet → s.ctrl = .uninitialized → Fits s.cfg →
    ∃ t, exec .begin s = .next t ∧
      t.bus.trace = s.bus.trace ++
        (storeWriteEvents s.cfg 0 [s.cfg.cmdClear, s.cfg.marker, s.cfg.cmdWrite] ++ recordEvents s.cfg)

/-- R101 (exceptions), R71, R117: BEGIN on a store too small for the frame. `OutOfRange`: `CTRL = Failed`, `STATUS` 2,
`RESULT` 0, both selects deasserted, `VCOM` unchanged. The header and the rows that fit are written; no byte from the
first row that does not fit on is touched, also where it lies inside the store; the trace is the header's pair and one
pair for each row that fits. (A store without room for the header is `BeginWithoutRoomForTheHeader`.) -/
def Obligations.BeginOnTooSmallStore : Prop :=
  ∀ s : State, s.cfg.Valid → s.bus.Quiet → s.ctrl = .uninitialized → ¬ Fits s.cfg →
    ∃ t, exec .begin s = .next t ∧
      t.ctrl = .failed ∧ Responded s t .errOutOfRange false ∧
      t.vcom = s.vcom ∧ t.bus.displayLog = s.bus.displayLog ∧ SameHost s t ∧ t.bus.Quiet ∧
      t.read 0 = s.cfg.cmdClear ∧ t.read 1 = s.cfg.marker ∧ t.read 2 = s.cfg.cmdWrite ∧
      t.bus.store.wel = false ∧
      (∀ n, n < s.cfg.height → (∀ y, y < n → recAddr s.cfg y + s.cfg.record - 1 ≤ s.cfg.storeMaxAddr) →
        s.cfg.storeMaxAddr < recAddr s.cfg n + s.cfg.record - 1 →
        t.bus.trace = s.bus.trace ++
          (storeWriteEvents s.cfg 0 [s.cfg.cmdClear, s.cfg.marker, s.cfg.cmdWrite] ++
            (List.range n).flatMap fun y => storeWriteEvents s.cfg (recAddr s.cfg y) (blankRecord s.cfg y))) ∧
      (∀ y, y < s.cfg.height → recAddr s.cfg y + s.cfg.record - 1 ≤ s.cfg.storeMaxAddr →
        ∀ k, k < s.cfg.record → (blankRecord s.cfg y)[k]? = some (t.read (recAddr s.cfg y + k))) ∧
      (∀ y, y < s.cfg.height → s.cfg.storeMaxAddr < recAddr s.cfg y + s.cfg.record - 1 →
        ∀ a, recAddr s.cfg y ≤ a → t.read a = s.read a)

/-! ## SETPIXEL and GETPIXEL -/

/-- R102, R76, R85, R35: an in-bounds SETPIXEL in `Ready`. The one byte at `PIXADDR` becomes its MUTATE; in the
natural view bit `x mod 8` shows `on` (level 0 is on) and every other bit of it stands. Everything else in memory,
`CTRL`, `VCOM` and `DISPLAY_LOG` are unchanged; the trace is one read, one write-enable and one write. -/
def Obligations.SetPixelInBounds : Prop :=
  ∀ (s : State) (x y : Coord) (on : Bool),
    s.cfg.Valid → s.bus.Quiet → s.ctrl = .ready → Fits s.cfg →
    0 ≤ x.toInt → x.toInt < s.cfg.width → 0 ≤ y.toInt → y.toInt < s.cfg.height →
    ∃ (t : State) (a : Nat) (p : Nat → Byte), exec (.setPixel x y on) s = .next t ∧
      a = 3 + y.toInt.toNat * (s.cfg.rowBytes + 2) + x.toInt.toNat / 8 + 1 ∧
      t.read a = mutate (s.read a) (pixBit x.toInt) on ∧
      (∀ j : Nat, j < 8 →
        (reverse (t.read a)).getLsbD j =
          if j = x.toInt.toNat % 8 then !on else (reverse (s.read a)).getLsbD j) ∧
      (∀ a', a' ≠ a → t.read a' = s.read a') ∧
      t.ctrl = .ready ∧ t.vcom = s.vcom ∧ t.bus.displayLog = s.bus.displayLog ∧ SameHost s t ∧
      Responded s t .ok false ∧ t.bus.Quiet ∧ t.bus.store.wel = false ∧ t.bus.store.ptr.toNat = a + 1 ∧
      t.bus.trace = s.bus.trace ++
        (readWindow s.cfg s.bus.store.mem a 1 p ++ storeWriteEvents s.cfg a [t.read a])

/-- R103, R76, R86, R35: an in-bounds GETPIXEL in `Ready` answers whether the pixel's natural bit is 0 (on), by one
read; memory, `CTRL`, `VCOM`, `WEL` and `DISPLAY_LOG` are unchanged. -/
def Obligations.GetPixelInBounds : Prop :=
  ∀ (s : State) (x y : Coord),
    s.cfg.Valid → s.bus.Quiet → s.ctrl = .ready → Fits s.cfg →
    0 ≤ x.toInt → x.toInt < s.cfg.width → 0 ≤ y.toInt → y.toInt < s.cfg.height →
    ∃ (t : State) (a : Nat) (p : Nat → Byte), exec (.getPixel x y) s = .next t ∧
      a = 3 + y.toInt.toNat * (s.cfg.rowBytes + 2) + x.toInt.toNat / 8 + 1 ∧
      Responded s t .ok (!(reverse (s.read a)).getLsbD (x.toInt.toNat % 8)) ∧
      (∀ a', t.read a' = s.read a') ∧
      t.ctrl = .ready ∧ t.vcom = s.vcom ∧ t.bus.displayLog = s.bus.displayLog ∧ SameHost s t ∧
      t.bus.Quiet ∧ t.bus.store.wel = s.bus.store.wel ∧ t.bus.store.ptr.toNat = a + 1 ∧
      t.bus.trace = s.bus.trace ++ readWindow s.cfg s.bus.store.mem a 1 p

/-- R75, R102, R103: a coordinate outside the frame is clipped. The command completes `OK` with `RESULT` 0 and
nothing else changes: no bus event, no byte. -/
def Obligations.ClippedPixelCommandsDoNothing : Prop :=
  ∀ (s : State) (x y : Coord) (on : Bool), s.ctrl = .ready →
    (x.toInt < 0 ∨ s.cfg.width ≤ x.toInt ∨ y.toInt < 0 ∨ s.cfg.height ≤ y.toInt) →
    exec (.setPixel x y on) s =
      .next { s with status := .ok, result := false, responses := s.responses ++ [0b000] } ∧
    exec (.getPixel x y) s =
      .next { s with status := .ok, result := false, responses := s.responses ++ [0b000] }

/-! ## CLEAR and REFRESH -/

/-- R104, R108, R59: CLEAR in `Ready`. Every record is blank, the clear slot holds the command byte with VCOM from
before the toggle, the marker and write slots and everything above `FRAME_END` stand, VCOM is toggled, and the
display receives the three bytes of the FrameHeader; the trace is the record writes, the slot write, and the relay. -/
def Obligations.ClearBlanksAndRelaysHeader : Prop :=
  ∀ s : State, s.cfg.Valid → s.cfg.relayMode = .directLink → s.bus.Quiet → s.ctrl = .ready → Fits s.cfg →
    ∃ (t : State) (p : Nat → Byte), exec .clear s = .next t ∧
      Responded s t .ok false ∧ t.ctrl = .ready ∧ t.vcom = !s.vcom ∧ SameHost s t ∧
      t.read 0 = s.cfg.cmdClear ||| (if s.vcom then s.cfg.vcomMask else 0) ∧
      t.read 1 = s.read 1 ∧ t.read 2 = s.read 2 ∧
      (∀ y, y < s.cfg.height →
        t.read (3 + y * (s.cfg.rowBytes + 2)) = reverse (BitVec.ofNat 8 (y + 1)) ∧
        (∀ k, k < s.cfg.rowBytes → t.read (3 + y * (s.cfg.rowBytes + 2) + 1 + k) = 0xFF) ∧
        t.read (3 + y * (s.cfg.rowBytes + 2) + s.cfg.rowBytes + 1) = 0x00) ∧
      (∀ a, frameEnd s.cfg < a → t.read a = s.read a) ∧
      t.bus.displayLog = s.bus.displayLog ++ [[t.read 0, s.read 1, s.read 2]] ∧
      t.bus.Quiet ∧ t.bus.store.wel = false ∧ t.bus.store.ptr.toNat = 3 ∧
      t.bus.trace = s.bus.trace ++
        (recordEvents s.cfg ++ storeWriteEvents s.cfg 0 [t.read 0] ++ relayWindow s.cfg t.bus.store.mem 0 3 p)

/-- R105, R108, R94: REFRESH in `Ready`. The write slot holds the command byte with VCOM from before the toggle and no
other byte changes; VCOM is toggled; the display receives the write slot and then every record byte up to
`FRAME_END`; the trace is the slot write and the relay. -/
def Obligations.RefreshRelaysTheFrame : Prop :=
  ∀ s : State, s.cfg.Valid → s.cfg.relayMode = .directLink → s.bus.Quiet → s.ctrl = .ready → Fits s.cfg →
    ∃ (t : State) (p : Nat → Byte), exec .refresh s = .next t ∧
      Responded s t .ok false ∧ t.ctrl = .ready ∧ t.vcom = !s.vcom ∧ SameHost s t ∧
      t.read 2 = s.cfg.cmdWrite ||| (if s.vcom then s.cfg.vcomMask else 0) ∧
      (∀ a, a ≠ 2 → t.read a = s.read a) ∧
      t.bus.displayLog = s.bus.displayLog ++
        [t.read 2 :: (List.range (s.cfg.height * (s.cfg.rowBytes + 2))).map fun k => s.read (3 + k)] ∧
      t.bus.Quiet ∧ t.bus.store.wel = false ∧
      t.bus.trace = s.bus.trace ++
        (storeWriteEvents s.cfg 2 [t.read 2] ++ relayWindow s.cfg t.bus.store.mem 2 (s.cfg.frameSize + 1) p)

/-- R59: the frames CLEAR and REFRESH put on `DISPLAY_LOG` are the two rows of format DF, carrying the VCOM bit the
command started with: CLEAR's with the marker and write slots, REFRESH's, where the persisted layout stands
(`LayoutInv`), with the data bytes of every row in row order. -/
def Obligations.UpdateFramesDecode : Prop :=
  ∀ (s t : State), s.cfg.Valid → s.bus.Quiet → s.ctrl = .ready → Fits s.cfg →
    (exec .clear s = .next t →
      ∃ frame, t.bus.displayLog = s.bus.displayLog ++ [frame] ∧
        decodeDF s.cfg frame = .ok (.dfClear s.vcom (s.read 1) (s.read 2))) ∧
    (LayoutInv s → exec .refresh s = .next t →
      ∃ frame, t.bus.displayLog = s.bus.displayLog ++ [frame] ∧
        decodeDF s.cfg frame =
          .ok (.dfWrite s.vcom ((List.range s.cfg.height).flatMap fun y =>
            (List.range s.cfg.rowBytes).map fun k => s.read (recAddr s.cfg y + 1 + k))))

/-! ## Store bus transactions and display frames by themselves -/

/-- R57, R65, R69, R43: an SB.READ inside the store drives the bytes of the store in turn and changes neither a byte
nor the latch; the pointer ends after the last byte. It is no command: no response, `CTRL` and `VCOM` stand. Running a
row by itself is the model's choice (notes/assumptions/1.md). -/
def Obligations.SbReadDrivesTheStoredBytes : Prop :=
  ∀ (s : State) (a : Addr) (n : Nat), s.cfg.Valid → s.bus.Quiet → 1 ≤ n →
    a.toNat + n - 1 ≤ s.cfg.storeMaxAddr →
    ∃ (t : State) (p : Nat → Byte), exec (.sbRead a n) s = .next t ∧
      t.bus.trace = s.bus.trace ++ readWindow s.cfg s.bus.store.mem a.toNat n p ∧
      (∀ a', t.read a' = s.read a') ∧ t.bus.store.wel = s.bus.store.wel ∧
      (a.toNat + n ≤ s.cfg.storeMaxAddr → t.bus.store.ptr.toNat = a.toNat + n) ∧
      t.bus.displayLog = s.bus.displayLog ∧ t.bus.Quiet ∧
      t.ctrl = s.ctrl ∧ t.vcom = s.vcom ∧ SameHost s t ∧ NoResponse s t

/-- R57, R68: an SB.WREN sets the latch and changes nothing else the spec names.
Running a row by itself is the model's choice, notes/assumptions/1.md. -/
def Obligations.SbWrenSetsTheLatch : Prop :=
  ∀ s : State, s.cfg.Valid → s.bus.Quiet →
    ∃ t, exec .sbWren s = .next t ∧
      t.bus.store.wel = true ∧
      t.bus.trace = s.bus.trace ++ [.sselUp, .byte s.cfg.opWren none, .sselDown] ∧
      (∀ a', t.read a' = s.read a') ∧ t.bus.store.ptr = s.bus.store.ptr ∧
      t.bus.displayLog = s.bus.displayLog ∧ t.bus.Quiet ∧
      t.ctrl = s.ctrl ∧ t.vcom = s.vcom ∧ SameHost s t ∧ NoResponse s t

/-- R57, R69, R70: an SB.WRITE inside the store whose latch is set puts its bytes at rising addresses, changes no
other byte, and clears the latch.
Running a row by itself is the model's choice, notes/assumptions/1.md. -/
def Obligations.SbWriteStoresAndRelocks : Prop :=
  ∀ (s : State) (a : Addr) (data : List Byte), s.cfg.Valid → s.bus.Quiet → s.bus.store.wel = true →
    1 ≤ data.length → a.toNat + data.length - 1 ≤ s.cfg.storeMaxAddr →
    ∃ t, exec (.sbWrite a data) s = .next t ∧
      (∀ k, (h : k < data.length) → t.read (a.toNat + k) = data[k]) ∧
      (∀ a', a' < a.toNat ∨ a.toNat + data.length ≤ a' → t.read a' = s.read a') ∧
      t.bus.store.wel = false ∧
      (a.toNat + data.length ≤ s.cfg.storeMaxAddr → t.bus.store.ptr.toNat = a.toNat + data.length) ∧
      t.bus.trace = s.bus.trace ++ writeWindow s.cfg a.toNat data ∧
      t.bus.displayLog = s.bus.displayLog ∧ t.bus.Quiet ∧
      t.ctrl = s.ctrl ∧ t.vcom = s.vcom ∧ SameHost s t ∧ NoResponse s t

/-- R70, D29, I14: an SB.WRITE inside the store that finds the write-enable latch clear has no meaning and is refused
by name. -/
def Obligations.LockedWriteIsRefused : Prop :=
  ∀ (s : State) (a : Addr) (data : List Byte), s.bus.store.wel = false →
    1 ≤ data.length → a.toNat + data.length - 1 ≤ s.cfg.storeMaxAddr →
    exec (.sbWrite a data) s = .refused .lockedWrite

/-- R67, R71, R117: an SB.READ or SB.WRITE whose last byte lies past `STORE_MAX_ADDR` raises `OutOfRange` before any
bus event: no byte moves, `CTRL = Failed`, `STATUS` 2, `RESULT` 0, and the rest stands. That a row run by itself
makes the bound check is the model's choice, notes/assumptions/17.md. -/
def Obligations.StoreRowsPastTheEndFail : Prop :=
  ∀ (s : State) (a : Addr) (n : Nat) (data : List Byte),
    (1 ≤ n → s.cfg.storeMaxAddr < a.toNat + n - 1 →
      exec (.sbRead a n) s =
        .next { s with
          ctrl := .failed
          status := .errOutOfRange
          result := false
          responses := s.responses ++ [0b100] }) ∧
    (1 ≤ data.length → s.cfg.storeMaxAddr < a.toNat + data.length - 1 →
      exec (.sbWrite a data) s =
        .next { s with
          ctrl := .failed
          status := .errOutOfRange
          result := false
          responses := s.responses ++ [0b100] })

/-- I15 of 93_implementation_defined.md (notes/assumptions/20.md): a transfer without a data byte is refused by name. -/
def Obligations.ZeroLengthTransfersAreRefused : Prop :=
  ∀ (s : State) (a : Addr),
    exec (.sbRead a 0) s = .refused .zeroLength ∧ exec (.sbWrite a []) s = .refused .zeroLength

/-- R59, R60, R26: a display frame run by itself puts its bytes on `DISPLAY_LOG`, the command byte first, and changes
nothing in the store or the core. DF.WRITE's are, for each row, `REVERSE(y + 1)`, the row's data bytes and `0x00`; with
another number of data bytes than `H` times `rowBytes` it is no DF row (I20) and is refused. Running a row by itself is
the model's choice (notes/assumptions/18.md). -/
def Obligations.DisplayFramesReachTheLog : Prop :=
  ∀ (s : State) (v : Bool) (data : List Byte) (marker write : Byte), s.bus.Quiet →
    (data.length = s.cfg.height * s.cfg.rowBytes →
      ∃ (t : State) (p : Nat → Byte) (frame : List Byte), exec (.dfWrite v data) s = .next t ∧
        frame = (s.cfg.cmdWrite ||| (if v then s.cfg.vcomMask else 0)) ::
          (List.range s.cfg.height).flatMap (fun y => reverse (BitVec.ofNat 8 (y + 1)) ::
            ((data.drop (y * s.cfg.rowBytes)).take s.cfg.rowBytes ++ [0x00])) ∧
        t.bus.displayLog = s.bus.displayLog ++ [frame] ∧
        t.bus.trace = s.bus.trace ++
          .dselUp :: frame.mapIdx (fun k b => BusEvent.byte (p k) (some b)) ++ [.dselDown] ∧
        t.bus.store = s.bus.store ∧ t.bus.Quiet ∧ t.ctrl = s.ctrl ∧ t.vcom = s.vcom ∧ SameHost s t ∧
        NoResponse s t) ∧
    (data.length ≠ s.cfg.height * s.cfg.rowBytes →
      exec (.dfWrite v data) s = .refused (.displayWindow .unknownFrameLength)) ∧
    (∃ (t : State) (p : Nat → Byte), exec (.dfClear v marker write) s = .next t ∧
      t.bus.displayLog = s.bus.displayLog ++
        [[s.cfg.cmdClear ||| (if v then s.cfg.vcomMask else 0), marker, write]] ∧
      t.bus.trace = s.bus.trace ++
        [.dselUp, .byte (p 0) (some (s.cfg.cmdClear ||| (if v then s.cfg.vcomMask else 0))),
          .byte (p 1) (some marker), .byte (p 2) (some write), .dselDown] ∧
      t.bus.store = s.bus.store ∧ t.bus.Quiet ∧ t.ctrl = s.ctrl ∧ t.vcom = s.vcom ∧ SameHost s t ∧
      NoResponse s t)

/-! ## Pure functions -/

/-- R81, R82: REVERSE mirrors the bit order, and is its own inverse. -/
def Obligations.ReverseMirrorsBits : Prop :=
  (∀ (b : Byte) (i : Nat), i < 8 → (reverse b).getLsbD i = b.getLsbD (7 - i)) ∧
  ∀ b : Byte, reverse (reverse b) = b

/-- R85: MUTATE clears natural bit `i` when the pixel is turned on and sets it when it is turned off, changes no other
bit, and is idempotent. -/
def Obligations.MutateDrivesOneNaturalBit : Prop :=
  ∀ (s : Byte) (i : Fin 8) (on : Bool),
    reverse (mutate s i on) =
      (if on then reverse s &&& ~~~(1#8 <<< i.val) else reverse s ||| (1#8 <<< i.val)) ∧
    (∀ j : Nat, j < 8 → j ≠ 7 - i.val → (mutate s i on).getLsbD j = s.getLsbD j) ∧
    mutate (mutate s i on) i on = mutate s i on

/-- R86: TEST is true exactly when the natural bit is 0, and its three laws. -/
def Obligations.TestIsNaturalBitClear : Prop :=
  ∀ (s : Byte) (i : Fin 8) (v : Bool),
    (testBit s i = true ↔ reverse s &&& (1#8 <<< i.val) = 0) ∧
    testBit (mutate s i v) i = v ∧
    (∀ j : Fin 8, j ≠ i → testBit (mutate s i v) j = testBit s j) ∧
    testBit 0xFF i = false

/-- R87: MUTATE and TEST without the two reversals, with `SMASK(i) = REVERSE(NATMASK(i)) = 0x80 >> i`. -/
def Obligations.MutateAndTestInStoredView : Prop :=
  ∀ (s : Byte) (i : Fin 8) (on : Bool),
    reverse (natMask i) = 0x80#8 >>> i.val ∧ storedMask i = 0x80#8 >>> i.val ∧
    mutate s i on = (if on then s &&& ~~~(storedMask i) else s ||| storedMask i) ∧
    (testBit s i = true ↔ s &&& storedMask i = 0)

/-- R77: the range of PIXADDR, that it is injective on in-bounds pixels, that bit `i` of data byte `k` of row `y` is the
image of the pixel `(8k + i, y)`, and that in a store the frame fits the bound check of a pixel access passes. -/
def Obligations.PixelAddressRangeAndInjectivity : Prop :=
  ∀ (c : Config), c.Valid →
    (∀ x y : Int, inBounds c x y = true →
      recAddr c y.toNat + 1 ≤ pixAddress c x y ∧ pixAddress c x y ≤ recAddr c y.toNat + c.rowBytes ∧
      4 ≤ pixAddress c x y ∧ pixAddress c x y ≤ frameEnd c - 1) ∧
    (∀ x y x' y' : Int, inBounds c x y = true → inBounds c x' y' = true →
      pixAddress c x y = pixAddress c x' y' → pixBit x = pixBit x' → x = x' ∧ y = y') ∧
    (∀ (k : Nat) (i : Fin 8) (y : Nat), y < c.height → 8 * k + i.val < c.width →
      inBounds c (8 * k + i.val : Nat) y = true ∧
      pixAddress c (8 * k + i.val : Nat) y = recAddr c y + 1 + k ∧ pixBit (8 * k + i.val : Nat) = i) ∧
    (∀ x y : Int, inBounds c x y = true → Fits c → boundOk c (pixAddress c x y) 1 = true)

/-- R88: LINENUM is the reversed 1-based row index, and decodes to it, for every row a frame can have. -/
def Obligations.LineNumbersDecodeToRowIndex : Prop :=
  ∀ y : Nat, y < 255 →
    lineNum y = reverse (BitVec.ofNat 8 (y + 1)) ∧ (reverse (lineNum y)).toNat = y + 1

/-- R78, R79: the slots and the record bases. -/
def Obligations.SlotAddresses : Prop :=
  ctrlSlot .clear = 0 ∧ ctrlSlot .marker = 1 ∧ ctrlSlot .write = 2 ∧ ctrlSlot .firstLine = 3 ∧
  ∀ (c : Config) (y : Nat), recAddr c y = 3 + y * ((c.width + 7) / 8 + 2)

/-! ## Properties over several commands -/

/-- R110 item 1 (conflict C6): after `SETPIXEL x, y, v`, `GETPIXEL x, y` returns `v`. -/
def Obligations.GetPixelAfterSetPixel : Prop :=
  ∀ (s : State) (x y : Coord) (v : Bool),
    s.cfg.Valid → s.bus.Quiet → s.ctrl = .ready → Fits s.cfg →
    inBounds s.cfg (coordinate x) (coordinate y) = true →
    ∃ t u, exec (.setPixel x y v) s = .next t ∧ exec (.getPixel x y) t = .next u ∧
      u.status = .ok ∧ u.result = v

/-- R110 item 2: SETPIXEL of one pixel leaves what GETPIXEL answers for every other coordinate. -/
def Obligations.SetPixelLeavesOtherPixels : Prop :=
  ∀ (s : State) (x y x' y' : Coord) (v : Bool),
    s.cfg.Valid → s.bus.Quiet → s.ctrl = .ready → Fits s.cfg →
    inBounds s.cfg (coordinate x) (coordinate y) = true → (x', y') ≠ (x, y) →
    ∃ t u r, exec (.setPixel x y v) s = .next t ∧ exec (.getPixel x' y') t = .next u ∧
      exec (.getPixel x' y') s = .next r ∧ u.status = .ok ∧ r.status = .ok ∧ u.result = r.result

/-- R110 item 5: after CLEAR, and after BEGIN, every GETPIXEL returns `false`. -/
def Obligations.EveryPixelOffAfterClearAndBegin : Prop :=
  ∀ (s : State) (x y : Coord),
    s.cfg.Valid → s.cfg.relayMode = .directLink → s.bus.Quiet → Fits s.cfg →
    (s.ctrl = .ready →
      ∃ t u, exec .clear s = .next t ∧ t.vcom = !s.vcom ∧ exec (.getPixel x y) t = .next u ∧
        u.status = .ok ∧ u.result = false) ∧
    (s.ctrl = .uninitialized →
      ∃ t u, exec .begin s = .next t ∧ exec (.getPixel x y) t = .next u ∧ u.status = .ok ∧ u.result = false)

/-- R110 item 7: two consecutive REFRESH commands emit command bytes with opposite VCOM bits. -/
def Obligations.ConsecutiveRefreshesAlternate : Prop :=
  ∀ s : State, s.cfg.Valid → s.cfg.relayMode = .directLink → s.bus.Quiet → s.ctrl = .ready → Fits s.cfg →
    ∃ t u frame frame', exec .refresh s = .next t ∧ exec .refresh t = .next u ∧
      u.bus.displayLog = s.bus.displayLog ++ [frame, frame'] ∧
      frame.head? = some (cmdByte s.cfg s.cfg.cmdWrite s.vcom) ∧
      frame'.head? = some (cmdByte s.cfg s.cfg.cmdWrite (!s.vcom)) ∧
      frame.tail = frame'.tail ∧ u.vcom = s.vcom

/-- R149: the byte-periods of each command on the bus. -/
def Obligations.BytePeriodCounts : Prop :=
  ∀ (s : State) (x y : Coord) (on : Bool),
    s.cfg.Valid → s.cfg.relayMode = .directLink → s.bus.Quiet → Fits s.cfg →
    (s.ctrl = .uninitialized → ∃ t, exec .begin s = .next t ∧
      bytePeriods t.bus.trace =
        bytePeriods s.bus.trace + ((1 + 6) + s.cfg.height * (1 + 3 + s.cfg.record))) ∧
    (s.ctrl = .ready → inBounds s.cfg (coordinate x) (coordinate y) = true →
      (∃ t, exec (.setPixel x y on) s = .next t ∧ bytePeriods t.bus.trace = bytePeriods s.bus.trace + 9) ∧
      (∃ t, exec (.getPixel x y) s = .next t ∧ bytePeriods t.bus.trace = bytePeriods s.bus.trace + 4)) ∧
    (s.ctrl = .ready →
      (∃ t, exec .refresh s = .next t ∧
        bytePeriods t.bus.trace = bytePeriods s.bus.trace + ((1 + 4) + 3 + s.cfg.frameSize + 1)) ∧
      (∃ t, exec .clear s = .next t ∧
        bytePeriods t.bus.trace =
          bytePeriods s.bus.trace + (s.cfg.height * (1 + 3 + s.cfg.record) + (1 + 4) + 3 + 3)))

/-! ## Whole-machine rules -/

/-- R16, R117: the transitions of `CTRL` under the host's inputs. `Uninitialized` is left by BEGIN, to `Ready` when the
frame fits the store and to `Failed` when it does not; no other command word changes `CTRL`; reset leads to
`Uninitialized`, also in the middle of a command (its form is the model's choice, notes/assumptions/12.md). And under
the windows no host makes, which the model runs by its own choice (notes/assumptions/1.md): a display window leaves
`CTRL`, and a store window leaves it or raises `OutOfRange` (notes/assumptions/17.md). -/
def Obligations.CtrlTransitions : Prop :=
  ∀ (s t : State) (i : Input) (rest : List Input),
    MachineInv s → s.inbox = i :: rest → step s = .next t →
    (∀ w, i = .packet (.command w) →
      t.ctrl =
        if s.ctrl = .uninitialized ∧ w &&& 0xFE00000000 = 0x1000000000 then
          if Fits s.cfg then .ready else .failed
        else s.ctrl) ∧
    (i = .reset ∨ (∃ w n midByte, i = .commandCut w n midByte) → t.ctrl = .uninitialized) ∧
    (∀ shifted, i = .packet (.displayWindow shifted) → t.ctrl = s.ctrl) ∧
    (∀ sent, i = .packet (.storeWindow sent) →
      t.ctrl = s.ctrl ∧ NoResponse s t ∨ t.ctrl = .failed ∧ t.status = .errOutOfRange)

/-- R106, R108, R109, R136, R138: the VCOM state machine. A CLEAR or a REFRESH in `Ready` toggles the bit, and the
command byte it sends first to the display carries the value from before; every other command word, the refused ones
too, leaves it and sends nothing; reset sets `VCOM_INIT`, also in the middle of a command (its form is the model's
choice, notes/assumptions/12.md). -/
def Obligations.VcomStateMachine : Prop :=
  ∀ (s t : State) (i : Input) (rest : List Input),
    MachineInv s → s.inbox = i :: rest → step s = .next t →
    (∀ w, i = .packet (.command w) →
      (∀ template, (w &&& 0xFE00000000 = 0x4000000000 ∧ template = s.cfg.cmdClear) ∨
          (w &&& 0xFE00000000 = 0x5000000000 ∧ template = s.cfg.cmdWrite) → s.ctrl = .ready →
        t.vcom = !s.vcom ∧ ∃ frame, t.bus.displayLog = s.bus.displayLog ++ [frame] ∧
          frame.head? = some (cmdByte s.cfg template s.vcom)) ∧
      (¬ (s.ctrl = .ready ∧
          (w &&& 0xFE00000000 = 0x4000000000 ∨ w &&& 0xFE00000000 = 0x5000000000)) →
        t.vcom = s.vcom ∧ t.bus.displayLog = s.bus.displayLog)) ∧
    (i = .reset ∨ (∃ w n midByte, i = .commandCut w n midByte) → t.vcom = s.cfg.vcomInit)

/-- R117, R125: `Failed` is left by reset only. In it every command word is refused with nothing but the response
changed. -/
def Obligations.FailedIsTerminal : Prop :=
  ∀ (s : State) (w : CommandWord) (rest : List Input),
    s.cfg.Valid → s.cfg.relayMode = .directLink → s.ctrl = .failed →
    s.inbox = .packet (.command w) :: rest →
    ∃ t, step s = .next t ∧ t.ctrl = .failed ∧ t.bus = s.bus ∧ t.vcom = s.vcom ∧ t.cfg = s.cfg ∧
      t.inbox = rest ∧ t.result = false ∧ (t.status = .errState ∨ t.status = .errIllegal)

/-- R12, R57, R69: whatever an instruction does to the store and the display, it does by the events it appends to the
trace: the bus after it is what the devices make of those events. -/
def Obligations.TraceExplainsTheDevices : Prop :=
  ∀ (i : Instr) (s t : State), exec i s = .next t → s.bus.Follows s.cfg t.bus

/-- R98, R117, R120, R121: from a state of the invariant no input of the host stops the machine, and `OutOfRange` comes
from a BEGIN in `Uninitialized` whose frame does not fit the store, and from nothing else. -/
def Obligations.HostInputsNeverStop : Prop :=
  ∀ s : State, s.cfg.Valid → s.cfg.relayMode = .directLink → MachineInv s →
    (∀ i ∈ s.inbox, i.fromHost = true) →
    ∃ t, step s = .next t ∧
      (t.status = .errOutOfRange → s.inbox ≠ [] →
        s.ctrl = .uninitialized ∧ ¬ Fits s.cfg ∧ ∃ w rest, s.inbox = .packet (.command w) :: rest ∧
          w &&& 0xFE00000000 = 0x1000000000)

/-! ## Invariants -/

/-- Reset has the invariant, in every configuration. -/
def Obligations.ResetHasMachineInv : Prop :=
  ∀ c : Config, MachineInv (State.resetOf c) ∧ LayoutInv (State.resetOf c) ∧ VcomInv (State.resetOf c)

/-- R22, R30, R98: every step keeps memory in canonical form and inside the address space, the bus quiet between
commands, and `Ready` only with a frame that fits the store. -/
def Obligations.StepKeepsMachineInv : Prop :=
  ∀ s t : State, MachineInv s → step s = .next t → MachineInv t

/-- R33, R34, R36, R77: with host inputs pending, every step keeps the persisted layout: in `Ready` every record has
its line number, its trailer and its padding bits. -/
def Obligations.HostStepKeepsLayout : Prop :=
  ∀ s t : State, MachineInv s → (∀ i ∈ s.inbox, i.fromHost = true) → LayoutInv s → step s = .next t → LayoutInv t

/-- R107: with host inputs pending, every step keeps the alternation of the VCOM bit over the frames received since
reset, across CLEAR and REFRESH alike. -/
def Obligations.HostStepKeepsVcomAlternation : Prop :=
  ∀ s t : State, MachineInv s → (∀ i ∈ s.inbox, i.fromHost = true) → VcomInv s → step s = .next t → VcomInv t

/-! ## Further cases -/

/-- R101 (exceptions), R71, R117: BEGIN in a store without room for the header. `OutOfRange` before any bus event:
`CTRL = Failed`, `STATUS` 2, `RESULT` 0, and everything else as it was. R9 item 9 refuses such a configuration, and
`step` does (notes/assumptions/15.md); this says what the command does. -/
def Obligations.BeginWithoutRoomForTheHeader : Prop :=
  ∀ s : State, s.ctrl = .uninitialized → s.cfg.storeMaxAddr < 2 →
    exec .begin s = .next { s with
      ctrl := .failed
      status := .errOutOfRange
      result := false
      responses := s.responses ++ [0b100] }

/-- R59, R60: a display window decodes only if it is, byte for byte, a frame of format DF: the encoding of a well-formed
row. A wrong line number, a trailer other than `0x00`, another command byte or another length is rejected. -/
def Obligations.DisplayDecodingIsExact : Prop :=
  ∀ (c : Config) (frame : List Byte) (i : Instr), c.Valid → decodeDF c frame = .ok i →
    encode c i = .displayWindow frame ∧ i.wellFormed c = true

/-- R138: a BEGIN, CLEAR or REFRESH that reset cuts after `n` bus events leaves in the store what the completed
byte-periods of its writes put there, in their order, and nothing else; the one byte whose byte-period was cut is free.
The form of the cut input is the model's choice, notes/assumptions/12.md. -/
def Obligations.CutCommandLeavesAPrefixOfItsWrites : Prop :=
  ∀ (s : State) (rest : List Input) (w : CommandWord) (n : Nat) (midByte : Bool) (calls : List (Nat × List Byte)),
    s.cfg.Valid → s.cfg.relayMode = .directLink → MachineInv s → s.inbox = .commandCut w n midByte :: rest →
    (decodeHC w = .ok .begin ∧ s.ctrl = .uninitialized ∧ calls = beginCalls s.cfg) ∨
      (decodeHC w = .ok .clear ∧ s.ctrl = .ready ∧ calls = clearCalls s.cfg s.vcom) ∨
      (decodeHC w = .ok .refresh ∧ s.ctrl = .ready ∧ calls = refreshCalls s.cfg s.vcom) →
    ∃ t, step s = .next t ∧
      ∀ a, midByte = false ∨ cutAddress calls n ≠ some a → t.read a = (cutMemory calls n s.bus.store.mem).read a
end

