-- ==== Sys2Proof/Laws/Memory.lean ====
section
/-! SUPPORT. The laws of memory: read after write, and every operation keeps the canonical form. -/

namespace Sys2Proof.Machine

namespace Memory

@[simp] theorem read_nil (a : Nat) : read [] a = unlisted := rfl

theorem read_cons (k : Nat) (v : Byte) (m : Memory) (a : Nat) :
    read ((k, v) :: m) a = if k = a then v else read m a := rfl

theorem read_insert (m : Memory) (a : Nat) (v : Byte) (a' : Nat) :
    (insert m a v).read a' = if a' = a then v else m.read a' := by
  induction m with
  | nil => simp only [insert, read_cons, read_nil]; grind
  | cons cell m ih =>
    obtain ⟨k, w⟩ := cell
    simp only [insert]
    split
    · simp only [read_cons]; grind
    · split
      · simp only [read_cons]; grind
      · simp only [read_cons, ih]; grind

theorem read_erase (m : Memory) (a a' : Nat) :
    (erase m a).read a' = if a' = a then unlisted else m.read a' := by
  induction m with
  | nil => simp [erase]
  | cons cell m ih =>
    obtain ⟨k, w⟩ := cell
    simp only [erase] at ih ⊢
    by_cases h : k = a
    · subst h; simp only [List.filter_cons, ne_eq, not_true_eq_false, decide_false, read_cons]
      grind
    · simp only [List.filter_cons, ne_eq, h, not_false_eq_true, decide_true, if_true, read_cons, ih]
      grind

/-- Read after write, at every address. -/
theorem read_write (m : Memory) (a : Nat) (v : Byte) (a' : Nat) :
    (m.write a v).read a' = if a' = a then v else m.read a' := by
  unfold write
  split
  · next h => subst h; exact read_erase m a a'
  · exact read_insert m a v a'

@[simp] theorem read_write_same (m : Memory) (a : Nat) (v : Byte) : (m.write a v).read a = v := by
  simp [read_write]

theorem read_write_other (m : Memory) (a : Nat) (v : Byte) {a' : Nat} (h : a' ≠ a) :
    (m.write a v).read a' = m.read a' := by
  simp [read_write, h]

/-- What a run of written bytes reads as. -/
theorem read_writeBytes (m : Memory) (a : Nat) (data : List Byte) (a' : Nat) :
    (m.writeBytes a data).read a' =
      if h : a ≤ a' ∧ a' - a < data.length then data[a' - a]'h.2 else m.read a' := by
  induction data generalizing m a with
  | nil => simp [writeBytes]
  | cons v data ih =>
    rw [writeBytes, ih]
    by_cases h1 : a' = a
    · subst h1
      rw [dif_neg (by omega), dif_pos (by simp), read_write_same]
      simp
    · by_cases h2 : a + 1 ≤ a' ∧ a' - (a + 1) < data.length
      · rw [dif_pos h2, dif_pos (by simp only [List.length_cons]; omega)]
        have : a' - a = a' - (a + 1) + 1 := by omega
        simp [this]
      · rw [dif_neg h2, dif_neg (by simp only [List.length_cons]; omega), read_write_other _ _ _ h1]

theorem read_writeBytes_outside (m : Memory) (a : Nat) (data : List Byte) {a' : Nat}
    (h : a' < a ∨ a + data.length ≤ a') : (m.writeBytes a data).read a' = m.read a' := by
  rw [read_writeBytes, dif_neg (by omega)]

theorem read_writeBytes_at (m : Memory) (a : Nat) (data : List Byte) (k : Nat) (h : k < data.length) :
    (m.writeBytes a data).read (a + k) = data[k] := by
  rw [read_writeBytes, dif_pos (by omega)]
  simp

@[simp] theorem writeBytes_single (m : Memory) (a : Nat) (v : Byte) : m.writeBytes a [v] = m.write a v := rfl

/-! ## The canonical form -/

theorem mem_insert {m : Memory} {a : Nat} {v : Byte} {cell : Host.Cell} (h : cell ∈ m.insert a v) :
    cell = (a, v) ∨ cell ∈ m := by
  induction m with
  | nil => simpa [insert] using h
  | cons head m ih =>
    obtain ⟨k, w⟩ := head
    simp only [insert] at h
    split at h
    · simpa using h
    · split at h
      · grind
      · simp only [List.mem_cons] at h ⊢
        rcases h with h | h
        · exact Or.inr (Or.inl h)
        · rcases ih h with h | h
          · exact Or.inl h
          · exact Or.inr (Or.inr h)

theorem pairwise_insert {m : Memory} (a : Nat) (v : Byte) (h : m.Pairwise (fun p q => p.1 < q.1)) :
    (m.insert a v).Pairwise (fun p q => p.1 < q.1) := by
  induction m with
  | nil => simp [insert]
  | cons head m ih =>
    obtain ⟨k, w⟩ := head
    obtain ⟨hk, hm⟩ := List.pairwise_cons.mp h
    simp only [insert]
    split
    · next hak =>
      refine List.pairwise_cons.mpr ⟨?_, h⟩
      intro cell hc
      rcases List.mem_cons.mp hc with rfl | hc
      · exact hak
      · have := hk cell hc; simp only at this; omega
    · split
      · next hak => subst hak; exact List.pairwise_cons.mpr ⟨hk, hm⟩
      · next h1 h2 =>
        refine List.pairwise_cons.mpr ⟨?_, ih hm⟩
        intro cell hc
        rcases mem_insert hc with rfl | hc
        · simp only; omega
        · exact hk cell hc

/-- Every write keeps the canonical form. -/
theorem wf_write {m : Memory} (h : m.wf) (a : Nat) (v : Byte) : (m.write a v).wf := by
  unfold write
  split
  · exact ⟨h.1.sublist List.filter_sublist, fun cell hc => h.2 cell (List.mem_filter.mp hc).1⟩
  · next hv =>
    refine ⟨pairwise_insert a v h.1, fun cell hc => ?_⟩
    rcases mem_insert hc with rfl | hc
    · exact hv
    · exact h.2 cell hc

theorem wf_writeBytes {m : Memory} (h : m.wf) (a : Nat) (data : List Byte) : (m.writeBytes a data).wf := by
  induction data generalizing m a with
  | nil => exact h
  | cons v data ih => exact ih (wf_write h a v) (a + 1)

theorem mem_write {m : Memory} {a : Nat} {v : Byte} {cell : Host.Cell} (h : cell ∈ m.write a v) :
    cell = (a, v) ∨ cell ∈ m := by
  unfold write at h
  split at h
  · exact Or.inr (List.mem_filter.mp h).1
  · exact mem_insert h

/-- No listed address lies above `limit`. -/
theorem below_write {m : Memory} {limit : Nat} (h : ∀ cell ∈ m, cell.1 ≤ limit) {a : Nat} (ha : a ≤ limit)
    (v : Byte) : ∀ cell ∈ m.write a v, cell.1 ≤ limit := by
  intro cell hc
  rcases mem_write hc with rfl | hc
  · exact ha
  · exact h cell hc

end Memory

end Sys2Proof.Machine
end

