-- ==== Sys2Proof/Laws/State.lean ====
section
/-! SUPPORT. One lemma per field per update of the state and of the bus, so that no later proof unfolds a record
update. -/

namespace Sys2Proof.Machine

section
variable (s : State) (st : Status) (r : Bool) (e : OutOfRange)

@[simp] theorem respond_cfg : (s.respond st r).cfg = s.cfg := rfl
@[simp] theorem respond_ctrl : (s.respond st r).ctrl = s.ctrl := rfl
@[simp] theorem respond_vcom : (s.respond st r).vcom = s.vcom := rfl
@[simp] theorem respond_status : (s.respond st r).status = st := rfl
@[simp] theorem respond_result : (s.respond st r).result = r := rfl
@[simp] theorem respond_bus : (s.respond st r).bus = s.bus := rfl
@[simp] theorem respond_inbox : (s.respond st r).inbox = s.inbox := rfl
@[simp] theorem respond_responses : (s.respond st r).responses = s.responses ++ [response st r] := rfl
@[simp] theorem respond_read (a : Nat) : (s.respond st r).read a = s.read a := rfl

@[simp] theorem toggleVcom_cfg : s.toggleVcom.cfg = s.cfg := rfl
@[simp] theorem toggleVcom_ctrl : s.toggleVcom.ctrl = s.ctrl := rfl
@[simp] theorem toggleVcom_vcom : s.toggleVcom.vcom = !s.vcom := rfl
@[simp] theorem toggleVcom_status : s.toggleVcom.status = s.status := rfl
@[simp] theorem toggleVcom_result : s.toggleVcom.result = s.result := rfl
@[simp] theorem toggleVcom_bus : s.toggleVcom.bus = s.bus := rfl
@[simp] theorem toggleVcom_inbox : s.toggleVcom.inbox = s.inbox := rfl
@[simp] theorem toggleVcom_responses : s.toggleVcom.responses = s.responses := rfl

@[simp] theorem raiseOutOfRange_cfg : (s.raiseOutOfRange e).cfg = s.cfg := rfl
@[simp] theorem raiseOutOfRange_ctrl : (s.raiseOutOfRange e).ctrl = .failed := rfl
@[simp] theorem raiseOutOfRange_vcom : (s.raiseOutOfRange e).vcom = s.vcom := rfl
@[simp] theorem raiseOutOfRange_status : (s.raiseOutOfRange e).status = .errOutOfRange := rfl
@[simp] theorem raiseOutOfRange_result : (s.raiseOutOfRange e).result = false := rfl
@[simp] theorem raiseOutOfRange_bus : (s.raiseOutOfRange e).bus = e.bus := rfl
@[simp] theorem raiseOutOfRange_inbox : (s.raiseOutOfRange e).inbox = s.inbox := rfl
@[simp] theorem raiseOutOfRange_responses :
    (s.raiseOutOfRange e).responses = s.responses ++ [response .errOutOfRange false] := rfl

@[simp] theorem refuseState_cfg : s.refuseState.cfg = s.cfg := rfl
@[simp] theorem refuseState_ctrl : s.refuseState.ctrl = s.ctrl := rfl
@[simp] theorem refuseState_vcom : s.refuseState.vcom = s.vcom := rfl
@[simp] theorem refuseState_status : s.refuseState.status = .errState := rfl
@[simp] theorem refuseState_result : s.refuseState.result = false := rfl
@[simp] theorem refuseState_bus : s.refuseState.bus = s.bus := rfl
@[simp] theorem refuseState_inbox : s.refuseState.inbox = s.inbox := rfl
@[simp] theorem refuseState_responses :
    s.refuseState.responses = s.responses ++ [response .errState false] := rfl

@[simp] theorem refuseIllegal_cfg : s.refuseIllegal.cfg = s.cfg := rfl
@[simp] theorem refuseIllegal_ctrl : s.refuseIllegal.ctrl = s.ctrl := rfl
@[simp] theorem refuseIllegal_vcom : s.refuseIllegal.vcom = s.vcom := rfl
@[simp] theorem refuseIllegal_status : s.refuseIllegal.status = .errIllegal := rfl
@[simp] theorem refuseIllegal_result : s.refuseIllegal.result = false := rfl
@[simp] theorem refuseIllegal_bus : s.refuseIllegal.bus = s.bus := rfl
@[simp] theorem refuseIllegal_inbox : s.refuseIllegal.inbox = s.inbox := rfl
@[simp] theorem refuseIllegal_responses :
    s.refuseIllegal.responses = s.responses ++ [response .errIllegal false] := rfl

@[simp] theorem assertReset_cfg : s.assertReset.cfg = s.cfg := rfl
@[simp] theorem assertReset_ctrl : s.assertReset.ctrl = .uninitialized := rfl
@[simp] theorem assertReset_vcom : s.assertReset.vcom = s.cfg.vcomInit := rfl
@[simp] theorem assertReset_status : s.assertReset.status = .ok := rfl
@[simp] theorem assertReset_result : s.assertReset.result = false := rfl
@[simp] theorem assertReset_bus : s.assertReset.bus = s.bus.assertReset s.cfg := rfl
@[simp] theorem assertReset_inbox : s.assertReset.inbox = s.inbox := rfl
@[simp] theorem assertReset_responses : s.assertReset.responses = s.responses := rfl

end

section
variable (c : Config) (b : Bus) (e : BusEvent)

@[simp] theorem emit_ssel : (b.emit c e).ssel = e.ssel b.ssel := rfl
@[simp] theorem emit_dsel : (b.emit c e).dsel = e.dsel b.dsel := rfl
@[simp] theorem emit_store : (b.emit c e).store = b.store.react c b.ssel b.draws e := rfl
@[simp] theorem emit_shiftIn : (b.emit c e).shiftIn = e.shiftIn b.dsel b.draws b.shiftIn := rfl
@[simp] theorem emit_displayLog : (b.emit c e).displayLog = e.displayLog b.shiftIn b.displayLog := rfl
@[simp] theorem emit_trace : (b.emit c e).trace = b.trace ++ [e] := rfl
@[simp] theorem emit_draws : (b.emit c e).draws = b.draws + 1 := rfl

@[simp] theorem ssel_sselUp (x : Bool) : BusEvent.ssel .sselUp x = true := rfl
@[simp] theorem ssel_sselDown (x : Bool) : BusEvent.ssel .sselDown x = false := rfl
@[simp] theorem ssel_dselUp (x : Bool) : BusEvent.ssel .dselUp x = x := rfl
@[simp] theorem ssel_dselDown (x : Bool) : BusEvent.ssel .dselDown x = x := rfl
@[simp] theorem ssel_byte (o : Byte) (i : Option Byte) (x : Bool) : (BusEvent.byte o i).ssel x = x := rfl
@[simp] theorem dsel_sselUp (x : Bool) : BusEvent.dsel .sselUp x = x := rfl
@[simp] theorem dsel_sselDown (x : Bool) : BusEvent.dsel .sselDown x = x := rfl
@[simp] theorem dsel_dselUp (x : Bool) : BusEvent.dsel .dselUp x = true := rfl
@[simp] theorem dsel_dselDown (x : Bool) : BusEvent.dsel .dselDown x = false := rfl
@[simp] theorem dsel_byte (o : Byte) (i : Option Byte) (x : Bool) : (BusEvent.byte o i).dsel x = x := rfl
@[simp] theorem shiftIn_sselUp (d : Bool) (n : Nat) (l : List Byte) : BusEvent.shiftIn .sselUp d n l = l := rfl
@[simp] theorem shiftIn_sselDown (d : Bool) (n : Nat) (l : List Byte) : BusEvent.shiftIn .sselDown d n l = l := rfl
@[simp] theorem shiftIn_dselUp (d : Bool) (n : Nat) (l : List Byte) : BusEvent.shiftIn .dselUp d n l = [] := rfl
@[simp] theorem shiftIn_dselDown (d : Bool) (n : Nat) (l : List Byte) : BusEvent.shiftIn .dselDown d n l = [] := rfl
@[simp] theorem shiftIn_byte_deselected (o : Byte) (i : Option Byte) (n : Nat) (l : List Byte) :
    (BusEvent.byte o i).shiftIn false n l = l := rfl
@[simp] theorem shiftIn_byte_selected (o v : Byte) (n : Nat) (l : List Byte) :
    (BusEvent.byte o (some v)).shiftIn true n l = l ++ [v] := rfl
@[simp] theorem displayLog_sselUp (f : List Byte) (l : List (List Byte)) : BusEvent.displayLog .sselUp f l = l := rfl
@[simp] theorem displayLog_sselDown (f : List Byte) (l : List (List Byte)) : BusEvent.displayLog .sselDown f l = l := rfl
@[simp] theorem displayLog_dselUp (f : List Byte) (l : List (List Byte)) : BusEvent.displayLog .dselUp f l = l := rfl
@[simp] theorem displayLog_dselDown (f : List Byte) (l : List (List Byte)) :
    BusEvent.displayLog .dselDown f l = l ++ [f] := rfl
@[simp] theorem displayLog_byte (o : Byte) (i : Option Byte) (f : List Byte) (l : List (List Byte)) :
    (BusEvent.byte o i).displayLog f l = l := rfl

end

section
variable (c : Config) (x : Bool) (n : Nat) (st : Store)

@[simp] theorem react_sselUp : st.react c x n .sselUp = st.select := rfl
@[simp] theorem react_sselDown : st.react c x n .sselDown = st.deselect c := rfl
@[simp] theorem react_dselUp : st.react c x n .dselUp = st := rfl
@[simp] theorem react_dselDown : st.react c x n .dselDown = st := rfl
@[simp] theorem react_byte_selected (o : Byte) (i : Option Byte) :
    st.react c true n (.byte o i) = st.clock c n o := rfl
@[simp] theorem react_byte_deselected (o : Byte) (i : Option Byte) :
    st.react c false n (.byte o i) = st := rfl
@[simp] theorem deselect_mem : (st.deselect c).mem = st.mem := rfl
@[simp] theorem deselect_ptr : (st.deselect c).ptr = st.ptr := rfl
@[simp] theorem deselect_mode : (st.deselect c).mode = .idle := rfl
@[simp] theorem deselect_header : (st.deselect c).header = [] := rfl
@[simp] theorem select_mem : st.select.mem = st.mem := rfl
@[simp] theorem select_wel : st.select.wel = st.wel := rfl
@[simp] theorem select_mode : st.select.mode = .idle := rfl
@[simp] theorem select_header : st.select.header = [] := rfl

end

end Sys2Proof.Machine
end

