-- ==== Sys2Proof/Laws/Bus.lean ====
section
/-! SUPPORT. What each bus operation does, said once: the three store transactions and the relay as one update of
the bus, with the events of spec/30_encoding.md R57 and spec/43_relay_bridge.md R89. -/

namespace Sys2Proof.Machine

theorem addrOf_high_low (a : Addr) : addrOf (addrHigh a) (addrLow a) = a := by
  simp only [addrOf, addrHigh, addrLow]
  exact BitVec.extractLsb'_append_extractLsb'_eq_extractLsb' (by decide) |>.trans (by simp)

theorem toNat_ofNat_addr {a : Nat} (h : a ≤ 0xFFFF) : (BitVec.ofNat 16 a).toNat = a := by
  rw [BitVec.toNat_ofNat]; omega

/-! ## The header -/

theorem sendHeader_read {c : Config} {b : Bus} (hs : b.ssel = true) (hd : b.dsel = false)
    (hm : b.store.mode = .idle) (hh : b.store.header = []) (a : Nat) :
    b.sendHeader c c.opRead a =
      { b with
        store :=
          { b.store with
            header := [c.opRead, addrHigh (BitVec.ofNat 16 a), addrLow (BitVec.ofNat 16 a)]
            ptr := BitVec.ofNat 16 a
            mode := .reading }
        trace := b.trace ++ headerEvents c.opRead a
        draws := b.draws + 3 } := by
  obtain ⟨ssel, dsel, ⟨mem, wel, ptr, mode, header⟩, shiftIn, log, trace, draws⟩ := b
  simp only at hs hd hm hh
  subst hs hd hm hh
  simp [Bus.sendHeader, Bus.sendAll, Bus.send, Bus.emit, Store.driven, BusEvent.ssel, BusEvent.dsel,
    BusEvent.shiftIn, BusEvent.displayLog, Store.react, Store.clock, Store.receiveHeader, headerEvents,
    addrOf_high_low]

theorem sendHeader_write {c : Config} (hop : c.opRead ≠ c.opWrite) {b : Bus} (hs : b.ssel = true)
    (hd : b.dsel = false) (hm : b.store.mode = .idle) (hh : b.store.header = []) (a : Nat) :
    b.sendHeader c c.opWrite a =
      { b with
        store :=
          { b.store with
            header := [c.opWrite, addrHigh (BitVec.ofNat 16 a), addrLow (BitVec.ofNat 16 a)]
            ptr := BitVec.ofNat 16 a
            mode := .writing }
        trace := b.trace ++ headerEvents c.opWrite a
        draws := b.draws + 3 } := by
  obtain ⟨ssel, dsel, ⟨mem, wel, ptr, mode, header⟩, shiftIn, log, trace, draws⟩ := b
  simp only at hs hd hm hh
  subst hs hd hm hh
  simp [Bus.sendHeader, Bus.sendAll, Bus.send, Bus.emit, Store.driven, BusEvent.ssel, BusEvent.dsel,
    BusEvent.shiftIn, BusEvent.displayLog, Store.react, Store.clock, Store.receiveHeader, headerEvents,
    addrOf_high_low, hop.symm]

/-! ## The data byte-periods -/

theorem advance_eq (c : Config) (n : Nat) (st : Store) :
    ∃ q, st.advance c n = { st with ptr := q } ∧
      (st.ptr.toNat < c.storeMaxAddr → c.storeMaxAddr ≤ 0xFFFF → q.toNat = st.ptr.toNat + 1) := by
  refine ⟨_, rfl, fun h hmax => ?_⟩
  rw [if_pos h, BitVec.toNat_add]
  simp
  omega

theorem dataEvents_succ (m : Memory) (a n : Nat) (p : Nat → Byte) :
    dataEvents m a (n + 1) p =
      .byte (p 0) (some (m.read a)) :: dataEvents m (a + 1) n (fun k => p (k + 1)) := by
  simp only [dataEvents, List.range_succ_eq_map, List.map_cons, List.map_map, Nat.add_zero]
  congr 1
  apply List.map_congr_left
  intro k _
  simp only [Function.comp_apply, Nat.succ_eq_add_one]
  rw [show a + (k + 1) = a + 1 + k by omega]

theorem readBytes_succ (m : Memory) (a n : Nat) :
    m.readBytes a (n + 1) = m.read a :: m.readBytes (a + 1) n := by
  simp only [Memory.readBytes, List.range_succ_eq_map, List.map_cons, List.map_map, Nat.add_zero]
  congr 1
  apply List.map_congr_left
  intro k _
  simp only [Function.comp_apply, Nat.succ_eq_add_one]
  rw [show a + (k + 1) = a + 1 + k by omega]

theorem send_reading {c : Config} {b : Bus} (hs : b.ssel = true) (hm : b.store.mode = .reading) (o : Byte) :
    b.send c o =
      { b with
        store := b.store.advance c b.draws
        shiftIn := if b.dsel then b.shiftIn ++ [b.store.mem.read b.store.ptr.toNat] else b.shiftIn
        trace := b.trace ++ [.byte o (some (b.store.mem.read b.store.ptr.toNat))]
        draws := b.draws + 1 } := by
  obtain ⟨ssel, dsel, ⟨mem, wel, ptr, mode, header⟩, shiftIn, log, trace, draws⟩ := b
  simp only at hs hm
  subst hs hm
  simp [Bus.send, Bus.emit, Store.driven, BusEvent.ssel, BusEvent.dsel, BusEvent.shiftIn, BusEvent.displayLog,
    Store.react, Store.clock]

/-- Pumping the clock of a reading store moves the bytes from the pointer on to the core's data input, and into
the display when it is selected. -/
theorem pump_reading {c : Config} (hmax : c.storeMaxAddr ≤ 0xFFFF) (n : Nat) :
    ∀ {b : Bus} {a : Nat}, b.ssel = true → b.store.mode = .reading → b.store.ptr.toNat = a →
      a + n ≤ c.storeMaxAddr + 1 →
      ∃ q, b.pump c n =
        { b with
          store := { b.store with ptr := q }
          shiftIn := if b.dsel then b.shiftIn ++ b.store.mem.readBytes a n else b.shiftIn
          trace := b.trace ++ dataEvents b.store.mem a n (fun k => Config.placeholder (b.draws + k))
          draws := b.draws + n } ∧
        (a + n ≤ c.storeMaxAddr → q.toNat = a + n) := by
  induction n with
  | zero =>
    intro b a hs hm hp _
    refine ⟨b.store.ptr, ?_, fun _ => hp⟩
    simp [Bus.pump, dataEvents, Memory.readBytes]
  | succ n ih =>
    intro b a hs hm hp hn
    obtain ⟨q, hq, hq'⟩ := advance_eq c b.draws b.store
    rw [Bus.pump, send_reading hs hm, hp]
    have hevents : (fun k => Config.placeholder (b.draws + (k + 1))) = fun k => Config.placeholder (b.draws + 1 + k) := by
      funext k; rw [show b.draws + (k + 1) = b.draws + 1 + k by omega]
    cases n with
    | zero =>
      refine ⟨q, ?_, fun h => by rw [hq' (by omega) hmax, hp]⟩
      simp [Bus.pump, dataEvents, Memory.readBytes, hq]
    | succ n =>
      have hq'' := hq' (by omega) hmax
      obtain ⟨r, hr, hr'⟩ := ih (b :=
        { b with
          store := b.store.advance c b.draws
          shiftIn := if b.dsel then b.shiftIn ++ [b.store.mem.read a] else b.shiftIn
          trace := b.trace ++ [.byte (Config.placeholder b.draws) (some (b.store.mem.read a))]
          draws := b.draws + 1 }) (a := a + 1) hs (by rw [hq]; exact hm) (by rw [hq]; simp only; omega) (by omega)
      refine ⟨r, ?_, fun h => by rw [hr' (by omega)]; omega⟩
      rw [hr, dataEvents_succ b.store.mem a (n + 1), readBytes_succ b.store.mem a (n + 1), hq]
      simp only [hevents]
      cases b.dsel <;> simp <;> omega

theorem send_writing {c : Config} {b : Bus} (hs : b.ssel = true) (hd : b.dsel = false)
    (hm : b.store.mode = .writing) (o : Byte) :
    b.send c o =
      { b with
        store := (b.store.accept c b.draws o).advance c b.draws
        trace := b.trace ++ [.byte o none]
        draws := b.draws + 1 } := by
  obtain ⟨ssel, dsel, ⟨mem, wel, ptr, mode, header⟩, shiftIn, log, trace, draws⟩ := b
  simp only at hs hd hm
  subst hs hd hm
  simp [Bus.send, Bus.emit, Store.driven, BusEvent.ssel, BusEvent.dsel, BusEvent.shiftIn, BusEvent.displayLog,
    Store.react, Store.clock]

theorem accept_eq {c : Config} {st : Store} (hw : st.wel = true) (h : st.ptr.toNat ≤ c.storeMaxAddr) (n : Nat)
    (v : Byte) : st.accept c n v = { st with mem := st.mem.write st.ptr.toNat v } := by
  rw [Store.accept, if_pos h, hw, if_pos rfl]

/-- The data bytes of a write whose latch is set go to rising addresses, and nowhere else. -/
theorem sendAll_writing {c : Config} (hmax : c.storeMaxAddr ≤ 0xFFFF) (data : List Byte) :
    ∀ {b : Bus} {a : Nat}, b.ssel = true → b.dsel = false → b.store.mode = .writing → b.store.wel = true →
      b.store.ptr.toNat = a → a + data.length ≤ c.storeMaxAddr + 1 →
      ∃ q, b.sendAll c data =
        { b with
          store :=
            { b.store with
              mem := b.store.mem.writeBytes a data
              ptr := q }
          trace := b.trace ++ data.map (fun v => BusEvent.byte v none)
          draws := b.draws + data.length } ∧
        (a + data.length ≤ c.storeMaxAddr → q.toNat = a + data.length) := by
  induction data with
  | nil =>
    intro b a hs hd hm hw hp _
    refine ⟨b.store.ptr, ?_, fun _ => hp⟩
    simp [Bus.sendAll, Memory.writeBytes]
  | cons v data ih =>
    intro b a hs hd hm hw hp hn
    simp only [List.length_cons] at hn
    have hstep : b.sendAll c (v :: data) = (b.send c v).sendAll c data := rfl
    rw [hstep, send_writing hs hd hm, accept_eq hw (by omega), hp]
    obtain ⟨q, hq, hq'⟩ := advance_eq c b.draws { b.store with mem := b.store.mem.write a v }
    simp only [hp] at hq'
    cases data with
    | nil =>
      refine ⟨q, ?_, fun h => by rw [hq' (by simp at h; omega) hmax]; simp⟩
      simp [Bus.sendAll, hq]
    | cons w data =>
      simp only [List.length_cons] at hn
      have hq'' := hq' (by omega) hmax
      rw [hq]
      obtain ⟨r, hr, hr'⟩ := ih (b :=
        { b with
          store :=
            { b.store with
              mem := b.store.mem.write a v
              ptr := q }
          trace := b.trace ++ [.byte v none]
          draws := b.draws + 1 }) (a := a + 1) hs hd hm hw hq'' (by simp only [List.length_cons]; omega)
      refine ⟨r, ?_, fun h => by
        rw [hr' (by simp only [List.length_cons] at h ⊢; omega)]; simp only [List.length_cons]; omega⟩
      rw [hr]
      simp [Memory.writeBytes]
      omega

/-! ## The transactions -/

/-- `SB.READ` (R57, R69): the store's content and its latch are untouched. -/
theorem readTransaction_eq {c : Config} (hmax : c.storeMaxAddr ≤ 0xFFFF) {b : Bus} (hd : b.dsel = false)
    {a n : Nat} (ha : a ≤ c.storeMaxAddr) (hn : a + n ≤ c.storeMaxAddr + 1) :
    ∃ q, b.readTransaction c a n =
      { b with
        ssel := false
        store := { b.store with ptr := q, mode := .idle, header := [] }
        trace := b.trace ++ readWindow c b.store.mem a n (fun k => Config.placeholder (b.draws + 4 + k))
        draws := b.draws + n + 5 } ∧
      (a + n ≤ c.storeMaxAddr → q.toNat = a + n) := by
  obtain ⟨ssel, dsel, ⟨mem, wel, ptr, mode, header⟩, shiftIn, log, trace, draws⟩ := b
  simp only at hd
  subst hd
  unfold Bus.readTransaction
  rw [sendHeader_read (by simp) (by simp) (by simp) (by simp)]
  obtain ⟨q, hq, hq'⟩ := pump_reading hmax n (b :=
    { ssel := true, dsel := false
      store := ⟨mem, wel, BitVec.ofNat 16 a, .reading, [c.opRead, addrHigh (BitVec.ofNat 16 a), addrLow (BitVec.ofNat 16 a)]⟩
      shiftIn := shiftIn, displayLog := log, trace := trace ++ [.sselUp] ++ headerEvents c.opRead a
      draws := draws + 1 + 3 }) (a := a) rfl rfl (toNat_ofNat_addr (by omega)) hn
  refine ⟨q, ?_, hq'⟩
  simp only [Bus.emit, BusEvent.ssel, BusEvent.dsel, BusEvent.shiftIn, BusEvent.displayLog, Store.react,
    Store.select] at hq ⊢
  rw [hq]
  simp [Store.deselect, readWindow, Nat.add_assoc]
  omega

/-- `SB.WREN` (R68). -/
theorem writeEnable_eq {c : Config} {b : Bus} (hd : b.dsel = false) :
    b.writeEnable c =
      { b with
        ssel := false
        store := { b.store with wel := true, mode := .idle, header := [] }
        trace := b.trace ++ wrenWindow c
        draws := b.draws + 3 } := by
  obtain ⟨ssel, dsel, ⟨mem, wel, ptr, mode, header⟩, shiftIn, log, trace, draws⟩ := b
  simp only at hd
  subst hd
  simp [Bus.writeEnable, Bus.send, Bus.emit, Store.driven, BusEvent.ssel, BusEvent.dsel, BusEvent.shiftIn,
    BusEvent.displayLog, Store.react, Store.select, Store.clock, Store.receiveHeader, Store.deselect, wrenWindow]

/-- `SB.WRITE` (R57, R69, R70) with the latch set: the bytes are stored, and it is clear afterwards. -/
theorem writeTransaction_eq {c : Config} (hmax : c.storeMaxAddr ≤ 0xFFFF) (hop : c.opRead ≠ c.opWrite) {b : Bus}
    (hd : b.dsel = false) (hw : b.store.wel = true) {a : Nat} {data : List Byte} (ha : a ≤ c.storeMaxAddr)
    (hn : a + data.length ≤ c.storeMaxAddr + 1) :
    ∃ q, b.writeTransaction c a data =
      { b with
        ssel := false
        store :=
          { mem := b.store.mem.writeBytes a data
            wel := false, ptr := q, mode := .idle, header := [] }
        trace := b.trace ++ writeWindow c a data
        draws := b.draws + data.length + 5 } ∧
      (a + data.length ≤ c.storeMaxAddr → q.toNat = a + data.length) := by
  obtain ⟨ssel, dsel, ⟨mem, wel, ptr, mode, header⟩, shiftIn, log, trace, draws⟩ := b
  simp only at hd hw
  subst hd hw
  unfold Bus.writeTransaction
  rw [sendHeader_write hop (by simp) (by simp) (by simp) (by simp)]
  obtain ⟨q, hq, hq'⟩ := sendAll_writing hmax data (b :=
    { ssel := true, dsel := false
      store := ⟨mem, true, BitVec.ofNat 16 a, .writing, [c.opWrite, addrHigh (BitVec.ofNat 16 a), addrLow (BitVec.ofNat 16 a)]⟩
      shiftIn := shiftIn, displayLog := log, trace := trace ++ [.sselUp] ++ headerEvents c.opWrite a
      draws := draws + 1 + 3 }) (a := a) rfl rfl rfl rfl (toNat_ofNat_addr (by omega)) hn
  refine ⟨q, ?_, hq'⟩
  simp only [Bus.emit, BusEvent.ssel, BusEvent.dsel, BusEvent.shiftIn, BusEvent.displayLog, Store.react,
    Store.select] at hq ⊢
  rw [hq]
  simp [Store.deselect, writeWindow]
  omega

/-! ## Store access -/

theorem boundOk_iff {c : Config} {a n : Nat} : boundOk c a n = true ↔ a + n - 1 ≤ c.storeMaxAddr := by
  simp [boundOk]

/-- What `STORE.WRITE` does when it answers (R66). -/
theorem storeWrite_ok {c : Config} (hc : c.Valid) {b : Bus} (hd : b.dsel = false) {a : Nat} {data : List Byte}
    (hlen : 1 ≤ data.length) (hn : a + data.length ≤ c.storeMaxAddr + 1) :
    ∃ q, storeWrite c a data b =
      .ok { b with
        ssel := false
        store := { mem := b.store.mem.writeBytes a data, wel := false, ptr := q, mode := .idle, header := [] }
        trace := b.trace ++ storeWriteEvents c a data
        draws := b.draws + data.length + 8 } ∧
      (a + data.length ≤ c.storeMaxAddr → q.toNat = a + data.length) := by
  obtain ⟨-, -, -, -, hmax, -, -, -, hop, -⟩ := hc
  obtain ⟨q, hq, hq'⟩ := writeTransaction_eq hmax hop (b := b.writeEnable c) (a := a) (data := data)
    (by rw [writeEnable_eq hd]; exact hd) (by rw [writeEnable_eq hd]) (by omega) hn
  refine ⟨q, ?_, hq'⟩
  rw [storeWrite, if_pos (by rw [boundOk_iff]; omega), hq, writeEnable_eq hd]
  simp [storeWriteEvents]
  omega

/-- `STORE.WRITE` fails exactly when its last byte would lie past the store, and then nothing happens (R66, R71). -/
theorem storeWrite_error {c : Config} {b : Bus} {a : Nat} {data : List Byte}
    (hn : c.storeMaxAddr < a + data.length - 1) : storeWrite c a data b = .error ⟨a, data.length, b⟩ := by
  rw [storeWrite, if_neg (by rw [boundOk_iff]; omega)]

/-- What `STORE.READ` of one byte does when it answers (R65). -/
theorem storeRead_one {c : Config} (hmax : c.storeMaxAddr ≤ 0xFFFF) {b : Bus} (hd : b.dsel = false) {a : Nat}
    (ha : a ≤ c.storeMaxAddr) :
    ∃ q, storeRead c a 1 b =
      .ok (fun k => b.store.mem.read (a + k.val),
        { b with
          ssel := false
          store := { b.store with ptr := q, mode := .idle, header := [] }
          trace := b.trace ++ readWindow c b.store.mem a 1 (fun k => Config.placeholder (b.draws + 4 + k))
          draws := b.draws + 6 }) ∧
      (a + 1 ≤ c.storeMaxAddr → q.toNat = a + 1) := by
  obtain ⟨q, hq, hq'⟩ := readTransaction_eq hmax hd (n := 1) ha (by omega)
  refine ⟨q, ?_, hq'⟩
  rw [storeRead, if_pos (by rw [boundOk_iff]; omega), hq]

/-! ## The relay -/

theorem relayLength_eq {lineCount lineLength : Nat} (h : 1 ≤ lineCount) :
    relayLength lineCount lineLength = lineCount * lineLength + 1 := by
  obtain ⟨n, rfl⟩ := Nat.exists_eq_add_of_le h
  simp only [relayLength, Nat.add_sub_cancel_left, Nat.add_mul, Nat.one_mul]
  omega

/-- The four steps of the relay (R89 to R94): the display receives the bytes of the store from `a` on, and
nothing else changes. -/
theorem relaySteps_eq {c : Config} (hmax : c.storeMaxAddr ≤ 0xFFFF) {b : Bus} (hd : b.dsel = false)
    {a lineCount lineLength : Nat} (ha : a ≤ c.storeMaxAddr)
    (hn : a + relayLength lineCount lineLength ≤ c.storeMaxAddr + 1) :
    ∃ q, b.relaySteps c a lineCount lineLength =
      { b with
        ssel := false
        store := { b.store with ptr := q, mode := .idle, header := [] }
        shiftIn := []
        displayLog := b.displayLog ++ [b.store.mem.readBytes a (relayLength lineCount lineLength)]
        trace := b.trace ++ relayWindow c b.store.mem a (relayLength lineCount lineLength)
          (fun k => Config.placeholder (b.draws + 5 + k))
        draws := b.draws + relayLength lineCount lineLength + 7 } ∧
      (a + relayLength lineCount lineLength ≤ c.storeMaxAddr →
        q.toNat = a + relayLength lineCount lineLength) := by
  generalize hN : relayLength lineCount lineLength = N at *
  obtain ⟨ssel, dsel, ⟨mem, wel, ptr, mode, header⟩, shiftIn, log, trace, draws⟩ := b
  simp only at hd
  subst hd
  unfold Bus.relaySteps Bus.armStore Bus.openDisplay Bus.closeRelay
  rw [sendHeader_read (by simp) (by simp) (by simp) (by simp), hN]
  obtain ⟨q, hq, hq'⟩ := pump_reading hmax N (b :=
    { ssel := true, dsel := true
      store := ⟨mem, wel, BitVec.ofNat 16 a, .reading, [c.opRead, addrHigh (BitVec.ofNat 16 a), addrLow (BitVec.ofNat 16 a)]⟩
      shiftIn := [], displayLog := log, trace := trace ++ [.sselUp] ++ headerEvents c.opRead a ++ [.dselUp]
      draws := draws + 1 + 3 + 1 }) (a := a) rfl rfl (toNat_ofNat_addr (by omega)) hn
  refine ⟨q, ?_, hq'⟩
  simp only [Bus.emit, BusEvent.ssel, BusEvent.dsel, BusEvent.shiftIn, BusEvent.displayLog, Store.react,
    Store.select] at hq ⊢
  rw [hq]
  simp [Store.deselect, relayWindow, Nat.add_assoc]
  omega

/-- What RELAY does when it answers (R89, R98). -/
theorem relay_ok {c : Config} (hc : c.Valid) (hr : c.relayMode = .directLink) {b : Bus} (hd : b.dsel = false)
    {a lineCount lineLength n : Nat} (hcount : 1 ≤ lineCount) (hN : lineCount * lineLength + 1 = n)
    (hn : a + n ≤ c.storeMaxAddr + 1) :
    ∃ q, relay c a lineCount lineLength b =
      .next { b with
        ssel := false
        store := { b.store with ptr := q, mode := .idle, header := [] }
        shiftIn := []
        displayLog := b.displayLog ++ [b.store.mem.readBytes a n]
        trace := b.trace ++ relayWindow c b.store.mem a n (fun k => Config.placeholder (b.draws + 5 + k))
        draws := b.draws + n + 7 } ∧
      (a + n ≤ c.storeMaxAddr → q.toNat = a + n) := by
  have hN' := (relayLength_eq (lineLength := lineLength) hcount).trans hN
  obtain ⟨q, hq, hq'⟩ := relaySteps_eq hc.2.2.2.2.1 hd (a := a) (lineCount := lineCount) (lineLength := lineLength)
    (by omega) (by omega)
  rw [hN'] at hq hq'
  refine ⟨q, ?_, hq'⟩
  unfold relay
  rw [if_neg (by simp [hr]), if_neg (by omega), hq]

/-! ## A display window by itself -/

theorem showFrame_eq {c : Config} {b : Bus} (hs : b.ssel = false) (frame : List Byte) :
    ∃ p : Nat → Byte, b.showFrame c frame =
      { b with
        dsel := false
        shiftIn := []
        displayLog := b.displayLog ++ [frame]
        trace := b.trace ++ .dselUp :: frame.mapIdx (fun k v => BusEvent.byte (p k) (some v)) ++ [.dselDown]
        draws := b.draws + frame.length + 2 } := by
  have key : ∀ (frame : List Byte) (b : Bus), b.ssel = false → b.dsel = true →
      frame.foldl (fun b v => b.emit c (.byte (Config.placeholder b.draws) (some v))) b =
        { b with
          shiftIn := b.shiftIn ++ frame
          trace := b.trace ++ frame.mapIdx (fun k v => BusEvent.byte (Config.placeholder (b.draws + k)) (some v))
          draws := b.draws + frame.length } := by
    intro frame
    induction frame with
    | nil => intro b _ _; simp
    | cons v frame ih =>
      intro b hs hd
      rw [List.foldl_cons, ih _ (by simpa using hs) (by simpa using hd)]
      obtain ⟨ssel, dsel, store, shiftIn, log, trace, draws⟩ := b
      simp only at hs hd
      subst hs hd
      simp [Bus.emit, BusEvent.ssel, BusEvent.dsel, BusEvent.shiftIn, BusEvent.displayLog, Store.react,
        List.mapIdx_cons, Nat.add_assoc, Nat.add_comm 1]
  refine ⟨fun k => Config.placeholder (b.draws + 1 + k), ?_⟩
  unfold Bus.showFrame
  rw [key _ _ (by simpa using hs) (by simp)]
  obtain ⟨ssel, dsel, store, shiftIn, log, trace, draws⟩ := b
  simp [Bus.emit, BusEvent.ssel, BusEvent.dsel, BusEvent.shiftIn, BusEvent.displayLog, Store.react]
  omega

end Sys2Proof.Machine
end

