-- ==== Sys2Proof/Laws/Layout.lean ====
section
/-! SUPPORT. Arithmetic of the persisted layout (spec/20_memory.md R31, R33), which the proofs about commands
cite. -/

namespace Sys2Proof.Machine

@[simp] theorem length_blankRecord (c : Config) (y : Nat) : (blankRecord c y).length = c.record := by
  simp [blankRecord, Config.record]

@[simp] theorem headerTemplates_eq (c : Config) : headerTemplates c = [c.cmdClear, c.marker, c.cmdWrite] := rfl

theorem record_ge (c : Config) : 2 ≤ c.record := by
  simp [Config.record]

theorem rowBytes_pos {c : Config} (hc : c.Valid) : 1 ≤ c.rowBytes := by
  have := hc.1
  simp only [Config.rowBytes]
  omega

theorem record_eq (c : Config) : c.record = c.rowBytes + 2 := rfl

theorem recAddr_succ (c : Config) (y : Nat) : recAddr c (y + 1) = recAddr c y + c.record := by
  simp only [recAddr, Nat.add_mul, Nat.one_mul]
  omega

theorem recAddr_zero (c : Config) : recAddr c 0 = lineRecordBase := by
  simp [recAddr]

theorem recAddr_height (c : Config) : recAddr c c.height = frameEnd c + 1 := by
  simp only [recAddr, frameEnd, lineRecordBase, Config.frameSize]
  omega

theorem recAddr_mono (c : Config) {y z : Nat} (h : y ≤ z) : recAddr c y ≤ recAddr c z := by
  simp only [recAddr]
  have := Nat.mul_le_mul_right c.record h
  omega

/-- A later record starts after an earlier one ends. -/
theorem recAddr_lt (c : Config) {y z : Nat} (h : y < z) : recAddr c y + c.record ≤ recAddr c z := by
  rw [← recAddr_succ]
  exact recAddr_mono c h

theorem recAddr_ge (c : Config) (y : Nat) : 3 ≤ recAddr c y := by
  simp only [recAddr, lineRecordBase]
  omega

/-- Every record ends at `FRAME_END` or before. -/
theorem recAddr_end (c : Config) {y : Nat} (h : y < c.height) : recAddr c y + c.record ≤ frameEnd c + 1 := by
  rw [← recAddr_height]
  exact recAddr_lt c h

theorem frameEnd_ge {c : Config} (hc : c.Valid) : 5 ≤ frameEnd c := by
  have h := recAddr_end c (y := 0) hc.2.2.1
  have := rowBytes_pos hc
  rw [recAddr_zero, record_eq] at h
  simp only [lineRecordBase] at h
  omega

/-- Each address of the record area lies in exactly one record. -/
theorem exists_record {c : Config} {a : Nat} (h3 : 3 ≤ a) (hend : a ≤ frameEnd c) :
    ∃ y, y < c.height ∧ recAddr c y ≤ a ∧ a < recAddr c y + c.record := by
  have hrec := record_ge c
  have key : ∀ n, a < recAddr c n → ∃ y, y < n ∧ recAddr c y ≤ a ∧ a < recAddr c y + c.record := by
    intro n
    induction n with
    | zero => intro h; rw [recAddr_zero] at h; simp only [lineRecordBase] at h; omega
    | succ n ih =>
      intro h
      by_cases hn : a < recAddr c n
      · obtain ⟨y, hy, h1, h2⟩ := ih hn
        exact ⟨y, by omega, h1, h2⟩
      · rw [recAddr_succ] at h
        exact ⟨n, by omega, by omega, h⟩
  exact key c.height (by rw [recAddr_height]; omega)

/-- The address of an in-bounds pixel is that of a data byte of its row. -/
theorem pixAddress_eq (c : Config) (x y : Int) :
    pixAddress c x y = recAddr c y.toNat + 1 + x.toNat / 8 := by
  simp only [pixAddress, recAddr]
  omega

theorem inBounds_iff {c : Config} {x y : Int} :
    inBounds c x y = true ↔ 0 ≤ x ∧ x < c.width ∧ 0 ≤ y ∧ y < c.height := by
  simp [inBounds]

theorem pixAddress_bounds {c : Config} {x y : Int} (h : inBounds c x y = true) :
    y.toNat < c.height ∧ recAddr c y.toNat + 1 ≤ pixAddress c x y ∧
      pixAddress c x y ≤ recAddr c y.toNat + c.rowBytes := by
  rw [inBounds_iff] at h
  rw [pixAddress_eq]
  simp only [Config.rowBytes]
  omega

theorem pixAddress_lt_frameEnd {c : Config} {x y : Int} (h : inBounds c x y = true) :
    4 ≤ pixAddress c x y ∧ pixAddress c x y + 1 ≤ frameEnd c := by
  obtain ⟨hy, h1, h2⟩ := pixAddress_bounds h
  have := recAddr_end c hy
  have := recAddr_ge c y.toNat
  rw [record_eq] at *
  omega

end Sys2Proof.Machine
end

