-- ==== Sys2Proof/Laws/Records.lean ====
section
/-! SUPPORT. The bulk write of LineRecords that BEGIN and CLEAR share (spec/44_controller.md R101, R104, R111). -/

namespace Sys2Proof.Machine

/-- Memory after the blank records of the given rows are written, in order. -/
def recordsMemory (c : Config) (rows : List Nat) (m : Memory) : Memory :=
  rows.foldl (fun m y => m.writeBytes (recAddr c y) (blankRecord c y)) m

theorem recordsMemory_cons (c : Config) (y : Nat) (rows : List Nat) (m : Memory) :
    recordsMemory c (y :: rows) m =
      recordsMemory c rows (m.writeBytes (recAddr c y) (blankRecord c y)) := rfl

/-- What the records written from row `lo` on, `n` of them, read as. -/
theorem read_recordsMemory (c : Config) (n : Nat) :
    ∀ (lo : Nat) (m : Memory) (a : Nat),
      ((recordsMemory c (List.range' lo n) m).read a = m.read a ∧
        (a < recAddr c lo ∨ recAddr c (lo + n) ≤ a)) ∨
      ∃ y k, ∃ h : k < (blankRecord c y).length, lo ≤ y ∧ y < lo + n ∧ a = recAddr c y + k ∧
        (recordsMemory c (List.range' lo n) m).read a = (blankRecord c y)[k] := by
  induction n with
  | zero =>
    intro lo m a
    simp only [List.range'_zero, recordsMemory, List.foldl_nil, Nat.add_zero]
    exact Or.inl ⟨trivial, by omega⟩
  | succ n ih =>
    intro lo m a
    rw [List.range'_succ, recordsMemory_cons]
    rcases ih (lo + 1) (m.writeBytes (recAddr c lo) (blankRecord c lo)) a with ⟨hr, ha⟩ | ⟨y, k, hk, h1, h2, h3, h4⟩
    · by_cases hin : recAddr c lo ≤ a ∧ a < recAddr c lo + c.record
      · refine Or.inr ⟨lo, a - recAddr c lo, by rw [length_blankRecord]; omega, by omega, by omega, by omega, ?_⟩
        rw [hr, Memory.read_writeBytes, dif_pos (by rw [length_blankRecord]; omega)]
      · refine Or.inl ⟨?_, ?_⟩
        · rw [hr, Memory.read_writeBytes_outside _ _ _ (by rw [length_blankRecord]; omega)]
        · rw [recAddr_succ] at ha
          rw [show lo + (n + 1) = lo + 1 + n by omega]
          omega
    · exact Or.inr ⟨y, k, hk, by omega, by omega, h3, h4⟩

/-- Inside row `y` the byte at offset `k` is byte `k` of the blank record. -/
theorem read_recordsMemory_row (c : Config) {n y k : Nat} (m : Memory) (hy : y < n) (hk : k < (blankRecord c y).length) :
    (recordsMemory c (List.range n) m).read (recAddr c y + k) = (blankRecord c y)[k] := by
  rw [List.range_eq_range']
  rw [length_blankRecord] at hk
  rcases read_recordsMemory c n 0 m (recAddr c y + k) with ⟨-, h⟩ | ⟨z, j, hj, -, hz, h, hread⟩
  · have h1 := recAddr_mono c (Nat.zero_le y)
    have h2 := recAddr_lt c hy
    simp only [Nat.zero_add] at h
    omega
  · rw [length_blankRecord] at hj
    have hyz : y = z := by
      rcases Nat.lt_trichotomy y z with hlt | heq | hgt
      · have := recAddr_lt c hlt; omega
      · exact heq
      · have := recAddr_lt c hgt; omega
    subst hyz
    have : k = j := by omega
    subst this
    exact hread

/-- Outside the record area nothing is changed. -/
theorem read_recordsMemory_outside (c : Config) {n a : Nat} (m : Memory) (h : a < 3 ∨ recAddr c n ≤ a) :
    (recordsMemory c (List.range n) m).read a = m.read a := by
  rw [List.range_eq_range']
  rcases read_recordsMemory c n 0 m a with ⟨hr, -⟩ | ⟨z, j, hj, -, hz, ha, -⟩
  · exact hr
  · rw [length_blankRecord] at hj
    have := recAddr_lt c (by simpa using hz)
    have := recAddr_ge c z
    omega

theorem blankRecord_first (c : Config) (y : Nat) (h : 0 < (blankRecord c y).length) :
    (blankRecord c y)[0] = lineNum y := rfl

theorem blankRecord_data (c : Config) (y k : Nat) (hk : k < c.rowBytes) (h : 1 + k < (blankRecord c y).length) :
    (blankRecord c y)[1 + k] = blankByte := by
  simp only [blankRecord, Nat.add_comm 1 k, List.getElem_cons_succ]
  rw [List.getElem_append_left (by simpa using hk)]
  simp

theorem blankRecord_last (c : Config) (y : Nat) (h : c.rowBytes + 1 < (blankRecord c y).length) :
    (blankRecord c y)[c.rowBytes + 1] = trailerByte := by
  simp only [blankRecord, List.getElem_cons_succ]
  rw [List.getElem_append_right (by simp)]
  simp

/-- The three kinds of bytes of a row after the bulk write. -/
theorem read_recordsMemory_fields (c : Config) {y : Nat} (m : Memory) (hy : y < c.height) :
    (recordsMemory c (List.range c.height) m).read (recAddr c y) = lineNum y ∧
    (∀ k, k < c.rowBytes → (recordsMemory c (List.range c.height) m).read (recAddr c y + 1 + k) = blankByte) ∧
    (recordsMemory c (List.range c.height) m).read (recAddr c y + c.record - 1) = trailerByte := by
  have hlen := length_blankRecord c y
  have hrec := record_eq c
  refine ⟨?_, fun k hk => ?_, ?_⟩
  · have := read_recordsMemory_row c m hy (k := 0) (by omega)
    simpa [blankRecord_first] using this
  · have := read_recordsMemory_row c m hy (k := 1 + k) (by omega)
    rw [blankRecord_data c y k hk, ← Nat.add_assoc] at this
    exact this
  · have := read_recordsMemory_row c m hy (k := c.rowBytes + 1) (by omega)
    rw [blankRecord_last] at this
    rw [show recAddr c y + c.record - 1 = recAddr c y + (c.rowBytes + 1) by omega]
    exact this

/-- The bus after the records of the given rows are written (R101): the memory, the trace, and no other change but
the store's own pointer and latch. -/
theorem writeRecords_ok {c : Config} (hc : c.Valid) :
    ∀ (rows : List Nat) {b : Bus}, b.ssel = false → b.dsel = false → b.store.mode = .idle → b.store.header = [] →
      (∀ y ∈ rows, recAddr c y + c.record ≤ c.storeMaxAddr + 1) →
      ∃ q w d, writeRecords c rows b =
        .ok { b with
          store := { b.store with mem := recordsMemory c rows b.store.mem, wel := w, ptr := q }
          trace := b.trace ++ rows.flatMap fun y => storeWriteEvents c (recAddr c y) (blankRecord c y)
          draws := d } ∧
        (b.store.wel = false → w = false) := by
  intro rows
  induction rows with
  | nil =>
    intro b _ _ _ _ _
    exact ⟨b.store.ptr, b.store.wel, b.draws, by simp [writeRecords, recordsMemory], id⟩
  | cons y rows ih =>
    intro b hs hd hm hh hrows
    have hrec := record_ge c
    have hy := hrows y (by simp)
    obtain ⟨q, hq, -⟩ := storeWrite_ok hc hd (a := recAddr c y) (data := blankRecord c y)
      (by rw [length_blankRecord]; omega) (by rw [length_blankRecord]; omega)
    rw [writeRecords, hq]
    obtain ⟨q', w, d, hok, hw⟩ := ih (b :=
      { b with
        ssel := false
        store :=
          { mem := b.store.mem.writeBytes (recAddr c y) (blankRecord c y), wel := false, ptr := q, mode := .idle
            header := [] }
        trace := b.trace ++ storeWriteEvents c (recAddr c y) (blankRecord c y)
        draws := b.draws + (blankRecord c y).length + 8 }) rfl hd rfl rfl (fun z hz => hrows z (by simp [hz]))
    refine ⟨q', w, d, ?_, fun _ => hw rfl⟩
    simp only
    rw [hok]
    simp [recordsMemory_cons, hs, hm, hh]

/-- Every record (R101, R104). -/
theorem writeAllRecords_ok {c : Config} (hc : c.Valid) (hfits : Fits c) {b : Bus} (hs : b.ssel = false)
    (hd : b.dsel = false) (hm : b.store.mode = .idle) (hh : b.store.header = []) :
    ∃ q w d, writeAllRecords c b =
      .ok { b with
        store := { b.store with mem := recordsMemory c (List.range c.height) b.store.mem, wel := w, ptr := q }
        trace := b.trace ++ recordEvents c
        draws := d } ∧
      (b.store.wel = false → w = false) := by
  apply writeRecords_ok hc _ hs hd hm hh
  intro y hy
  have := recAddr_end c (List.mem_range.mp hy)
  have hfits' : frameEnd c ≤ c.storeMaxAddr := hfits
  omega

/-- The records fail at the first row that does not fit, and the rows before it are written (R71, R101). -/
theorem writeRecords_error {c : Config} (hc : c.Valid) (n : Nat) :
    ∀ (lo : Nat) {b : Bus}, b.ssel = false → b.dsel = false → b.store.mode = .idle → b.store.header = [] →
      c.storeMaxAddr + 1 < recAddr c (lo + n) → 0 < n →
      ∃ k q w d, k < n ∧
        (∀ y, lo ≤ y → y < lo + k → recAddr c y + c.record ≤ c.storeMaxAddr + 1) ∧
        c.storeMaxAddr + 1 < recAddr c (lo + k) + c.record ∧
        writeRecords c (List.range' lo n) b =
          .error ⟨recAddr c (lo + k), c.record,
            { b with
              store := { b.store with mem := recordsMemory c (List.range' lo k) b.store.mem, wel := w, ptr := q }
              trace := b.trace ++
                (List.range' lo k).flatMap fun y => storeWriteEvents c (recAddr c y) (blankRecord c y)
              draws := d }⟩ ∧
        (b.store.wel = false → w = false) := by
  induction n with
  | zero => intro lo b _ _ _ _ _ h; omega
  | succ n ih =>
    intro lo b hs hd hm hh hover _
    have hrec := record_ge c
    rw [List.range'_succ, writeRecords]
    by_cases hfit : recAddr c lo + c.record ≤ c.storeMaxAddr + 1
    · obtain ⟨q, hq, -⟩ := storeWrite_ok hc hd (a := recAddr c lo) (data := blankRecord c lo)
        (by rw [length_blankRecord]; omega) (by rw [length_blankRecord]; omega)
      have hn : 0 < n := by
        rcases Nat.eq_zero_or_pos n with h0 | hpos
        · subst h0
          rw [show lo + (0 + 1) = lo + 1 by omega, recAddr_succ] at hover
          omega
        · exact hpos
      obtain ⟨k, q', w, d, hk, hbefore, hafter, herr, hw⟩ := ih (lo + 1) (b :=
        { b with
          ssel := false
          store :=
            { mem := b.store.mem.writeBytes (recAddr c lo) (blankRecord c lo), wel := false, ptr := q
              mode := .idle, header := [] }
          trace := b.trace ++ storeWriteEvents c (recAddr c lo) (blankRecord c lo)
          draws := b.draws + (blankRecord c lo).length + 8 }) rfl hd rfl rfl
        (by rw [show lo + 1 + n = lo + (n + 1) by omega]; exact hover) hn
      refine ⟨k + 1, q', w, d, by omega, ?_, ?_, ?_, fun _ => hw rfl⟩
      · intro y h1 h2
        rcases Nat.eq_or_lt_of_le h1 with rfl | h1
        · exact hfit
        · exact hbefore y (by omega) (by omega)
      · rw [show lo + (k + 1) = lo + 1 + k by omega]; exact hafter
      · rw [hq]
        simp only
        rw [herr, List.range'_succ, recordsMemory_cons, show lo + (k + 1) = lo + 1 + k by omega]
        simp [hs, hm, hh]
    · refine ⟨0, b.store.ptr, b.store.wel, b.draws, by omega, by omega, by simpa using hfit, ?_, id⟩
      rw [storeWrite_error (by rw [length_blankRecord]; omega)]
      simp [recordsMemory]

end Sys2Proof.Machine
end

