-- ==== Sys2Proof/Laws/Step.lean ====
section
/-! SUPPORT. How a step takes its input, and the fields of a packed command word. -/

namespace Sys2Proof.Machine

theorem configRefusal_none {c : Config} (hc : c.Valid) (hr : c.relayMode = .directLink) : configRefusal c = none := by
  unfold configRefusal
  rw [if_neg (not_not_intro hc), if_neg (by simp [hr])]

/-- Under a configuration of the spec, a step is the oldest input taken. -/
theorem step_input {s : State} {i : Input} {rest : List Input} (hc : s.cfg.Valid)
    (hr : s.cfg.relayMode = .directLink) (hi : s.inbox = i :: rest) :
    step s = takeInput i { s with inbox := rest } := by
  unfold step takeNext
  rw [configRefusal_none hc hr, hi]

/-- If a step answers at all, the configuration is one of the spec. -/
theorem config_of_step {s t : State} (h : step s = .next t) : s.cfg.Valid ∧ s.cfg.relayMode = .directLink := by
  unfold step takeNext configRefusal at h
  by_cases hc : s.cfg.Valid
  · rw [if_neg (not_not_intro hc)] at h
    by_cases hr : s.cfg.relayMode = .directLink
    · exact ⟨hc, hr⟩
    · rw [if_pos hr] at h; cases h
  · rw [if_pos hc] at h; cases h

/-- A step that answers is idle or takes the oldest input. -/
theorem step_cases {s t : State} (h : step s = .next t) :
    (s.inbox = [] ∧ t = s) ∨
    ∃ i rest, s.inbox = i :: rest ∧ takeInput i { s with inbox := rest } = .next t := by
  obtain ⟨hc, hr⟩ := config_of_step h
  cases hi : s.inbox with
  | nil =>
    unfold step takeNext at h
    rw [configRefusal_none hc hr, hi] at h
    cases h
    exact Or.inl ⟨rfl, rfl⟩
  | cons i rest =>
    rw [step_input hc hr hi] at h
    exact Or.inr ⟨i, rest, rfl, h⟩

end Sys2Proof.Machine

namespace Sys2Proof

@[simp] theorem fieldOp_packHC (op : BitVec 4) (on : Bool) (x y : Coord) : fieldOp (packHC op on x y) = op := by
  simp only [fieldOp, packHC]; ext i hi; simp; grind

@[simp] theorem fieldRsv_packHC (op : BitVec 4) (on : Bool) (x y : Coord) : fieldRsv (packHC op on x y) = 0 := by
  simp only [fieldRsv, packHC]; ext i hi; simp; grind

@[simp] theorem fieldOn_packHC (op : BitVec 4) (on : Bool) (x y : Coord) :
    fieldOn (packHC op on x y) = BitVec.ofBool on := by
  simp only [fieldOn, packHC]; ext i hi
  obtain rfl : i = 0 := by omega
  simp only [BitVec.getElem_extractLsb', BitVec.getLsbD_append]
  simp

@[simp] theorem fieldX_packHC (op : BitVec 4) (on : Bool) (x y : Coord) : fieldX (packHC op on x y) = x := by
  simp only [fieldX, packHC]; ext i hi; simp; grind

@[simp] theorem fieldY_packHC (op : BitVec 4) (on : Bool) (x y : Coord) : fieldY (packHC op on x y) = y := by
  simp only [fieldY, packHC]; ext i hi; simp; grind

theorem hasLength_iff {α : Type} (l : List α) (n : Nat) : hasLength l n = true ↔ l.length = n := by
  induction l generalizing n with
  | nil => cases n <;> simp [hasLength]
  | cons x l ih => cases n <;> simp [hasLength, ih]

end Sys2Proof
end

