-- ==== Sys2Proof/Laws/Commands.lean ====
section
/-! SUPPORT. Each command as one update of the state (spec/44_controller.md R101 to R105), which proofs about
commands cite. -/

namespace Sys2Proof.Machine

/-- The bus with what a command changes in it: the store's content, latch and pointer, the frames received, the
events appended, and the draws made. -/
def Bus.after (b : Bus) (mem : Memory) (wel : Bool) (ptr : Addr) (frames : List (List Byte))
    (events : List BusEvent) (draws : Nat) : Bus :=
  { b with
    store := { b.store with mem := mem, wel := wel, ptr := ptr }
    displayLog := b.displayLog ++ frames
    trace := b.trace ++ events
    draws := draws }

section
variable (b : Bus) (m : Memory) (w : Bool) (p : Addr) (f : List (List Byte)) (e : List BusEvent) (d : Nat)

@[simp] theorem after_ssel : (b.after m w p f e d).ssel = b.ssel := rfl
@[simp] theorem after_dsel : (b.after m w p f e d).dsel = b.dsel := rfl
@[simp] theorem after_mem : (b.after m w p f e d).store.mem = m := rfl
@[simp] theorem after_wel : (b.after m w p f e d).store.wel = w := rfl
@[simp] theorem after_ptr : (b.after m w p f e d).store.ptr = p := rfl
@[simp] theorem after_mode : (b.after m w p f e d).store.mode = b.store.mode := rfl
@[simp] theorem after_header : (b.after m w p f e d).store.header = b.store.header := rfl
@[simp] theorem after_shiftIn : (b.after m w p f e d).shiftIn = b.shiftIn := rfl
@[simp] theorem after_displayLog : (b.after m w p f e d).displayLog = b.displayLog ++ f := rfl
@[simp] theorem after_trace : (b.after m w p f e d).trace = b.trace ++ e := rfl
@[simp] theorem after_draws : (b.after m w p f e d).draws = d := rfl

theorem after_quiet (h : b.Quiet) : (b.after m w p f e d).Quiet := h

end

/-- `STORE.WRITE` on a quiet bus (R66). -/
theorem storeWrite_quiet {c : Config} (hc : c.Valid) {b : Bus} (hq : b.Quiet) {a : Nat} {data : List Byte}
    (hlen : 1 ≤ data.length) (hn : a + data.length ≤ c.storeMaxAddr + 1) :
    ∃ q d, storeWrite c a data b =
      .ok (b.after (b.store.mem.writeBytes a data) false q [] (storeWriteEvents c a data) d) ∧
      (a + data.length ≤ c.storeMaxAddr → q.toNat = a + data.length) := by
  obtain ⟨hs, hd, hm, hh, -⟩ := hq
  obtain ⟨q, hq, hq'⟩ := storeWrite_ok hc hd hlen hn
  refine ⟨q, b.draws + data.length + 8, ?_, hq'⟩
  rw [hq]
  simp [Bus.after, hs, hm, hh]

/-- `STORE.READ` of one byte on a quiet bus (R65). -/
theorem storeRead_quiet {c : Config} (hc : c.Valid) {b : Bus} (hq : b.Quiet) {a : Nat} (ha : a ≤ c.storeMaxAddr) :
    ∃ q d, ∃ p : Nat → Byte, storeRead c a 1 b =
      .ok (fun k => b.store.mem.read (a + k.val),
        b.after b.store.mem b.store.wel q [] (readWindow c b.store.mem a 1 p) d) ∧
      (a + 1 ≤ c.storeMaxAddr → q.toNat = a + 1) := by
  obtain ⟨hs, hd, hm, hh, -⟩ := hq
  obtain ⟨q, hq, hq'⟩ := storeRead_one hc.2.2.2.2.1 hd ha
  refine ⟨q, b.draws + 6, fun k => Config.placeholder (b.draws + 4 + k), ?_, hq'⟩
  rw [hq]
  simp [Bus.after, hs, hm, hh]

/-- The bulk write on a quiet bus (R101, R104). -/
theorem writeAllRecords_quiet {c : Config} (hc : c.Valid) (hfits : Fits c) {b : Bus} (hq : b.Quiet) :
    ∃ q w d, writeAllRecords c b =
      .ok (b.after (recordsMemory c (List.range c.height) b.store.mem) w q [] (recordEvents c) d) ∧
      (b.store.wel = false → w = false) := by
  obtain ⟨hs, hd, hm, hh, -⟩ := hq
  obtain ⟨q, w, d, hok, hw⟩ := writeAllRecords_ok hc hfits hs hd hm hh
  exact ⟨q, w, d, by rw [hok]; simp [Bus.after], hw⟩

/-- RELAY on a quiet bus (R89). -/
theorem relay_quiet {c : Config} (hc : c.Valid) (hr : c.relayMode = .directLink) {b : Bus} (hq : b.Quiet)
    {a lineCount lineLength n : Nat} (hcount : 1 ≤ lineCount) (hN : lineCount * lineLength + 1 = n)
    (hn : a + n ≤ c.storeMaxAddr + 1) :
    ∃ q d, ∃ p : Nat → Byte, relay c a lineCount lineLength b =
      .next (b.after b.store.mem b.store.wel q [b.store.mem.readBytes a n]
        (relayWindow c b.store.mem a n p) d) ∧
      (a + n ≤ c.storeMaxAddr → q.toNat = a + n) := by
  obtain ⟨hs, hd, hm, hh, hsh⟩ := hq
  obtain ⟨q, hq, hq'⟩ := relay_ok hc hr hd (a := a) hcount hN hn
  refine ⟨q, b.draws + n + 7, fun k => Config.placeholder (b.draws + 5 + k), ?_, hq'⟩
  rw [hq]
  simp [Bus.after, hs, hm, hh, hsh]

/-! ## The commands -/

/-- Memory after BEGIN: the templates, then every blank record (R101). -/
def beginMemory (c : Config) (m : Memory) : Memory :=
  recordsMemory c (List.range c.height) (m.writeBytes 0 [c.cmdClear, c.marker, c.cmdWrite])

/-- BEGIN where it completes (R101). -/
theorem execBegin_ok {s : State} (hc : s.cfg.Valid) (hq : s.bus.Quiet) (hctrl : s.ctrl = .uninitialized)
    (hfits : Fits s.cfg) :
    ∃ q d, execBegin s =
      .next ({ s with
        ctrl := .ready
        bus := s.bus.after (beginMemory s.cfg s.bus.store.mem) false q []
          (storeWriteEvents s.cfg 0 [s.cfg.cmdClear, s.cfg.marker, s.cfg.cmdWrite] ++ recordEvents s.cfg) d
        }.respond .ok false) := by
  have hf : frameEnd s.cfg ≤ s.cfg.storeMaxAddr := hfits
  have hge := frameEnd_ge hc
  obtain ⟨q, d, hw, -⟩ := storeWrite_quiet hc hq (a := 0) (data := [s.cfg.cmdClear, s.cfg.marker, s.cfg.cmdWrite])
    (by simp) (by simp; omega)
  obtain ⟨q', w, d', hall, hwel⟩ := writeAllRecords_quiet hc hfits (after_quiet _
    (s.bus.store.mem.writeBytes 0 [s.cfg.cmdClear, s.cfg.marker, s.cfg.cmdWrite]) false q []
    (storeWriteEvents s.cfg 0 [s.cfg.cmdClear, s.cfg.marker, s.cfg.cmdWrite]) d hq)
  refine ⟨q', d', ?_⟩
  unfold execBegin admitIn
  rw [if_pos hctrl]
  simp only [beginWrites, headerTemplates_eq, show headerBase = 0 from rfl, hw, hall, hwel rfl]
  simp [Bus.after, beginMemory]

/-- BEGIN on a store without room for the header (R101): nothing is written and the bus is silent. -/
theorem execBegin_noHeader {s : State} (hctrl : s.ctrl = .uninitialized) (h : s.cfg.storeMaxAddr < 2) :
    execBegin s = .next (s.raiseOutOfRange ⟨0, 3, s.bus⟩) := by
  have hw := storeWrite_error (c := s.cfg) (b := s.bus) (a := 0)
    (data := [s.cfg.cmdClear, s.cfg.marker, s.cfg.cmdWrite]) (by simp; omega)
  unfold execBegin admitIn
  rw [if_pos hctrl]
  simp only [beginWrites, headerTemplates_eq, show headerBase = 0 from rfl, hw]
  rfl

/-- BEGIN where the frame does not fit the store (R101, R117): the header and the rows before the first that does
not fit are written. -/
theorem execBegin_short {s : State} (hc : s.cfg.Valid) (hq : s.bus.Quiet) (hctrl : s.ctrl = .uninitialized)
    (hfits : ¬ Fits s.cfg) :
    ∃ k q d, k < s.cfg.height ∧ (∀ y, y < k → recAddr s.cfg y + s.cfg.record ≤ s.cfg.storeMaxAddr + 1) ∧
      s.cfg.storeMaxAddr + 1 < recAddr s.cfg k + s.cfg.record ∧
      execBegin s = .next (s.raiseOutOfRange ⟨recAddr s.cfg k, s.cfg.record, s.bus.after (recordsMemory s.cfg (List.range k)
        (s.bus.store.mem.writeBytes 0 [s.cfg.cmdClear, s.cfg.marker, s.cfg.cmdWrite])) false q []
        (storeWriteEvents s.cfg 0 [s.cfg.cmdClear, s.cfg.marker, s.cfg.cmdWrite] ++
          (List.range k).flatMap fun y => storeWriteEvents s.cfg (recAddr s.cfg y) (blankRecord s.cfg y)) d⟩) := by
  have hshort : s.cfg.storeMaxAddr < frameEnd s.cfg := by simpa [Fits] using hfits
  have h2 := hc.2.2.2.2.2.2.2.2.2.2.2
  obtain ⟨q, d, hw, -⟩ := storeWrite_quiet hc hq (a := 0)
    (data := [s.cfg.cmdClear, s.cfg.marker, s.cfg.cmdWrite]) (by simp) (by simp; omega)
  generalize hb : s.bus.after (s.bus.store.mem.writeBytes 0 [s.cfg.cmdClear, s.cfg.marker, s.cfg.cmdWrite]) false q []
    (storeWriteEvents s.cfg 0 [s.cfg.cmdClear, s.cfg.marker, s.cfg.cmdWrite]) d = b at hw
  have hqb : b.Quiet := hb ▸ after_quiet _ _ _ _ _ _ _ hq
  obtain ⟨k, q', w, d', hk, hbefore, hafter, herr, hwel⟩ := writeRecords_error hc s.cfg.height 0 hqb.1 hqb.2.1
    hqb.2.2.1 hqb.2.2.2.1 (by rw [Nat.zero_add, recAddr_height]; omega) hc.2.2.1
  rw [Nat.zero_add] at hbefore hafter herr
  have hrun : execBegin s = match writeRecords s.cfg (List.range' 0 s.cfg.height) b with
      | .ok b' => .next ({ s with bus := b', ctrl := .ready }.respond .ok false)
      | .error e => .next (s.raiseOutOfRange e) := by
    unfold execBegin admitIn
    rw [if_pos hctrl]
    cases hrec : writeRecords s.cfg (List.range' 0 s.cfg.height) b <;>
      simp only [beginWrites, headerTemplates_eq, show headerBase = 0 from rfl, hw, writeAllRecords,
        List.range_eq_range', hrec]
  rw [hrun, herr, hwel (by subst hb; rfl)]
  refine ⟨k, q', d', by omega, fun y hy => hbefore y (by omega) hy, hafter, ?_⟩
  subst hb
  simp [Bus.after, List.range_eq_range']

/-- SETPIXEL in bounds (R102). -/
theorem execSetPixel_ok {s : State} {x y : Coord} (on : Bool) (hc : s.cfg.Valid) (hq : s.bus.Quiet)
    (hctrl : s.ctrl = .ready) (hfits : Fits s.cfg) (hin : inBounds s.cfg (coordinate x) (coordinate y) = true)
    {a : Nat} (ha : pixAddress s.cfg (coordinate x) (coordinate y) = a) :
    ∃ q d, ∃ p : Nat → Byte, execSetPixel x y on s =
      .next ({ s with
        bus := s.bus.after (s.bus.store.mem.write a (mutate (s.read a) (pixBit (coordinate x)) on)) false q []
          (readWindow s.cfg s.bus.store.mem a 1 p ++
            storeWriteEvents s.cfg a [mutate (s.read a) (pixBit (coordinate x)) on]) d
        }.respond .ok false) ∧ q.toNat = a + 1 := by
  have hf : frameEnd s.cfg ≤ s.cfg.storeMaxAddr := hfits
  have hlt := pixAddress_lt_frameEnd hin
  rw [ha] at hlt
  obtain ⟨q, d, p, hread, -⟩ := storeRead_quiet hc hq (a := a) (by omega)
  obtain ⟨q', d', hw, hptr⟩ := storeWrite_quiet hc (after_quiet _ s.bus.store.mem s.bus.store.wel q []
    (readWindow s.cfg s.bus.store.mem a 1 p) d hq) (a := a)
    (data := [mutate (s.bus.store.mem.read (a + (0 : Fin 1).val)) (pixBit (coordinate x)) on]) (by simp) (by simp; omega)
  refine ⟨q', d', p, ?_, hptr (by simp; omega)⟩
  unfold execSetPixel admitIn
  rw [if_pos hctrl]
  simp only [hin, if_true, ha, hread, hw]
  simp [Bus.after, State.read]

/-- GETPIXEL in bounds (R103). -/
theorem execGetPixel_ok {s : State} {x y : Coord} (hc : s.cfg.Valid) (hq : s.bus.Quiet)
    (hctrl : s.ctrl = .ready) (hfits : Fits s.cfg) (hin : inBounds s.cfg (coordinate x) (coordinate y) = true)
    {a : Nat} (ha : pixAddress s.cfg (coordinate x) (coordinate y) = a) :
    ∃ q d, ∃ p : Nat → Byte, execGetPixel x y s =
      .next ({ s with
        bus := s.bus.after s.bus.store.mem s.bus.store.wel q [] (readWindow s.cfg s.bus.store.mem a 1 p) d
        }.respond .ok (testBit (s.read a) (pixBit (coordinate x)))) ∧ q.toNat = a + 1 := by
  have hf : frameEnd s.cfg ≤ s.cfg.storeMaxAddr := hfits
  have hlt := pixAddress_lt_frameEnd hin
  rw [ha] at hlt
  obtain ⟨q, d, p, hread, hptr⟩ := storeRead_quiet hc hq (a := a) (by omega)
  refine ⟨q, d, p, ?_, hptr (by omega)⟩
  unfold execGetPixel admitIn
  rw [if_pos hctrl]
  simp only [hin, if_true, ha, hread]
  simp [State.read]

/-- Both pixel commands out of bounds (R75). -/
theorem execPixel_clipped {s : State} {x y : Coord} (on : Bool) (hctrl : s.ctrl = .ready)
    (hout : inBounds s.cfg (coordinate x) (coordinate y) = false) :
    execSetPixel x y on s = .next (s.respond .ok false) ∧ execGetPixel x y s = .next (s.respond .ok false) := by
  constructor
  · unfold execSetPixel admitIn; rw [if_pos hctrl]; simp [hout]
  · unfold execGetPixel admitIn; rw [if_pos hctrl]; simp [hout]

/-- Memory after CLEAR: every blank record, then the clear slot (R104). -/
def clearMemory (c : Config) (v : Bool) (m : Memory) : Memory :=
  (recordsMemory c (List.range c.height) m).write 0 (cmdByte c c.cmdClear v)

/-- CLEAR in `Ready` (R104). -/
theorem execClear_ok {s : State} (hc : s.cfg.Valid) (hr : s.cfg.relayMode = .directLink) (hq : s.bus.Quiet)
    (hctrl : s.ctrl = .ready) (hfits : Fits s.cfg) {m : Memory}
    (hm : clearMemory s.cfg s.vcom s.bus.store.mem = m) :
    ∃ q d, ∃ p : Nat → Byte, execClear s =
      .next ({ s with
        vcom := !s.vcom
        bus := s.bus.after m false q [m.readBytes 0 3]
          (recordEvents s.cfg ++ storeWriteEvents s.cfg 0 [cmdByte s.cfg s.cfg.cmdClear s.vcom] ++
            relayWindow s.cfg m 0 3 p) d
        }.respond .ok false) ∧ q.toNat = 3 := by
  have hf : frameEnd s.cfg ≤ s.cfg.storeMaxAddr := hfits
  have hge := frameEnd_ge hc
  obtain ⟨q, w, d, hall, -⟩ := writeAllRecords_quiet hc hfits hq
  have hq₀ := after_quiet _ (recordsMemory s.cfg (List.range s.cfg.height) s.bus.store.mem) w q []
    (recordEvents s.cfg) d hq
  obtain ⟨q₁, d₁, hw, -⟩ := storeWrite_quiet hc hq₀ (a := 0)
    (data := [cmdByte s.cfg s.cfg.cmdClear s.vcom]) (by simp) (by simp)
  have hq₁ := after_quiet _ (m := m) false q₁ [] (storeWriteEvents s.cfg 0 [cmdByte s.cfg s.cfg.cmdClear s.vcom]) d₁
    hq₀
  obtain ⟨q₂, d₂, p, hrelay, hptr⟩ := relay_quiet hc hr hq₁ (a := 0) (lineCount := 1) (lineLength := 2) (n := 3)
    (by omega) rfl (by omega)
  refine ⟨q₂, d₂, p, ?_, by rw [hptr (by omega)]⟩
  unfold execClear admitIn
  rw [if_pos hctrl]
  unfold clearWrites
  simp only [hall, show ctrlSlot .clear = 0 from rfl, hw]
  unfold toggleAndRelay
  simp only [toggleVcom_cfg, toggleVcom_bus, show clearLineCount = 1 from rfl, show clearLineLength = 2 from rfl]
  simp only [after_mem, Memory.writeBytes_single]
  rw [show (recordsMemory s.cfg (List.range s.cfg.height) s.bus.store.mem).write 0
    (cmdByte s.cfg s.cfg.cmdClear s.vcom) = m from hm, hrelay]
  simp [Bus.after, State.toggleVcom, State.respond]

/-- Memory after REFRESH: the write slot (R105). -/
def refreshMemory (c : Config) (v : Bool) (m : Memory) : Memory := m.write 2 (cmdByte c c.cmdWrite v)

/-- REFRESH in `Ready` (R105). -/
theorem execRefresh_ok {s : State} (hc : s.cfg.Valid) (hr : s.cfg.relayMode = .directLink) (hq : s.bus.Quiet)
    (hctrl : s.ctrl = .ready) (hfits : Fits s.cfg) {m : Memory}
    (hm : refreshMemory s.cfg s.vcom s.bus.store.mem = m) :
    ∃ q d, ∃ p : Nat → Byte, execRefresh s =
      .next ({ s with
        vcom := !s.vcom
        bus := s.bus.after m false q [m.readBytes 2 (s.cfg.frameSize + 1)]
          (storeWriteEvents s.cfg 2 [cmdByte s.cfg s.cfg.cmdWrite s.vcom] ++
            relayWindow s.cfg m 2 (s.cfg.frameSize + 1) p) d
        }.respond .ok false) := by
  have hf : frameEnd s.cfg ≤ s.cfg.storeMaxAddr := hfits
  have hge := frameEnd_ge hc
  have hend : frameEnd s.cfg + 1 = 2 + (s.cfg.frameSize + 1) := by
    simp only [frameEnd, lineRecordBase]; omega
  obtain ⟨q₁, d₁, hw, -⟩ := storeWrite_quiet hc hq (a := 2)
    (data := [cmdByte s.cfg s.cfg.cmdWrite s.vcom]) (by simp) (by simp; omega)
  have hq₁ := after_quiet _ m false q₁ []
    (storeWriteEvents s.cfg 2 [cmdByte s.cfg s.cfg.cmdWrite s.vcom]) d₁ hq
  obtain ⟨q₂, d₂, p, hrelay, -⟩ := relay_quiet hc hr hq₁ (a := 2) (lineCount := s.cfg.height)
    (lineLength := s.cfg.record) (n := s.cfg.frameSize + 1) hc.2.2.1 rfl (by omega)
  refine ⟨q₂, d₂, p, ?_⟩
  unfold execRefresh admitIn
  rw [if_pos hctrl]
  simp only [show ctrlSlot .write = 2 from rfl, hw]
  unfold toggleAndRelay
  simp only [toggleVcom_cfg, toggleVcom_bus, Memory.writeBytes_single]
  rw [show s.bus.store.mem.write 2 (cmdByte s.cfg s.cfg.cmdWrite s.vcom) = m from hm, hrelay]
  simp [Bus.after, State.toggleVcom, State.respond]

/-! ## Everything a command word can do -/

/-- What a command word does in a state between commands whose frame, once `Ready`, fits the store: it always
answers a next state, and that is one of these. -/
theorem acceptCommand_cases {s : State} (hc : s.cfg.Valid) (hr : s.cfg.relayMode = .directLink) (hq : s.bus.Quiet)
    (hready : s.ctrl = .ready → Fits s.cfg) (w : CommandWord) :
    ∃ t, acceptPacket (.command w) s = .next t ∧
      (t = s.refuseIllegal ∨ t = s.refuseState ∨
        (s.ctrl = .uninitialized ∧ decodeHC w = .ok .begin ∧ Fits s.cfg ∧ ∃ q d events,
          t = { s with
            ctrl := .ready
            bus := s.bus.after (beginMemory s.cfg s.bus.store.mem) false q [] events d }.respond .ok false) ∨
        (s.ctrl = .uninitialized ∧ decodeHC w = .ok .begin ∧ ¬ Fits s.cfg ∧ ∃ e : OutOfRange, e.bus.Quiet ∧
          e.bus.displayLog = s.bus.displayLog ∧ t = s.raiseOutOfRange e) ∨
        (s.ctrl = .ready ∧ Fits s.cfg ∧ t = s.respond .ok false) ∨
        (s.ctrl = .ready ∧ Fits s.cfg ∧ ∃ x y on q d events, decodeHC w = .ok (.setPixel x y on) ∧
          inBounds s.cfg (coordinate x) (coordinate y) = true ∧
          t = { s with
            bus := s.bus.after
              (s.bus.store.mem.write (pixAddress s.cfg (coordinate x) (coordinate y))
                (mutate (s.read (pixAddress s.cfg (coordinate x) (coordinate y))) (pixBit (coordinate x)) on))
              false q [] events d }.respond .ok false) ∨
        (s.ctrl = .ready ∧ Fits s.cfg ∧ ∃ q d events r,
          t = { s with
            bus := s.bus.after s.bus.store.mem s.bus.store.wel q [] events d }.respond .ok r) ∨
        (s.ctrl = .ready ∧ Fits s.cfg ∧ ∃ q d events,
          t = { s with
            vcom := !s.vcom
            bus := s.bus.after (clearMemory s.cfg s.vcom s.bus.store.mem) false q
              [(clearMemory s.cfg s.vcom s.bus.store.mem).readBytes 0 3] events d }.respond .ok false) ∨
        (s.ctrl = .ready ∧ Fits s.cfg ∧ ∃ q d events,
          t = { s with
            vcom := !s.vcom
            bus := s.bus.after (refreshMemory s.cfg s.vcom s.bus.store.mem) false q
              [(refreshMemory s.cfg s.vcom s.bus.store.mem).readBytes 2 (s.cfg.frameSize + 1)] events d
            }.respond .ok false)) := by
  cases hdec : decodeHC w with
  | error why => exact ⟨s.refuseIllegal, by simp only [acceptPacket, decode, hdec], Or.inl rfl⟩
  | ok i =>
    rw [show acceptPacket (.command w) s = exec i s by simp only [acceptPacket, decode, hdec]]
    have hhost : i = .begin ∨ (∃ x y on, i = .setPixel x y on) ∨ (∃ x y, i = .getPixel x y) ∨ i = .clear ∨
        i = .refresh := by
      unfold decodeHC at hdec
      repeat' split at hdec
      all_goals first
        | (cases hdec; simp)
        | cases hdec
    rcases hhost with rfl | ⟨x, y, on, rfl⟩ | ⟨x, y, rfl⟩ | rfl | rfl
    · by_cases hctrl : s.ctrl = .uninitialized
      · by_cases hfits : Fits s.cfg
        · obtain ⟨q, d, he⟩ := execBegin_ok hc hq hctrl hfits
          exact ⟨_, he, by right; right; left; exact ⟨hctrl, rfl, hfits, _, _, _, rfl⟩⟩
        · obtain ⟨k, q, d, -, -, -, he⟩ := execBegin_short hc hq hctrl hfits
          refine ⟨_, he, ?_⟩
          right; right; right; left
          exact ⟨hctrl, rfl, hfits, ⟨_, _, _⟩, after_quiet s.bus _ _ _ _ _ _ hq, by simp, rfl⟩
      · exact ⟨s.refuseState, by simp only [exec, execBegin, admitIn, if_neg hctrl], by right; left; rfl⟩
    · by_cases hctrl : s.ctrl = .ready
      · have hfits := hready hctrl
        by_cases hin : inBounds s.cfg (coordinate x) (coordinate y) = true
        · obtain ⟨q, d, p, he, -⟩ := execSetPixel_ok on hc hq hctrl hfits hin rfl
          exact ⟨_, he, by
            right; right; right; right; right; left
            exact ⟨hctrl, hfits, _, _, _, _, _, _, rfl, hin, rfl⟩⟩
        · exact ⟨_, (execPixel_clipped on hctrl (by simpa using hin)).1, by
            right; right; right; right; left; exact ⟨hctrl, hfits, rfl⟩⟩
      · exact ⟨s.refuseState, by simp only [exec, execSetPixel, admitIn, if_neg hctrl], by right; left; rfl⟩
    · by_cases hctrl : s.ctrl = .ready
      · have hfits := hready hctrl
        by_cases hin : inBounds s.cfg (coordinate x) (coordinate y) = true
        · obtain ⟨q, d, p, he, -⟩ := execGetPixel_ok hc hq hctrl hfits hin rfl
          exact ⟨_, he, by
            right; right; right; right; right; right; left
            exact ⟨hctrl, hfits, _, _, _, _, rfl⟩⟩
        · exact ⟨_, (execPixel_clipped false hctrl (by simpa using hin)).2, by
            right; right; right; right; left; exact ⟨hctrl, hfits, rfl⟩⟩
      · exact ⟨s.refuseState, by simp only [exec, execGetPixel, admitIn, if_neg hctrl], by right; left; rfl⟩
    · by_cases hctrl : s.ctrl = .ready
      · have hfits := hready hctrl
        obtain ⟨q, d, p, he, -⟩ := execClear_ok hc hr hq hctrl hfits rfl
        exact ⟨_, he, by
          right; right; right; right; right; right; right; left
          exact ⟨hctrl, hfits, _, _, _, rfl⟩⟩
      · exact ⟨s.refuseState, by simp only [exec, execClear, admitIn, if_neg hctrl], by right; left; rfl⟩
    · by_cases hctrl : s.ctrl = .ready
      · have hfits := hready hctrl
        obtain ⟨q, d, p, he⟩ := execRefresh_ok hc hr hq hctrl hfits rfl
        exact ⟨_, he, by
          right; right; right; right; right; right; right; right
          exact ⟨hctrl, hfits, _, _, _, rfl⟩⟩
      · exact ⟨s.refuseState, by simp only [exec, execRefresh, admitIn, if_neg hctrl], by right; left; rfl⟩

end Sys2Proof.Machine
end

