-- ==== Sys2Proof/Laws/Devices.lean ====
section
/-! SUPPORT. Every bus operation is a list of events to which the devices react (spec/00_scope.md R12), and what
every reaction keeps. -/

namespace Sys2Proof.Machine

namespace Bus

theorem replay_append (c : Config) (xs ys : List BusEvent) (b : Bus) :
    b.replay c (xs ++ ys) = (b.replay c xs).replay c ys := by
  simp [replay]

theorem Follows.refl (c : Config) (b : Bus) : Follows c b b := ⟨[], by simp [replay]⟩

theorem Follows.trans {c : Config} {x y z : Bus} (h₁ : Follows c x y) (h₂ : Follows c y z) : Follows c x z := by
  obtain ⟨e₁, ht₁, hb₁⟩ := h₁
  obtain ⟨e₂, ht₂, hb₂⟩ := h₂
  exact ⟨e₁ ++ e₂, by rw [ht₂, ht₁, List.append_assoc], by rw [replay_append, ← hb₁, ← hb₂]⟩

theorem follows_emit (c : Config) (e : BusEvent) (b : Bus) : Follows c b (b.emit c e) := ⟨[e], rfl, rfl⟩

theorem follows_send (c : Config) (o : Byte) (b : Bus) : Follows c b (b.send c o) := follows_emit c _ b

theorem follows_foldl {α : Type} (c : Config) (f : Bus → α → Bus) (hf : ∀ b x, Follows c b (f b x)) (xs : List α)
    (b : Bus) : Follows c b (xs.foldl f b) := by
  induction xs generalizing b with
  | nil => exact Follows.refl c b
  | cons x xs ih => exact (hf b x).trans (ih (f b x))

theorem follows_sendAll (c : Config) (bytes : List Byte) (b : Bus) : Follows c b (b.sendAll c bytes) :=
  follows_foldl c _ (fun b o => follows_send c o b) bytes b

theorem follows_pump (c : Config) (n : Nat) (b : Bus) : Follows c b (b.pump c n) := by
  induction n generalizing b with
  | zero => exact Follows.refl c b
  | succ n ih => exact (follows_send c _ b).trans (ih _)

theorem follows_readTransaction (c : Config) (a n : Nat) (b : Bus) : Follows c b (b.readTransaction c a n) :=
  (((follows_emit c _ b).trans (follows_sendAll c _ _)).trans (follows_pump c n _)).trans (follows_emit c _ _)

theorem follows_writeEnable (c : Config) (b : Bus) : Follows c b (b.writeEnable c) :=
  ((follows_emit c _ b).trans (follows_send c _ _)).trans (follows_emit c _ _)

theorem follows_writeTransaction (c : Config) (a : Nat) (data : List Byte) (b : Bus) :
    Follows c b (b.writeTransaction c a data) :=
  (((follows_emit c _ b).trans (follows_sendAll c _ _)).trans (follows_sendAll c data _)).trans (follows_emit c _ _)

theorem follows_relaySteps (c : Config) (a n l : Nat) (b : Bus) : Follows c b (b.relaySteps c a n l) :=
  (((((follows_emit c _ b).trans (follows_sendAll c _ _)).trans (follows_emit c _ _)).trans
    (follows_pump c _ _)).trans (follows_emit c _ _)).trans (follows_emit c _ _)

theorem follows_showFrame (c : Config) (frame : List Byte) (b : Bus) : Follows c b (b.showFrame c frame) :=
  ((follows_emit c _ b).trans (follows_foldl c _ (fun b _ => follows_emit c _ b) frame _)).trans (follows_emit c _ _)

/-! ## What every reaction keeps: memory in canonical form and inside the address space (R30) -/

/-- Memory is in canonical form and lists no address past `STORE_MAX_ADDR`. -/
abbrev MemoryInv (c : Config) (m : Memory) : Prop := m.wf ∧ ∀ cell ∈ m, cell.1 ≤ c.storeMaxAddr

theorem accept_keeps {c : Config} {st : Store} (h : MemoryInv c st.mem) (n : Nat) (v : Byte) :
    MemoryInv c (st.accept c n v).mem := by
  unfold Store.accept
  split
  · next hp => exact ⟨Memory.wf_write h.1 _ _, Memory.below_write h.2 hp _⟩
  · exact h

theorem receiveHeader_mem (c : Config) (o : Byte) (st : Store) : (st.receiveHeader c o).mem = st.mem := by
  unfold Store.receiveHeader
  simp only
  split
  · split
    · rfl
    · split <;> rfl
  · rfl

theorem react_keeps {c : Config} {st : Store} (h : MemoryInv c st.mem) (x : Bool) (n : Nat) (e : BusEvent) :
    MemoryInv c (st.react c x n e).mem := by
  cases e with
  | sselUp => exact h
  | sselDown => exact h
  | dselUp => exact h
  | dselDown => exact h
  | byte o i =>
    cases x with
    | false => exact h
    | true =>
      rw [react_byte_selected, Store.clock]
      split
      · rw [receiveHeader_mem]; exact h
      · exact h
      · exact accept_keeps h n o

theorem replay_keeps {c : Config} (events : List BusEvent) {b : Bus} (h : MemoryInv c b.store.mem) :
    MemoryInv c (b.replay c events).store.mem := by
  induction events generalizing b with
  | nil => exact h
  | cons e events ih => exact ih (react_keeps h _ _ e)

theorem Follows.keeps {c : Config} {b b' : Bus} (h : Follows c b b') (hm : MemoryInv c b.store.mem) :
    MemoryInv c b'.store.mem := by
  obtain ⟨events, -, hb⟩ := h
  rw [hb]
  exact replay_keeps events hm

end Bus

/-! ## Store access and the bulk writes -/

theorem follows_storeWrite {c : Config} {a : Nat} {data : List Byte} {b b' : Bus}
    (h : storeWrite c a data b = .ok b') : Bus.Follows c b b' := by
  unfold storeWrite at h
  split at h
  · cases h
    exact (Bus.follows_writeEnable c b).trans (Bus.follows_writeTransaction c a data _)
  · cases h

theorem storeWrite_error_bus {c : Config} {a : Nat} {data : List Byte} {b : Bus} {e : OutOfRange}
    (h : storeWrite c a data b = .error e) : e.bus = b := by
  unfold storeWrite at h
  split at h <;> cases h
  rfl

theorem follows_storeRead {c : Config} {a n : Nat} {b b' : Bus} {bytes : Fin n → Byte}
    (h : storeRead c a n b = .ok (bytes, b')) : Bus.Follows c b b' := by
  unfold storeRead at h
  split at h <;> cases h
  exact Bus.follows_readTransaction c a n b

theorem storeRead_error_bus {c : Config} {a n : Nat} {b : Bus} {e : OutOfRange}
    (h : storeRead c a n b = .error e) : e.bus = b := by
  unfold storeRead at h
  split at h <;> cases h
  rfl

theorem follows_writeRecords {c : Config} (rows : List Nat) :
    ∀ {b : Bus}, (∀ b', writeRecords c rows b = .ok b' → Bus.Follows c b b') ∧
      ∀ e, writeRecords c rows b = .error e → Bus.Follows c b e.bus := by
  induction rows with
  | nil =>
    intro b
    refine ⟨fun b' h => ?_, fun e h => by cases h⟩
    cases h
    exact Bus.Follows.refl c b
  | cons y rows ih =>
    intro b
    simp only [writeRecords]
    cases h₁ : storeWrite c (recAddr c y) (blankRecord c y) b with
    | ok b₁ =>
      have f := follows_storeWrite h₁
      exact ⟨fun b' h => f.trans (ih.1 b' h), fun e h => f.trans (ih.2 e h)⟩
    | error e₁ =>
      refine ⟨fun b' h => (nomatch h), fun e h => ?_⟩
      cases h
      rw [storeWrite_error_bus h₁]
      exact Bus.Follows.refl c b

theorem follows_relay {c : Config} {a n l : Nat} {b b' : Bus} (h : relay c a n l b = .next b') :
    Bus.Follows c b b' := by
  unfold relay at h
  split at h
  · cases h
  · split at h
    · cases h
    · cases h
      exact Bus.follows_relaySteps c a n l b

/-! ## Reset -/

/-- Reset leaves every byte of the store (R136, R139), whatever was in progress. -/
theorem assertReset_mem (c : Config) (b : Bus) : (b.assertReset c).store.mem = b.store.mem := by
  unfold Bus.assertReset
  cases b.dsel <;> cases b.ssel <;> rfl

theorem assertReset_quiet (c : Config) (b : Bus) : (b.assertReset c).Quiet := by
  unfold Bus.assertReset
  refine ⟨?_, ?_, rfl, rfl, rfl⟩ <;> cases hd : b.dsel <;> cases hs : b.ssel <;> simp [hd, hs]

theorem assertReset_displayLog (c : Config) (b : Bus) : (b.assertReset c).displayLog = [] := rfl

theorem assertReset_wel (c : Config) (b : Bus) :
    (b.assertReset c).store.wel = if b.store.wel || b.ssel then Config.cutLatch b.draws else false := rfl

end Sys2Proof.Machine
end

