-- ==== Sys2Proof/Laws/Cuts.lean ====
section
/-! SUPPORT. What a prefix of a command's bus events leaves in the store (spec/70_reset_and_hazards.md R138). -/

namespace Sys2Proof.Machine

/-- The bus after a cut, before reset acts on it. -/
def Bus.cutAt (c : Config) (events : List BusEvent) (n : Nat) (midByte : Bool) (b : Bus) : Bus :=
  if midByte then (b.replay c (events.take n)).cutDuring c events[n]? else b.replay c (events.take n)

theorem resetDuring_read (s : State) (events : List BusEvent) (n : Nat) (midByte : Bool) (x : Nat) :
    (s.resetDuring events n midByte).read x = (s.bus.cutAt s.cfg events n midByte).store.mem.read x := by
  simp only [State.read, State.resetDuring, assertReset_bus, assertReset_mem]
  rfl

/-- A cut inside the first of two parts of the events does not see the second. -/
theorem cutAt_append_lt (c : Config) (xs ys : List BusEvent) {n : Nat} (midByte : Bool) (b : Bus) (h : n < xs.length) :
    b.cutAt c (xs ++ ys) n midByte = b.cutAt c xs n midByte := by
  unfold Bus.cutAt
  rw [List.take_append_of_le_length (by omega), List.getElem?_append_left h]

/-- A cut inside the second part comes after all of the first. -/
theorem cutAt_append_ge (c : Config) (xs ys : List BusEvent) {n : Nat} (midByte : Bool) (b : Bus) (h : xs.length ≤ n) :
    b.cutAt c (xs ++ ys) n midByte = (b.replay c xs).cutAt c ys (n - xs.length) midByte := by
  unfold Bus.cutAt
  rw [List.getElem?_append_right h, List.take_append, List.take_of_length_le h, Bus.replay_append]

/-- Inside no write a cut byte-period touches nothing. -/
theorem cutDuring_mem (c : Config) (e : Option BusEvent) {b : Bus} (h : b.store.mode ≠ .writing) :
    (b.cutDuring c e).store.mem = b.store.mem := by
  unfold Bus.cutDuring
  split
  · simp [h]
  · rfl

/-- A cut byte-period touches at most the byte at the pointer. -/
theorem cutDuring_read (c : Config) (e : Option BusEvent) (b : Bus) {x : Nat} (h : x ≠ b.store.ptr.toNat) :
    (b.cutDuring c e).store.mem.read x = b.store.mem.read x := by
  unfold Bus.cutDuring
  split
  · split
    · simp only [Store.accept]
      split
      · exact Memory.read_write_other _ _ _ h
      · rfl
    · rfl
  · rfl

/-! ## Reads and relays -/

/-- A bus on which the store is reading, or deselected. -/
abbrev Bus.Passive (b : Bus) : Prop := b.store.mode ≠ .writing ∧ (b.store.mode = .reading ∨ b.ssel = false)

theorem replay_passive (c : Config) : ∀ (events : List BusEvent) {b : Bus}, BusEvent.sselUp ∉ events → b.Passive →
    (b.replay c events).store.mem = b.store.mem ∧ (b.replay c events).store.mode ≠ .writing := by
  intro events
  induction events with
  | nil => intro b _ h; exact ⟨rfl, h.1⟩
  | cons e events ih =>
    intro b hn h
    simp only [List.mem_cons, not_or] at hn
    have step : (b.emit c e).Passive ∧ (b.emit c e).store.mem = b.store.mem := by
      cases e with
      | sselUp => exact absurd rfl hn.1
      | sselDown => simp [Bus.Passive]
      | dselUp => simpa [Bus.Passive] using h
      | dselDown => simpa [Bus.Passive] using h
      | byte o i =>
        cases hs : b.ssel with
        | false => simpa [Bus.Passive, hs] using h.1
        | true =>
          have hr : b.store.mode = .reading := by simpa [hs] using h.2
          simp [Bus.Passive, hs, Store.clock, hr, Store.advance]
    obtain ⟨h₁, h₂⟩ := ih hn.2 step.1
    exact ⟨h₁.trans step.2, h₂⟩

/-- No prefix of a read or of a relay touches a byte. -/
theorem cutAt_reading (c : Config) (a : Nat) (more : List BusEvent) (hmore : BusEvent.sselUp ∉ more) (n : Nat)
    (midByte : Bool) {b : Bus} (hq : b.Quiet) :
    (b.cutAt c (.sselUp :: headerEvents c.opRead a ++ more) n midByte).store.mem = b.store.mem := by
  have key : (b.replay c ((.sselUp :: headerEvents c.opRead a ++ more).take n)).store.mem = b.store.mem ∧
      (b.replay c ((.sselUp :: headerEvents c.opRead a ++ more).take n)).store.mode ≠ .writing := by
    obtain ⟨ssel, dsel, ⟨mem, wel, ptr, mode, header⟩, shiftIn, log, trace, draws⟩ := b
    obtain ⟨h₁, h₂, h₃, h₄, h₅⟩ := hq
    simp only at h₁ h₂ h₃ h₄ h₅
    subst h₁ h₂ h₃ h₄ h₅
    have hcases : n = 0 ∨ n = 1 ∨ n = 2 ∨ n = 3 ∨ ∃ k, n = k + 4 := by
      rcases Nat.lt_or_ge n 4 with h | h
      · omega
      · exact Or.inr (Or.inr (Or.inr (Or.inr ⟨n - 4, by omega⟩)))
    rcases hcases with rfl | rfl | rfl | rfl | ⟨k, rfl⟩
    · simp [Bus.replay]
    · simp [Bus.replay]
    · simp [Bus.replay, headerEvents, Store.clock, Store.receiveHeader]
    · simp [Bus.replay, headerEvents, Store.clock, Store.receiveHeader]
    · have hsplit : (BusEvent.sselUp :: headerEvents c.opRead a ++ more).take (k + 4) =
          (.sselUp :: headerEvents c.opRead a) ++ more.take k := by
        simp [headerEvents]
      rw [hsplit, Bus.replay_append]
      have harm : ∀ b : Bus, b = Bus.replay c (.sselUp :: headerEvents c.opRead a)
          ⟨false, false, ⟨mem, wel, ptr, .idle, []⟩, [], log, trace, draws⟩ →
          b.store.mode = .reading ∧ b.store.mem = mem := by
        intro b hb
        rw [hb]
        simp [Bus.replay, headerEvents, Store.clock, Store.receiveHeader]
      obtain ⟨hr, hm⟩ := harm _ rfl
      obtain ⟨h₁, h₂⟩ := replay_passive c (more.take k) (fun h => hmore (List.mem_of_mem_take h))
        ⟨by rw [hr]; simp, Or.inl hr⟩
      exact ⟨h₁.trans hm, h₂⟩
  unfold Bus.cutAt
  split
  · rw [cutDuring_mem c _ key.2, key.1]
  · exact key.1

theorem sselUp_not_mem_dataEvents (m : Memory) (a n : Nat) (p : Nat → Byte) :
    BusEvent.sselUp ∉ dataEvents m a n p := by
  simp [dataEvents]

theorem cutAt_readWindow (c : Config) (m : Memory) (a k : Nat) (p : Nat → Byte) (n : Nat) (midByte : Bool) {b : Bus}
    (hq : b.Quiet) : (b.cutAt c (readWindow c m a k p) n midByte).store.mem = b.store.mem := by
  have := cutAt_reading c a (dataEvents m a k p ++ [.sselDown]) (by simp [dataEvents]) n midByte hq
  simpa [readWindow] using this

theorem cutAt_relayWindow (c : Config) (m : Memory) (a k : Nat) (p : Nat → Byte) (n : Nat) (midByte : Bool) {b : Bus}
    (hq : b.Quiet) : (b.cutAt c (relayWindow c m a k p) n midByte).store.mem = b.store.mem := by
  have := cutAt_reading c a (.dselUp :: dataEvents m a k p ++ [.dselDown, .sselDown]) (by simp [dataEvents]) n midByte hq
  simpa [relayWindow] using this

/-! ## Writes -/

theorem replay_writing (c : Config) (data : List Byte) : ∀ {b : Bus}, b.ssel = true → b.dsel = false →
    b.store.mode = .writing → b.replay c (data.map fun v => BusEvent.byte v none) = b.sendAll c data := by
  induction data with
  | nil => intro b _ _ _; rfl
  | cons v data ih =>
    intro b hs hd hm
    have hsend : b.emit c (.byte v none) = b.send c v := by simp [Bus.send, hs, Store.driven, hm]
    have hmode : (b.send c v).store.mode = .writing := by
      rw [send_writing hs hd hm]
      simp only [Store.advance, Store.accept]
      split <;> exact hm
    have := ih (b := b.send c v) (by simpa [Bus.send] using hs) (by simpa [Bus.send] using hd) hmode
    simpa [Bus.replay, Bus.sendAll, hsend] using this

/-- The seven events before the first data byte of STORE.WRITE. -/
theorem replay_writeHeader {c : Config} (hop : c.opRead ≠ c.opWrite) {b : Bus} (hq : b.Quiet) (a : Nat) :
    b.replay c (wrenWindow c ++ .sselUp :: headerEvents c.opWrite a) =
      { b with
        ssel := true
        store :=
          { mem := b.store.mem, wel := true, ptr := BitVec.ofNat 16 a, mode := .writing
            header := [c.opWrite, addrHigh (BitVec.ofNat 16 a), addrLow (BitVec.ofNat 16 a)] }
        trace := b.trace ++ (wrenWindow c ++ .sselUp :: headerEvents c.opWrite a)
        draws := b.draws + 7 } := by
  obtain ⟨ssel, dsel, ⟨mem, wel, ptr, mode, header⟩, shiftIn, log, trace, draws⟩ := b
  obtain ⟨h₁, h₂, h₃, h₄, h₅⟩ := hq
  simp only at h₁ h₂ h₃ h₄ h₅
  subst h₁ h₂ h₃ h₄ h₅
  simp [Bus.replay, wrenWindow, headerEvents, Bus.emit, BusEvent.ssel, BusEvent.dsel, BusEvent.shiftIn,
    BusEvent.displayLog, Store.react, Store.select, Store.deselect, Store.clock, Store.receiveHeader, addrOf_high_low,
    hop.symm]

theorem length_storeWriteEvents (c : Config) (a : Nat) (data : List Byte) :
    (storeWriteEvents c a data).length = data.length + 8 := by
  simp [storeWriteEvents, wrenWindow, writeWindow, headerEvents]

/-- A prefix of STORE.WRITE short of its last event: the data bytes sent so far are stored, the pointer is at the
next, and before the first of them the store is not writing. -/
theorem replay_storeWrite_take {c : Config} (hc : c.Valid) {b : Bus} (hq : b.Quiet) {a : Nat} {data : List Byte}
    (hlen : 1 ≤ data.length) (hn : a + data.length ≤ c.storeMaxAddr + 1) {n : Nat} (h : n < data.length + 8) :
    (b.replay c ((storeWriteEvents c a data).take n)).store.mem = b.store.mem.writeBytes a (data.take (n - 7)) ∧
    (n < 7 → (b.replay c ((storeWriteEvents c a data).take n)).store.mode ≠ .writing) ∧
    (7 ≤ n → n < data.length + 7 →
      (b.replay c ((storeWriteEvents c a data).take n)).store.ptr.toNat = a + (n - 7)) := by
  have hmax := hc.2.2.2.2.1
  have hop := hc.2.2.2.2.2.2.2.2.1
  by_cases h7 : n < 7
  · refine ⟨?_, fun _ => ?_, fun h _ => absurd h7 (by omega)⟩ <;>
    · obtain ⟨ssel, dsel, ⟨mem, wel, ptr, mode, header⟩, shiftIn, log, trace, draws⟩ := b
      obtain ⟨h₁, h₂, h₃, h₄, h₅⟩ := hq
      simp only at h₁ h₂ h₃ h₄ h₅
      subst h₁ h₂ h₃ h₄ h₅
      rcases (by omega : n = 0 ∨ n = 1 ∨ n = 2 ∨ n = 3 ∨ n = 4 ∨ n = 5 ∨ n = 6) with
        rfl | rfl | rfl | rfl | rfl | rfl | rfl <;>
      simp [Bus.replay, storeWriteEvents, wrenWindow, writeWindow, headerEvents, Store.clock, Store.receiveHeader,
        Memory.writeBytes, Store.select, Store.deselect]
  · obtain ⟨k, rfl⟩ : ∃ k, n = k + 7 := ⟨n - 7, by omega⟩
    have hsplit : (storeWriteEvents c a data).take (k + 7) =
        (wrenWindow c ++ .sselUp :: headerEvents c.opWrite a) ++ (data.take k).map fun v => BusEvent.byte v none := by
      simp only [storeWriteEvents, wrenWindow, writeWindow, headerEvents, List.cons_append, List.nil_append,
        List.take_succ_cons]
      rw [List.take_append_of_le_length (by simp; omega), List.map_take]
    have hk : (data.take k).length = k := by rw [List.length_take]; omega
    rw [hsplit, Bus.replay_append]
    generalize hR : b.replay c (wrenWindow c ++ .sselUp :: headerEvents c.opWrite a) = w
    have hW := hR.symm.trans (replay_writeHeader hop hq a)
    have hs : w.ssel = true := by rw [hW]
    have hd : w.dsel = false := by rw [hW]; exact hq.2.1
    have hm : w.store.mode = .writing := by rw [hW]
    have hmem : w.store.mem = b.store.mem := by rw [hW]
    obtain ⟨q, hsend, hp⟩ := sendAll_writing hmax (data.take k) hs hd hm (by rw [hW])
      (by rw [hW]; exact toNat_ofNat_addr (by omega)) (a := a) (by omega)
    rw [replay_writing c _ hs hd hm, hsend, hmem]
    rw [hk] at hp
    exact ⟨rfl, fun h => absurd h h7, fun _ hlt => by rw [Nat.add_sub_cancel]; exact hp (by omega)⟩

/-- The whole of STORE.WRITE as a replay. -/
theorem replay_storeWrite {c : Config} (hc : c.Valid) {b : Bus} (hq : b.Quiet) {a : Nat} {data : List Byte}
    (hlen : 1 ≤ data.length) (hn : a + data.length ≤ c.storeMaxAddr + 1) :
    (b.replay c (storeWriteEvents c a data)).Quiet ∧
    (b.replay c (storeWriteEvents c a data)).store.mem = b.store.mem.writeBytes a data := by
  obtain ⟨q, d, hw, -⟩ := storeWrite_quiet hc hq hlen hn
  obtain ⟨events, ht, hb⟩ := follows_storeWrite hw
  rw [after_trace, List.append_cancel_left_eq] at ht
  rw [ht, ← hb]
  exact ⟨after_quiet _ _ _ _ _ _ _ hq, rfl⟩

theorem cutMemory_zero (calls : List (Nat × List Byte)) (m : Memory) : cutMemory calls 0 m = m := by
  induction calls generalizing m with
  | nil => rfl
  | cons call calls ih => simp [cutMemory, ih, Memory.writeBytes]

/-- A cut of a list of STORE.WRITE calls with events after them that touch no byte (R138). -/
theorem cutAt_calls {c : Config} (hc : c.Valid) (tail : List BusEvent)
    (htail : ∀ (b : Bus) (n : Nat) (mid : Bool), b.Quiet → (b.cutAt c tail n mid).store.mem = b.store.mem) :
    ∀ (calls : List (Nat × List Byte)) {b : Bus} (n : Nat) (mid : Bool) (x : Nat), b.Quiet →
      (∀ call ∈ calls, 1 ≤ call.2.length ∧ call.1 + call.2.length ≤ c.storeMaxAddr + 1) →
      mid = false ∨ cutAddress calls n ≠ some x →
      (b.cutAt c ((calls.flatMap fun call => storeWriteEvents c call.1 call.2) ++ tail) n mid).store.mem.read x =
        (cutMemory calls n b.store.mem).read x := by
  intro calls
  induction calls with
  | nil => intro b n mid x hq _ _; simp only [List.flatMap_nil, List.nil_append, htail b n mid hq, cutMemory]
  | cons call calls ih =>
    obtain ⟨a, data⟩ := call
    intro b n mid x hq hcalls hx
    obtain ⟨hlen, hfit⟩ := hcalls (a, data) (by simp)
    have hE := length_storeWriteEvents c a data
    simp only [List.flatMap_cons, List.append_assoc]
    by_cases hn : n < data.length + 8
    · obtain ⟨h₁, h₂, h₃⟩ := replay_storeWrite_take hc hq hlen hfit hn
      rw [cutMemory, show n - (data.length + 8) = 0 by omega, cutMemory_zero, ← h₁,
        cutAt_append_lt c _ _ mid b (by omega)]
      unfold Bus.cutAt
      cases mid with
      | false => rfl
      | true =>
        simp only [if_true]
        by_cases h7 : n < 7
        · rw [cutDuring_mem c _ (h₂ h7)]
        · by_cases hlast : n < data.length + 7
          · apply cutDuring_read
            rw [h₃ (by omega) hlast]
            intro he
            simp only [cutAddress, if_pos hn, if_pos (show 7 ≤ n ∧ n < data.length + 7 by omega)] at hx
            simp [he] at hx
          · have : n = data.length + 7 := by omega
            have hlastE : (storeWriteEvents c a data)[n]? = some .sselDown := by
              subst this
              simp only [storeWriteEvents, wrenWindow, writeWindow, headerEvents, List.cons_append, List.nil_append,
                List.getElem?_cons_succ]
              rw [List.getElem?_append_right (by simp)]
              simp
            rw [hlastE]
            rfl
    · obtain ⟨hq', hm'⟩ := replay_storeWrite hc hq hlen hfit
      rw [cutAt_append_ge c _ _ mid b (by omega), hE, ih (n - (data.length + 8)) mid x hq' (fun call h => hcalls call (by simp [h]))
        (by simpa only [cutAddress, if_neg hn] using hx), hm', cutMemory,
        List.take_of_length_le (by omega : data.length ≤ n - 7)]

/-! ## The calls of the commands -/

theorem recordEvents_eq (c : Config) :
    recordEvents c = (recordCalls c).flatMap fun call => storeWriteEvents c call.1 call.2 := by
  simp [recordEvents, recordCalls, List.flatMap_map]

/-- Where the frame fits, BEGIN makes all its calls; else the header's and those of the rows before the first that
does not fit. -/
theorem beginCalls_eq {c : Config} (hc : c.Valid) {k : Nat} (hk : k ≤ c.height)
    (hbefore : ∀ y, y < k → recAddr c y + c.record ≤ c.storeMaxAddr + 1)
    (hafter : k < c.height → c.storeMaxAddr + 1 < recAddr c k + c.record) :
    beginCalls c =
      (0, [c.cmdClear, c.marker, c.cmdWrite]) :: (List.range k).map fun y => (recAddr c y, blankRecord c y) := by
  have h2 : 2 ≤ c.storeMaxAddr := hc.2.2.2.2.2.2.2.2.2.2.2
  have hsplit : recordCalls c =
      ((List.range k).map fun y => (recAddr c y, blankRecord c y)) ++
        (List.range' k (c.height - k)).map fun y => (recAddr c y, blankRecord c y) := by
    rw [recordCalls, ← List.map_append]
    congr 1
    rw [List.range_eq_range', List.range_eq_range']
    have := List.range'_append_1 (s := 0) (m := k) (n := c.height - k)
    rw [Nat.zero_add, Nat.add_sub_cancel' hk] at this
    exact this.symm
  have hrest : ((List.range' k (c.height - k)).map fun y => (recAddr c y, blankRecord c y)).takeWhile
      (fun call => decide (call.1 + call.2.length ≤ c.storeMaxAddr + 1)) = [] := by
    by_cases h : k < c.height
    · obtain ⟨n, hn⟩ : ∃ n, c.height - k = n + 1 := ⟨c.height - k - 1, by omega⟩
      have := hafter h
      rw [hn, List.range'_succ, List.map_cons, List.takeWhile_cons_of_neg]
      simpa [length_blankRecord] using this
    · simp [show c.height - k = 0 by omega]
  rw [beginCalls, List.takeWhile_cons_of_pos (by simp; omega), hsplit, List.takeWhile_append_of_pos, hrest,
    List.append_nil]
  intro call hcall
  obtain ⟨y, hy, rfl⟩ := List.mem_map.mp hcall
  simpa [length_blankRecord] using hbefore y (List.mem_range.mp hy)

/-- A command word cut by reset: the bus events it would make are cut (R138). -/
theorem acceptCut_read {s t : State} {w : CommandWord} {events : List BusEvent} (n : Nat) (midByte : Bool)
    (h : acceptPacket (.command w) s = .next t) (htrace : t.bus.trace = s.bus.trace ++ events) :
    acceptCut w n midByte s = .next (s.resetDuring events n midByte) := by
  simp only [acceptCut, h, htrace, List.drop_left]

end Sys2Proof.Machine
end

