-- ==== Sys2Proof/Laws/Frames.lean ====
section
/-! SUPPORT. The LineRecords of a display frame: building them, checking them and reading their data are inverse to
each other (spec/30_encoding.md R59). -/

namespace Sys2Proof

open Machine

theorem length_frameRecords (c : Config) (n : Nat) : ∀ (y : Nat) (data : List Byte),
    data.length = n * c.rowBytes → (frameRecords c n y data).length = n * c.record := by
  induction n with
  | zero => intro y data _; simp [frameRecords]
  | succ n ih =>
    intro y data h
    rw [Nat.succ_mul] at h
    have := ih (y + 1) (data.drop c.rowBytes) (by rw [List.length_drop]; omega)
    simp only [frameRecords, List.length_cons, List.length_append, List.length_take, this, Nat.succ_mul, Config.record]
    omega

theorem drop_row (row : List Byte) (t : Byte) (more : List Byte) :
    (row ++ t :: more).drop row.length = t :: more := by
  rw [List.drop_append_of_le_length (Nat.le_refl _), List.drop_length, List.nil_append]

/-- The data bytes of what was built are the data bytes it was built from, and it passes the check. -/
theorem framed_frameRecords (c : Config) (n : Nat) : ∀ (y : Nat) (data : List Byte),
    data.length = n * c.rowBytes →
    framed c n y (frameRecords c n y data) = true ∧ recordData c n (frameRecords c n y data) = data := by
  induction n with
  | zero =>
    intro y data h
    have : data = [] := List.eq_nil_of_length_eq_zero (by omega)
    simp [frameRecords, framed, recordData, this]
  | succ n ih =>
    intro y data h
    rw [Nat.succ_mul] at h
    have hrow : (data.take c.rowBytes).length = c.rowBytes := by rw [List.length_take]; omega
    obtain ⟨h₁, h₂⟩ := ih (y + 1) (data.drop c.rowBytes) (by rw [List.length_drop]; omega)
    have hdrop := drop_row (data.take c.rowBytes) trailerByte (frameRecords c n (y + 1) (data.drop c.rowBytes))
    rw [hrow] at hdrop
    refine ⟨?_, ?_⟩
    · simp only [frameRecords, framed, if_true, hdrop, h₁]
    · have hnext : (frameRecords c (n + 1) y data).drop c.record = frameRecords c n (y + 1) (data.drop c.rowBytes) := by
        rw [Config.record, show c.rowBytes + 2 = 1 + (c.rowBytes + 1) by omega, ← List.drop_drop, ← List.drop_drop]
        simp only [frameRecords, List.drop_succ_cons, List.drop_zero, hdrop]
      rw [recordData, hnext, h₂]
      simp only [frameRecords, List.drop_succ_cons, List.drop_zero]
      rw [List.take_append_of_le_length (by omega), List.take_take, Nat.min_self, List.take_append_drop]

/-- What passes the check is what is built from its data bytes, and there are `rowBytes` of them for each row. -/
theorem frameRecords_of_framed (c : Config) (n : Nat) : ∀ (y : Nat) (records : List Byte),
    framed c n y records = true →
    frameRecords c n y (recordData c n records) = records ∧ (recordData c n records).length = n * c.rowBytes := by
  induction n with
  | zero =>
    intro y records h
    cases records with
    | nil => simp [frameRecords, recordData]
    | cons r rs => simp [framed] at h
  | succ n ih =>
    intro y records h
    cases records with
    | nil => cases h
    | cons line rest =>
      simp only [framed] at h
      split at h
      · next hl =>
        split at h
        · cases h
        · next trailer more hd =>
          split at h
          · next ht =>
            obtain ⟨h₁, h₂⟩ := ih (y + 1) more h
            have hlen : c.rowBytes < rest.length := by
              have := congrArg List.length hd
              simp only [List.length_drop, List.length_cons] at this
              omega
            have hnext : (line :: rest).drop c.record = more := by
              rw [Config.record, show c.rowBytes + 2 = 1 + (c.rowBytes + 1) by omega, ← List.drop_drop,
                ← List.drop_drop]
              simp only [List.drop_succ_cons, List.drop_zero, hd]
            have hrow : (rest.take c.rowBytes).length = c.rowBytes := by rw [List.length_take]; omega
            rw [recordData, hnext]
            simp only [frameRecords, List.drop_succ_cons, List.drop_zero]
            rw [List.take_left' hrow, List.drop_left' hrow, h₁, ← hl, ← ht, ← hd, List.take_append_drop]
            refine ⟨rfl, ?_⟩
            rw [List.length_append, h₂, hrow, Nat.succ_mul, Nat.add_comm]
          · cases h
      · cases h

end Sys2Proof
end

