-- ==== Sys2Proof/Laws/PerInstr.lean ====
section
/-! SUPPORT. Statements about the instructions as syntax, one lemma per constructor. -/

namespace Sys2Proof.Laws.TableRow

/-- The bytes of a wire format; a command word has none. -/
def wireBytes : Packet → List Byte
  | .command _ => []
  | .storeWindow sent => sent
  | .displayWindow shifted => shifted

/-- The encoded word of a host command matches its row's mask and match (R54). -/
def MatchesCommand (c : Config) (i : Instr) (m : CommandWord) : Prop :=
  ∃ w, encode c i = .command w ∧ w &&& 0xFE00000000 = m

/-- The bytes of a store transaction: the row's opcode, the address high byte first, and the length (R57). -/
def MatchesStore (c : Config) (i : Instr) (op : Byte) (a : Addr) (data : Nat) : Prop :=
  ∃ rest, encode c i = .storeWindow (op :: addrHigh a :: addrLow a :: rest) ∧ rest.length = data

/-- The bytes of a display frame: a command byte of the row's template, and the length (R59, R60). -/
def MatchesFrame (c : Config) (i : Instr) (template : Byte) (length : Nat) : Prop :=
  ∃ cmd rest, encode c i = .displayWindow (cmd :: rest) ∧ cmd &&& ~~~c.vcomMask = template ∧
    rest.length = length

/-- The encoding of a well-formed instruction is one of its row of spec/opcode_table.json. -/
def Statement (i : Instr) : Prop :=
  ∀ c : Config, c.Valid → i.wellFormed c = true →
    match i with
    | .begin => MatchesCommand c i 0x1000000000
    | .setPixel _ _ _ => MatchesCommand c i 0x2000000000
    | .getPixel _ _ => MatchesCommand c i 0x3000000000
    | .clear => MatchesCommand c i 0x4000000000
    | .refresh => MatchesCommand c i 0x5000000000
    | .sbRead a n => MatchesStore c i c.opRead a n
    | .sbWren => wireBytes (encode c i) = [c.opWren]
    | .sbWrite a data => MatchesStore c i c.opWrite a data.length
    | .dfWrite _ _ =>
      MatchesFrame c i c.cmdWrite c.frameSize ∧ framed c c.height 0 (wireBytes (encode c i)).tail = true
    | .dfClear _ _ _ => MatchesFrame c i c.cmdClear 2

/-- The mask of R54 keeps bits 33 and above. -/
theorem tableMask_getLsbD : ∀ k : Fin 40, (0xFE00000000 : CommandWord).getLsbD k.val = decide (33 ≤ k.val) := by
  decide

/-- `OP` and `RSV` are all that the mask of R54 keeps of a packed word. -/
theorem packHC_and_mask (op : BitVec 4) (on : Bool) (x y : Coord) :
    packHC op on x y &&& 0xFE00000000 = op ++ (0 : BitVec 36) := by
  apply BitVec.eq_of_getLsbD_eq
  intro i hi
  rw [BitVec.getLsbD_and, tableMask_getLsbD ⟨i, hi⟩]
  simp only [packHC, BitVec.getLsbD_append]
  by_cases h : 33 ≤ i
  · by_cases h' : 36 ≤ i
    · have e : i - 16 - 16 - 1 - 3 = i - 36 := by omega
      simp [h, e, show ¬ i < 16 by omega, show ¬ i - 16 < 16 by omega, show ¬ i - 16 - 16 = 0 by omega,
        show ¬ i - 16 - 16 - 1 < 3 by omega, show ¬ i < 36 by omega]
    · simp [h, show ¬ i < 16 by omega, show ¬ i - 16 < 16 by omega, show ¬ i - 16 - 16 = 0 by omega,
        show i - 16 - 16 - 1 < 3 by omega, show i < 36 by omega]
  · simp [h, show i < 36 by omega]

/-- The VCOM bit of a command byte masked away leaves the template (R9 item 6, R60). -/
theorem cmdByte_and_not_mask (c : Config) {template : Byte} (h : template &&& c.vcomMask = 0) (v : Bool) :
    cmdByte c template v &&& ~~~c.vcomMask = template := by
  have key : ∀ i, (hi : i < 8) → (template[i] && c.vcomMask[i]) = false := fun i hi => by
    simpa using congrArg (fun b : Byte => b[i]) h
  unfold cmdByte vmask
  ext i hi
  have := key i hi
  cases v <;> simp <;> revert this <;> cases template[i] <;> cases c.vcomMask[i] <;> simp

theorem begin : Statement .begin := fun _ _ _ => ⟨_, rfl, packHC_and_mask 1 false 0 0⟩

theorem setPixel (x y : Coord) (on : Bool) : Statement (.setPixel x y on) :=
  fun _ _ _ => ⟨_, rfl, packHC_and_mask 2 on x y⟩

theorem getPixel (x y : Coord) : Statement (.getPixel x y) :=
  fun _ _ _ => ⟨_, rfl, packHC_and_mask 3 false x y⟩

theorem clear : Statement .clear := fun _ _ _ => ⟨_, rfl, packHC_and_mask 4 false 0 0⟩

theorem refresh : Statement .refresh := fun _ _ _ => ⟨_, rfl, packHC_and_mask 5 false 0 0⟩

theorem sbRead (a : Addr) (n : Nat) : Statement (.sbRead a n) :=
  fun _ _ _ => ⟨_, rfl, List.length_replicate⟩

theorem sbWren : Statement .sbWren := fun _ _ _ => rfl

theorem sbWrite (a : Addr) (data : List Byte) : Statement (.sbWrite a data) := fun _ _ _ => ⟨_, rfl, rfl⟩

theorem dfWrite (v : Bool) (data : List Byte) : Statement (.dfWrite v data) :=
  fun c hc hw =>
    have hlen : data.length = c.height * c.rowBytes := of_decide_eq_true hw
    ⟨⟨_, _, rfl, cmdByte_and_not_mask c hc.2.2.2.2.2.2.2.1 v, length_frameRecords c c.height 0 data hlen⟩,
      (framed_frameRecords c c.height 0 data hlen).1⟩

theorem dfClear (v : Bool) (marker write : Byte) : Statement (.dfClear v marker write) :=
  fun c hc _ => ⟨_, _, rfl, cmdByte_and_not_mask c hc.2.2.2.2.2.2.1 v, rfl⟩

end Sys2Proof.Laws.TableRow
end

