-- ==== Sys2Proof/Tests/Slice0.lean ====
section
/-! SUPPORT. Tests. Every expected value comes from spec/95_test_vectors.md (the vector is named) or from the
encoding tables of spec/30_encoding.md; then one theorem for each obligation with hypotheses, showing values that
meet them. -/

namespace Sys2Proof.Tests

open Sys2Proof.Machine

/-! ## Small machines -/

/-- CFG-S of spec/95_test_vectors.md. -/
def cfgS : Config := { Config.reference with width := 16, height := 2 }

/-- CFG-P: a width that is not a multiple of 8. -/
def cfgP : Config := { Config.reference with width := 12, height := 1 }

/-- CFG-S with a given `STORE_MAX_ADDR`. -/
def cfgSUpTo (last : Nat) : Config := { cfgS with storeMaxAddr := last }

/-- `CTRL = Ready` with the given bytes from address 0 on, a VCOM bit and a write-enable latch. -/
def ready (c : Config) (bytes : List Byte) (vcom wel : Bool) : State :=
  let s := State.resetOf c
  { s with
    ctrl := .ready
    vcom := vcom
    bus := { s.bus with store := { s.bus.store with mem := Memory.writeBytes [] 0 bytes, wel := wel } } }

/-- The blank layout of CFG-S. -/
def blankBytes : List Byte := [0x20, 0x00, 0x80, 0x80, 0xFF, 0xFF, 0x00, 0x40, 0xFF, 0xFF, 0x00]

/-- The layout of V-K12 and V-K13: pixels (7, 0) and (8, 0) are on. -/
def drawnBytes : List Byte := [0x20, 0x00, 0x80, 0x80, 0xFE, 0x7F, 0x00, 0x40, 0xFF, 0xFF, 0x00]

/-- The pixel data of those layouts, row by row, without line numbers and trailers. -/
def drawnData : List Byte := [0xFE, 0x7F, 0xFF, 0xFF]

def blankS : State := ready cfgS blankBytes false false

def resetS : State := State.resetOf cfgS

/-- The next state, if there is one. -/
def after (outcome : Host.Outcome State Fault Refusal) : Option State :=
  match outcome with
  | .next t => some t
  | .fault _ => none
  | .refused _ => none

/-- The first `n` bytes of the store, the VCOM bit, `STATUS`, `RESULT` and the frames received. -/
def seen (n : Nat) (t : State) : List Byte × Bool × Status × Bool × List (List Byte) :=
  (t.bus.store.mem.readBytes 0 n, t.vcom, t.status, t.result, t.bus.displayLog)

/-! ## Ill-formed terms are refused -/

theorem test_sbRead_without_data_is_ill_formed : (Instr.sbRead 0 0).wellFormed cfgS = false := by decide

theorem test_sbWrite_without_data_is_ill_formed : (Instr.sbWrite 0 []).wellFormed cfgS = false := by decide

theorem test_dfWrite_of_another_length_is_ill_formed :
    (Instr.dfWrite false [0xFF, 0xFF, 0xFF]).wellFormed cfgS = false ∧
    (Instr.dfWrite false [0xFF, 0xFF, 0xFF, 0xFF, 0xFF]).wellFormed cfgS = false := by decide

/-! ## Decoding: words written out from the spec's encodings -/

/-- V-H1, V-H8, V-H9, and V-H14: `0100 000 1 1010101111001101 0001001000110100` is CLEAR. -/
theorem test_decode_plain_commands :
    decodeHC 0x1000000000 = .ok .begin ∧ decodeHC 0x4000000000 = .ok .clear ∧
    decodeHC 0x5000000000 = .ok .refresh ∧
    decodeHC 0b0100000110101011110011010001001000110100 = .ok .clear := ⟨rfl, rfl, rfl, rfl⟩

/-- V-H2, V-H3, V-H6, V-H7: `OP` 0010, `RSV` 000, `ON`, 16 bits of x, 16 bits of y. -/
theorem test_decode_setPixel :
    decodeHC 0b0010000100000000000001110000000000000000 = .ok (.setPixel 7 0 true) ∧
    decodeHC 0x2000070000 = .ok (.setPixel 7 0 false) ∧
    decodeHC 0x21018F00EF = .ok (.setPixel 399 239 true) ∧
    decodeHC 0x2100C80078 = .ok (.setPixel 200 120 true) := ⟨rfl, rfl, rfl, rfl⟩

/-- V-H4, V-H5, V-H15. -/
theorem test_decode_getPixel :
    decodeHC 0b0011000011111111111111110000000000000000 = .ok (.getPixel (-1) 0) ∧
    decodeHC 0x3000008000 = .ok (.getPixel 0 (-32768)) ∧
    decodeHC 0x3100070000 = .ok (.getPixel 7 0) := ⟨rfl, rfl, rfl⟩

/-- V-H10 to V-H13. -/
theorem test_decode_reserved :
    decodeHC 0x0000000000 = .error .reservedOperation ∧ decodeHC 0x6000000000 = .error .reservedOperation ∧
    decodeHC 0xF1FFFFFFFF = .error .reservedOperation ∧ decodeHC 0x2300070000 = .error .reservedBits :=
  ⟨rfl, rfl, rfl, rfl⟩

/-- R57 with the opcodes of R58: V-A4, V-A9, V-A5. -/
theorem test_decode_store_windows :
    decodeSB cfgS [0x03, 0x30, 0xC1, 0x5A] = .ok (.sbRead 12481 1) ∧
    decodeSB cfgS [0x06] = .ok .sbWren ∧
    decodeSB cfgS [0x02, 0x00, 0x04, 0xFE] = .ok (.sbWrite 4 [0xFE]) ∧
    decodeSB cfgS [0x05, 0x00] = .error .unknownStoreOpcode ∧
    decodeSB cfgS [0x02, 0x00, 0x04] = .error .shortTransaction := ⟨rfl, rfl, rfl, rfl, rfl⟩

/-- R59, R60: the frames of P5 step 1 and V-K13. -/
theorem test_decode_display_frames :
    decodeDF cfgS [0x60, 0x00, 0x80] = .ok (.dfClear true 0x00 0x80) ∧
    decodeDF cfgS [0xC0, 0x80, 0xFE, 0x7F, 0x00, 0x40, 0xFF, 0xFF, 0x00] =
      .ok (.dfWrite true drawnData) ∧
    decodeDF cfgS [0x80, 0x80] = .error .unknownFrameLength ∧
    decodeDF cfgS [0x21, 0x00, 0x80] = .error .unknownCommandByte := ⟨rfl, rfl, rfl, rfl⟩

/-- R59: a line number that is not `REVERSE(y + 1)` (row 1's as 0x41, rows swapped), and a trailer that is not 0. -/
theorem test_decode_broken_records :
    decodeDF cfgS [0xC0, 0x80, 0xFE, 0x7F, 0x00, 0x41, 0xFF, 0xFF, 0x00] = .error .brokenRecord ∧
    decodeDF cfgS [0xC0, 0x40, 0xFE, 0x7F, 0x00, 0x80, 0xFF, 0xFF, 0x00] = .error .brokenRecord ∧
    decodeDF cfgS [0xC0, 0x80, 0xFE, 0x7F, 0x01, 0x40, 0xFF, 0xFF, 0x00] = .error .brokenRecord ∧
    decodeDF cfgS [0xC0, 0x80, 0xFE, 0x7F, 0x00, 0x40, 0xFF, 0xFF, 0x80] = .error .brokenRecord :=
  ⟨rfl, rfl, rfl, rfl⟩

/-- The words as spec/opcode_table.json numbers them. -/
theorem test_decodeTableWord :
    decodeTableWord 40 0x2100070000 = some (.setPixel 7 0 true) ∧ decodeTableWord 8 0x06 = some .sbWren ∧
    decodeTableWord 24 0x040002 = some (.sbWrite 4 [0x00]) ∧
    decodeTableWord 8 0x20 = some (.dfClear false 0x00 0x00) := ⟨rfl, rfl, rfl, rfl⟩

/-! ## Pure functions -/

/-- V-A1, V-A2. -/
theorem test_boundOk :
    boundOk (cfgSUpTo 8) 5 4 = true ∧ boundOk (cfgSUpTo 8) 7 4 = false ∧
    boundOk cfgS 0xFFFF 1 = true ∧ boundOk cfgS 0xFFFF 2 = false := by decide

/-- V-L1. -/
theorem test_inBounds :
    inBounds Config.reference 399 239 = true ∧ inBounds Config.reference 400 0 = false ∧
    inBounds Config.reference 0 240 = false ∧ inBounds Config.reference (-1) 0 = false ∧
    inBounds cfgP 12 0 = false := by decide

/-- V-L2. -/
theorem test_pixAddress :
    pixAddress Config.reference 200 120 = 6269 ∧ pixAddress Config.reference 399 239 = 12481 ∧
    pixBit 399 = 7 ∧ pixAddress cfgP 11 0 = 5 ∧ pixBit 11 = 3 := by decide

/-- V-C1, V-C5. -/
theorem test_reverse_and_lineNum :
    reverse 0x64 = 0x26 ∧ reverse 0x0A = 0x50 ∧ lineNum 0 = 0x80 ∧ lineNum 238 = 0xF7 ∧ lineNum 254 = 0xFF := by
  decide

/-- V-C3, V-C4. -/
theorem test_mutate_and_testBit :
    mutate 0xA5 2 true = 0x85 ∧ mutate 0xA5 1 false = 0xE5 ∧ mutate 0xFF 7 true = 0xFE ∧
    testBit 0x85 2 = true ∧ testBit 0x85 0 = false := by decide

/-- V-C6. -/
theorem test_blankRecord : blankRecord cfgS 1 = [0x40, 0xFF, 0xFF, 0x00] := by decide

/-! ## Instructions, one step each -/

/-- V-K1. -/
theorem test_begin_writes_the_blank_layout :
    (after (exec .begin resetS)).map (seen 11) = some (blankBytes, false, .ok, false, []) := by decide

/-- V-E1: record 1 does not fit; bytes 7 and 8 keep what they held. -/
theorem test_begin_on_too_small_store :
    (after (exec .begin (State.resetOf (cfgSUpTo 8)))).map
        (fun t => (t.ctrl, t.status, t.bus.store.mem.readBytes 0 9)) =
      some (.failed, .errOutOfRange, [0x20, 0x00, 0x80, 0x80, 0xFF, 0xFF, 0x00, 0x00, 0x00]) := by decide

/-- V-K3, with its trace. -/
theorem test_setPixel_trace :
    (after (exec (.setPixel 7 0 true) blankS)).map (fun t => t.bus.trace) =
      some [.sselUp, .byte 0x03 none, .byte 0x00 none, .byte 0x04 none, .byte (Config.placeholder 4) (some 0xFF),
        .sselDown, .sselUp, .byte 0x06 none, .sselDown,
        .sselUp, .byte 0x02 none, .byte 0x00 none, .byte 0x04 none, .byte 0xFE none, .sselDown] := rfl

/-- V-K16: the width is not a multiple of 8. -/
theorem test_setPixel_beside_padding :
    (after (exec (.setPixel 11 0 true) (ready cfgP (blankBytes.take 7) false false))).map
        (fun t => t.bus.store.mem.readBytes 0 7) =
      some [0x20, 0x00, 0x80, 0x80, 0xFF, 0xEF, 0x00] := by decide

/-- V-K4. -/
theorem test_getPixel_on :
    (after (exec (.getPixel 7 0) (ready cfgS drawnBytes false false))).map (seen 11) =
      some (drawnBytes, false, .ok, true, []) := by decide

/-- V-K9: clipped, the bus is silent. -/
theorem test_getPixel_clipped :
    (after (exec (.getPixel (-1) 0) (ready cfgS drawnBytes false false))).map
        (fun t => (t.status, t.result, t.bus.trace)) = some (.ok, false, []) := by decide

/-- V-K12. -/
theorem test_clear :
    (after (exec .clear (ready cfgS drawnBytes true false))).map (seen 11) =
      some ([0x60, 0x00, 0x80, 0x80, 0xFF, 0xFF, 0x00, 0x40, 0xFF, 0xFF, 0x00], false, .ok, false,
        [[0x60, 0x00, 0x80]]) := by decide

/-- V-K14. -/
theorem test_refresh :
    (after (exec .refresh (ready cfgS drawnBytes true false))).map (seen 11) =
      some ([0x20, 0x00, 0xC0, 0x80, 0xFE, 0x7F, 0x00, 0x40, 0xFF, 0xFF, 0x00], false, .ok, false,
        [[0xC0, 0x80, 0xFE, 0x7F, 0x00, 0x40, 0xFF, 0xFF, 0x00]]) := by decide

/-- V-A3: the trace of a read, as an SB.READ alone. -/
theorem test_sbRead_trace :
    (after (exec (.sbRead 4 1) blankS)).map (fun t => t.bus.trace) =
      some [.sselUp, .byte 0x03 none, .byte 0x00 none, .byte 0x04 none, .byte (Config.placeholder 4) (some 0xFF),
        .sselDown] := rfl

/-- V-A9, and the latch (R68). -/
theorem test_sbWren :
    (after (exec .sbWren blankS)).map (fun t => (t.bus.trace, t.bus.store.wel)) =
      some ([.sselUp, .byte 0x06 none, .sselDown], true) := by decide

/-- The second window of V-A5, the latch set before it (R70). -/
theorem test_sbWrite :
    (after (exec (.sbWrite 4 [0xFE]) (ready cfgS blankBytes false true))).map
        (fun t => (t.bus.store.mem.readBytes 3 3, t.bus.store.wel, t.bus.trace)) =
      some ([0x80, 0xFE, 0xFF], false,
        [.sselUp, .byte 0x02 none, .byte 0x00 none, .byte 0x04 none, .byte 0xFE none, .sselDown]) := by decide

/-- R70, D29: the latch is clear. -/
theorem test_sbWrite_locked : exec (.sbWrite 4 [0xFE]) blankS = .refused .lockedWrite := rfl

/-- The frame of V-K13. -/
theorem test_dfWrite :
    (after (exec (.dfWrite false drawnData) blankS)).map (fun t => t.bus.displayLog) =
      some [[0x80, 0x80, 0xFE, 0x7F, 0x00, 0x40, 0xFF, 0xFF, 0x00]] := by decide

/-- The frame of V-R1. -/
theorem test_dfClear :
    (after (exec (.dfClear true 0x00 0x80) blankS)).map (fun t => t.bus.displayLog) =
      some [[0x60, 0x00, 0x80]] := by decide

/-- V-K2, V-K15: refused in the wrong state, with an empty trace. -/
theorem test_refused_in_the_wrong_state :
    (after (exec .begin blankS)).map (fun t => (t.status, t.bus.trace)) = some (.errState, []) ∧
    (after (exec .refresh resetS)).map (fun t => (t.status, t.vcom, t.bus.trace)) =
      some (.errState, false, []) := by decide

/-- V-E10, and V-E11 in the failed state: reset. -/
theorem test_step_on_reserved_word_and_reset :
    (after (step (blankS.withFetchWord 40 0x2300070000))).map (fun t => (t.ctrl, t.status)) =
      some (.ready, .errIllegal) ∧
    (after (step { resetS with ctrl := .failed, status := .errState, inbox := [.reset] })).map
        (fun t => (t.ctrl, t.status)) = some (.uninitialized, .ok) := by decide

/-- R66, R70: an SB.WRITE placed for the next step finds the latch set. -/
theorem test_step_on_table_word_of_sbWrite :
    (after (step (resetS.withFetchWord 24 0x040002))).map (fun t => (t.read 4, t.bus.store.wel)) =
      some (0x00, false) := by decide

/-- R138: SETPIXEL cut before the data byte of its write, and after it. -/
theorem test_cut_setPixel :
    (after (step { blankS with inbox := [.commandCut 0x2100070000 13 false] })).map
        (fun t => (t.ctrl, t.read 4)) = some (.uninitialized, 0xFF) ∧
    (after (step { blankS with inbox := [.commandCut 0x2100070000 14 false] })).map
        (fun t => (t.ctrl, t.read 4)) = some (.uninitialized, 0xFE) := by decide

/-! ## The hypotheses of the obligations are met -/

/-- CFG-S with drawn pixels, after V-K13 would start: `Ready`, and one input pending. -/
def drawnWith (i : Input) : State := { ready cfgS drawnBytes false false with inbox := [i] }

/-- CFG-S where the store has room for the header and record 0 only. -/
def tightS : State := State.resetOf (cfgSUpTo 8)

theorem witness_OpcodeMapDecodesMatchingWords :
    (0x11FFFFFFFF : CommandWord) &&& 0xFE00000000 = 0x1000000000 ∧
    (0x21FFFFFFFF : CommandWord) &&& 0xFE00000000 = 0x2000000000 ∧
    (0x3080008000 : CommandWord) &&& 0xFE00000000 = 0x3000000000 ∧
    (0x41ABCD1234 : CommandWord) &&& 0xFE00000000 = 0x4000000000 ∧
    (0x5000000000 : CommandWord) &&& 0xFE00000000 = 0x5000000000 := by decide

/-- The boundary words of R55, on both sides. -/
theorem witness_ReservedWordsAreTheUndecodable :
    Reserved 0x0000000000 ∧ Reserved 0x0FFFFFFFFF ∧ ¬ Reserved 0x1000000000 ∧ ¬ Reserved 0x51FFFFFFFF ∧
    Reserved 0x6000000000 ∧ Reserved 0xF1FFFFFFFF ∧ Reserved 0x5200000000 ∧ Reserved 0x1E00000000 := by decide

/-- One well-formed instruction of each row. -/
theorem witness_DecodeEncodeRoundTrip :
    cfgS.Valid ∧
    ∀ i ∈ [Instr.begin, .setPixel (-1) 7 true, .getPixel 0 0x7FFF, .clear, .refresh, .sbRead 0xFFFF 1, .sbWren,
      .sbWrite 0 [0x00], .dfWrite true drawnData, .dfClear false 0xFF 0x00], i.wellFormed cfgS = true := by
  decide

theorem witness_CommandByteCarriesVcom : cfgS.Valid ∧ cfgS.cmdClear ∈ [cfgS.cmdClear, cfgS.cmdWrite] := by decide

theorem witness_StepRunsDecodedPacket :
    blankS.cfg.Valid ∧ blankS.cfg.relayMode = .directLink ∧
    (drawnWith (.packet (.storeWindow [0x06]))).inbox = .packet (.storeWindow [0x06]) :: [] ∧
    decode (drawnWith (.packet (.storeWindow [0x06]))).cfg (.storeWindow [0x06]) = .ok .sbWren ∧
    decode blankS.cfg (.command 0x1000000000) = .ok .begin := ⟨by decide, rfl, rfl, rfl, rfl⟩

theorem witness_IdleStepChangesNothing :
    blankS.cfg.Valid ∧ blankS.cfg.relayMode = .directLink ∧ blankS.inbox = [] := by decide

/-- R9 items 3 and 9, with item 9's bound itself, and another relay mode. -/
theorem witness_StepRefusesOtherConfigurations :
    ¬ Config.Valid { cfgS with height := 256 } ∧ ¬ Config.Valid (cfgSUpTo 1) ∧ Config.Valid (cfgSUpTo 2) ∧
    Config.Valid { cfgS with relayMode := .storeAndForward } := by decide

theorem witness_ReservedWordIsRefused :
    cfgS.Valid ∧ cfgS.relayMode = .directLink ∧
    (drawnWith (.packet (.command 0x2300070000))).inbox = .packet (.command 0x2300070000) :: [] ∧
    Reserved 0x2300070000 := by decide

theorem witness_CommandsInWrongStateAreRefused :
    blankS.ctrl ≠ .uninitialized ∧ resetS.ctrl ≠ .ready ∧
    ∃ x y on, Instr.setPixel 3 4 true = .setPixel x y on := ⟨by decide, by decide, _, _, _, rfl⟩

/-- A GETPIXEL that finds the pixel on. -/
theorem witness_EachCommandRespondsOnce :
    ∃ t, (drawnWith (.packet (.command 0x3000070000))).inbox = .packet (.command 0x3000070000) :: [] ∧
      step (drawnWith (.packet (.command 0x3000070000))) = .next t ∧ t.result = true := ⟨_, rfl, rfl, rfl⟩

theorem witness_ResetEvent :
    cfgS.Valid ∧ cfgS.relayMode = .directLink ∧ (drawnWith .reset).inbox = .reset :: [] ∧
    (drawnWith .reset).bus.store.wel = false ∧ (drawnWith .reset).bus.ssel = false := by decide

theorem witness_ResetDuringSetPixel :
    cfgS.Valid ∧ cfgS.relayMode = .directLink ∧ MachineInv (drawnWith (.commandCut 0x2100000001 13 true)) ∧
    (drawnWith (.commandCut 0x2100000001 13 true)).ctrl = .ready ∧
    inBounds cfgS (coordinate 0) (coordinate 1) = true ∧
    (drawnWith (.commandCut 0x2100000001 13 true)).inbox = .commandCut 0x2100000001 13 true :: [] ∧
    decodeHC 0x2100000001 = .ok (.setPixel 0 1 true) :=
  ⟨by decide, rfl, by decide, rfl, by decide, rfl, rfl⟩

/-- The bounds of the three clauses: events 12 and 13 before the byte, 13 inside it, 14 after it. -/
theorem witness_ResetDuringSetPixel_clauses :
    ((12 < 13) ∨ (12 = 13 ∧ true = false)) ∧ ((13 < 13) ∨ (13 = 13 ∧ false = false)) ∧
    ¬ ((13 < 13) ∨ (13 = 13 ∧ true = false)) ∧ ¬ (13 < 13) ∧ (13 < 14) := by decide

theorem witness_ResetDuringAnyCommand :
    cfgS.Valid ∧ cfgS.relayMode = .directLink ∧ MachineInv (drawnWith (.commandCut 0x5000000000 20 false)) ∧
    (drawnWith (.commandCut 0x5000000000 20 false)).inbox = .commandCut 0x5000000000 20 false :: [] := by decide

/-- One word for each clause about memory, and the first address above the frame. -/
theorem witness_ResetDuringAnyCommand_clauses :
    frameEnd cfgS < 11 ∧ Reserved 0x6000000000 ∧ decodeHC 0x30FFFF0000 = .ok (.getPixel 0xFFFF 0) ∧
    decodeHC 0x2100100000 = .ok (.setPixel 16 0 true) ∧ inBounds cfgS (coordinate 16) (coordinate 0) = false ∧
    decodeHC 0x1000000000 = .ok .begin ∧ blankS.ctrl ≠ .uninitialized ∧ resetS.ctrl ≠ .ready ∧
    decodeHC 0x5000000000 = .ok .refresh ∧ decodeHC 0x4000000000 = .ok .clear ∧ Instr.clear ≠ .begin :=
  ⟨by decide, by decide, rfl, rfl, by decide, rfl, by decide, by decide, rfl, rfl, by decide⟩

/-- Both sides of the bound. -/
theorem witness_StoreReadReturnsTheBytes :
    (cfgSUpTo 8).Valid ∧ blankS.bus.Quiet ∧ 5 + 4 - 1 ≤ (cfgSUpTo 8).storeMaxAddr ∧
    (cfgSUpTo 8).storeMaxAddr < 6 + 4 - 1 := by decide

theorem witness_StoreWritePutsTheBytes :
    (cfgSUpTo 8).Valid ∧ blankS.bus.Quiet ∧ 1 ≤ (blankRecord cfgS 0).length ∧
    5 + (blankRecord cfgS 0).length - 1 ≤ (cfgSUpTo 8).storeMaxAddr ∧
    (cfgSUpTo 8).storeMaxAddr < 6 + (blankRecord cfgS 0).length - 1 := by decide

theorem witness_BoundCheckCoversEveryAddress :
    boundOk (cfgSUpTo 8) 8 1 = true ∧ boundOk (cfgSUpTo 8) 9 1 = false ∧ boundOk (cfgSUpTo 8) 0 9 = true := by decide

/-- The relay of REFRESH in CFG-S, in a store that it reads to the last byte. -/
theorem witness_RelayMovesTheBytes :
    (cfgSUpTo 10).Valid ∧ (cfgSUpTo 10).relayMode = .directLink ∧ blankS.bus.Quiet ∧ 1 ≤ 2 ∧ 1 ≤ 4 ∧
    2 + 2 * 4 ≤ (cfgSUpTo 10).storeMaxAddr := by decide

theorem witness_RelayStopsOutsideItsPrecondition :
    1 ≤ 2 ∧ (cfgSUpTo 9).relayMode = .directLink ∧ (cfgSUpTo 9).storeMaxAddr < 2 + 2 * 4 ∧
    Config.relayMode { cfgS with relayMode := .storeAndForward } ≠ .directLink := by decide

/-- The tightest store that fits (V-E5). -/
theorem witness_BeginInitialisesTheStore :
    (cfgSUpTo 10).Valid ∧ (State.resetOf (cfgSUpTo 10)).bus.Quiet ∧
    (State.resetOf (cfgSUpTo 10)).ctrl = .uninitialized ∧ Fits (cfgSUpTo 10) := by decide

theorem witness_BeginBusTrace :
    resetS.cfg.Valid ∧ resetS.bus.Quiet ∧ resetS.ctrl = .uninitialized ∧ Fits resetS.cfg := by decide

/-- V-E1, whose record 0 fits and record 1 does not; and the smallest store R9 allows, which takes the header only. -/
theorem witness_BeginOnTooSmallStore :
    tightS.cfg.Valid ∧ tightS.bus.Quiet ∧ tightS.ctrl = .uninitialized ∧ ¬ Fits tightS.cfg ∧
    1 < tightS.cfg.height ∧
    (∀ y, y < 1 → recAddr tightS.cfg y + tightS.cfg.record - 1 ≤ tightS.cfg.storeMaxAddr) ∧
    tightS.cfg.storeMaxAddr < recAddr tightS.cfg 1 + tightS.cfg.record - 1 ∧
    (cfgSUpTo 2).Valid ∧ ¬ Fits (cfgSUpTo 2) ∧ (cfgSUpTo 2).storeMaxAddr < recAddr (cfgSUpTo 2) 0 + cfgS.record - 1 := by
  decide

/-- The last pixel of the frame. -/
theorem witness_SetPixelInBounds :
    blankS.cfg.Valid ∧ blankS.bus.Quiet ∧ blankS.ctrl = .ready ∧ Fits blankS.cfg ∧
    0 ≤ (15 : Coord).toInt ∧ (15 : Coord).toInt < blankS.cfg.width ∧
    0 ≤ (1 : Coord).toInt ∧ (1 : Coord).toInt < blankS.cfg.height := by decide

/-- The first pixel of the frame. -/
theorem witness_GetPixelInBounds :
    blankS.cfg.Valid ∧ blankS.bus.Quiet ∧ blankS.ctrl = .ready ∧ Fits blankS.cfg ∧
    0 ≤ (0 : Coord).toInt ∧ (0 : Coord).toInt < blankS.cfg.width ∧
    0 ≤ (0 : Coord).toInt ∧ (0 : Coord).toInt < blankS.cfg.height := by decide

/-- The four sides of the frame. -/
theorem witness_ClippedPixelCommandsDoNothing :
    blankS.ctrl = .ready ∧ (0xFFFF : Coord).toInt < 0 ∧ blankS.cfg.width ≤ (16 : Coord).toInt ∧
    (0x8000 : Coord).toInt < 0 ∧ blankS.cfg.height ≤ (2 : Coord).toInt := by decide

theorem witness_ClearBlanksAndRelaysHeader :
    (ready (cfgSUpTo 10) drawnBytes true false).cfg.Valid ∧
    (ready (cfgSUpTo 10) drawnBytes true false).cfg.relayMode = .directLink ∧
    (ready (cfgSUpTo 10) drawnBytes true false).bus.Quiet ∧
    (ready (cfgSUpTo 10) drawnBytes true false).ctrl = .ready ∧
    Fits (ready (cfgSUpTo 10) drawnBytes true false).cfg := by decide

theorem witness_RefreshRelaysTheFrame :
    (ready (cfgSUpTo 10) drawnBytes false false).cfg.Valid ∧
    (ready (cfgSUpTo 10) drawnBytes false false).cfg.relayMode = .directLink ∧
    (ready (cfgSUpTo 10) drawnBytes false false).bus.Quiet ∧
    (ready (cfgSUpTo 10) drawnBytes false false).ctrl = .ready ∧
    Fits (ready (cfgSUpTo 10) drawnBytes false false).cfg := by decide

theorem witness_UpdateFramesDecode :
    ∃ t u, blankS.cfg.Valid ∧ blankS.bus.Quiet ∧ blankS.ctrl = .ready ∧ Fits blankS.cfg ∧ LayoutInv blankS ∧
      exec .clear blankS = .next t ∧ exec .refresh blankS = .next u :=
  ⟨_, _, by decide, by decide, rfl, by decide, by decide, rfl, rfl⟩

/-- Up to the last byte of the store, and one short of it for the clause about the pointer. -/
theorem witness_SbReadDrivesTheStoredBytes :
    blankS.cfg.Valid ∧ blankS.bus.Quiet ∧ 1 ≤ 2 ∧ (0xFFFE : Addr).toNat + 2 - 1 ≤ blankS.cfg.storeMaxAddr ∧
    (0xFFFD : Addr).toNat + 2 ≤ blankS.cfg.storeMaxAddr := by decide

theorem witness_SbWrenSetsTheLatch : blankS.cfg.Valid ∧ blankS.bus.Quiet := by decide

theorem witness_SbWriteStoresAndRelocks :
    (ready cfgS blankBytes false true).cfg.Valid ∧ (ready cfgS blankBytes false true).bus.Quiet ∧
    (ready cfgS blankBytes false true).bus.store.wel = true ∧ 1 ≤ [(0xFE : Byte)].length ∧
    (0xFFFF : Addr).toNat + [(0xFE : Byte)].length - 1 ≤ (ready cfgS blankBytes false true).cfg.storeMaxAddr ∧
    (0xFFFE : Addr).toNat + [(0xFE : Byte)].length ≤ (ready cfgS blankBytes false true).cfg.storeMaxAddr := by decide

/-- The last byte of the store. -/
theorem witness_LockedWriteIsRefused :
    blankS.bus.store.wel = false ∧ 1 ≤ [(0xFE : Byte)].length ∧
    (0xFFFF : Addr).toNat + [(0xFE : Byte)].length - 1 ≤ blankS.cfg.storeMaxAddr := by decide

theorem witness_StoreRowsPastTheEndFail :
    1 ≤ 1 ∧ tightS.cfg.storeMaxAddr < (9 : Addr).toNat + 1 - 1 ∧ 1 ≤ [(0x40 : Byte), 0xFF, 0xFF, 0x00].length ∧
    tightS.cfg.storeMaxAddr < (7 : Addr).toNat + [(0x40 : Byte), 0xFF, 0xFF, 0x00].length - 1 := by decide

theorem witness_DisplayFramesReachTheLog :
    blankS.bus.Quiet ∧ drawnData.length = blankS.cfg.height * blankS.cfg.rowBytes ∧
    (drawnData.drop 1).length ≠ blankS.cfg.height * blankS.cfg.rowBytes := by decide

/-- The first and the last pixel, and the padding beside the last of CFG-P. -/
theorem witness_PixelAddressRangeAndInjectivity :
    cfgP.Valid ∧ Fits cfgP ∧ inBounds cfgP 0 0 = true ∧ inBounds cfgP 11 0 = true ∧
    pixAddress cfgP 8 0 = pixAddress cfgP (8 * 1 + 0 : Nat) 0 ∧ pixBit 8 = pixBit (8 * 1 + 0 : Nat) ∧
    0 < cfgP.height ∧ 8 * 1 + (3 : Fin 8).val < cfgP.width ∧ ¬ 8 * 1 + (4 : Fin 8).val < cfgP.width := by decide

theorem witness_LineNumbersDecodeToRowIndex : 0 < 255 ∧ 254 < 255 := by decide

theorem witness_GetPixelAfterSetPixel :
    blankS.cfg.Valid ∧ blankS.bus.Quiet ∧ blankS.ctrl = .ready ∧ Fits blankS.cfg ∧
    inBounds blankS.cfg (coordinate 7) (coordinate 0) = true := by decide

/-- Another pixel of the same byte, and a coordinate outside the frame. -/
theorem witness_SetPixelLeavesOtherPixels :
    blankS.cfg.Valid ∧ blankS.bus.Quiet ∧ blankS.ctrl = .ready ∧ Fits blankS.cfg ∧
    inBounds blankS.cfg (coordinate 7) (coordinate 0) = true ∧
    ((6 : Coord), (0 : Coord)) ≠ (7, 0) ∧ ((7 : Coord), (0xFFFF : Coord)) ≠ (7, 0) := by decide

theorem witness_EveryPixelOffAfterClearAndBegin :
    blankS.cfg.Valid ∧ blankS.cfg.relayMode = .directLink ∧ blankS.bus.Quiet ∧ Fits blankS.cfg ∧
    blankS.ctrl = .ready ∧ resetS.cfg.Valid ∧ resetS.cfg.relayMode = .directLink ∧ resetS.bus.Quiet ∧
    Fits resetS.cfg ∧ resetS.ctrl = .uninitialized := by decide

theorem witness_ConsecutiveRefreshesAlternate :
    blankS.cfg.Valid ∧ blankS.cfg.relayMode = .directLink ∧ blankS.bus.Quiet ∧ blankS.ctrl = .ready ∧
    Fits blankS.cfg := by decide

theorem witness_BytePeriodCounts :
    blankS.cfg.Valid ∧ blankS.cfg.relayMode = .directLink ∧ blankS.bus.Quiet ∧ Fits blankS.cfg ∧
    blankS.ctrl = .ready ∧ inBounds blankS.cfg (coordinate 15) (coordinate 1) = true ∧
    resetS.cfg.Valid ∧ resetS.cfg.relayMode = .directLink ∧ resetS.bus.Quiet ∧ Fits resetS.cfg ∧
    resetS.ctrl = .uninitialized := by decide

/-- BEGIN to `Ready`, BEGIN to `Failed`, another command, reset, and a command cut. -/
theorem witness_CtrlTransitions :
    ∃ t u v w x, MachineInv (resetS.withPacket (.command 0x1000000000)) ∧
      step (resetS.withPacket (.command 0x1000000000)) = .next t ∧ t.ctrl = .ready ∧
      MachineInv (tightS.withPacket (.command 0x1000000000)) ∧
      step (tightS.withPacket (.command 0x1000000000)) = .next u ∧ u.ctrl = .failed ∧
      MachineInv (drawnWith (.packet (.command 0x1000000000))) ∧
      step (drawnWith (.packet (.command 0x1000000000))) = .next v ∧ v.ctrl = .ready ∧
      MachineInv (drawnWith .reset) ∧ step (drawnWith .reset) = .next w ∧ w.ctrl = .uninitialized ∧
      MachineInv (drawnWith (.commandCut 0x5000000000 4 true)) ∧
      step (drawnWith (.commandCut 0x5000000000 4 true)) = .next x ∧ x.ctrl = .uninitialized :=
  ⟨_, _, _, _, _, by decide, rfl, rfl, by decide, rfl, rfl, by decide, rfl, rfl, by decide, rfl, rfl, by decide, rfl,
    rfl⟩

/-- A display window, a store window inside the store and one past its end. -/
theorem witness_CtrlTransitions_windows :
    ∃ t u v, MachineInv (tightS.withPacket (.displayWindow [0x20, 0x00, 0x80])) ∧
      step (tightS.withPacket (.displayWindow [0x20, 0x00, 0x80])) = .next t ∧
      MachineInv (tightS.withPacket (.storeWindow [0x03, 0x00, 0x08, 0x00])) ∧
      step (tightS.withPacket (.storeWindow [0x03, 0x00, 0x08, 0x00])) = .next u ∧ u.ctrl = .uninitialized ∧
      MachineInv (tightS.withPacket (.storeWindow [0x03, 0x00, 0x09, 0x00])) ∧
      step (tightS.withPacket (.storeWindow [0x03, 0x00, 0x09, 0x00])) = .next v ∧ v.ctrl = .failed :=
  ⟨_, _, _, by decide, rfl, by decide, rfl, rfl, by decide, rfl, rfl⟩

/-- CLEAR and REFRESH in `Ready`, and REFRESH refused. -/
theorem witness_VcomStateMachine :
    ∃ t u v, MachineInv (drawnWith (.packet (.command 0x4000000000))) ∧
      step (drawnWith (.packet (.command 0x4000000000))) = .next t ∧ t.vcom = true ∧
      MachineInv (drawnWith (.packet (.command 0x5000000000))) ∧
      step (drawnWith (.packet (.command 0x5000000000))) = .next u ∧ u.vcom = true ∧
      MachineInv (resetS.withPacket (.command 0x5000000000)) ∧
      step (resetS.withPacket (.command 0x5000000000)) = .next v ∧ v.vcom = false :=
  ⟨_, _, _, by decide, rfl, rfl, by decide, rfl, rfl, by decide, rfl, rfl⟩

theorem witness_FailedIsTerminal :
    cfgS.Valid ∧ cfgS.relayMode = .directLink ∧
    State.ctrl { drawnWith (.packet (.command 0x1000000000)) with ctrl := .failed } = .failed ∧
    State.inbox { drawnWith (.packet (.command 0x1000000000)) with ctrl := .failed } =
      .packet (.command 0x1000000000) :: [] := by decide

theorem witness_TraceExplainsTheDevices : ∃ t, exec .refresh blankS = .next t := ⟨_, rfl⟩

/-- V-E1: the one command that raises `OutOfRange`. -/
theorem witness_HostInputsNeverStop :
    ∃ t, tightS.cfg.Valid ∧ tightS.cfg.relayMode = .directLink ∧
      MachineInv (tightS.withPacket (.command 0x1000000000)) ∧
      (∀ i ∈ (tightS.withPacket (.command 0x1000000000)).inbox, i.fromHost = true) ∧
      step (tightS.withPacket (.command 0x1000000000)) = .next t ∧ t.status = .errOutOfRange ∧
      tightS.status ≠ .errOutOfRange ∧ (tightS.withPacket (.command 0x1000000000)).inbox ≠ [] :=
  ⟨_, by decide, rfl, by decide, by decide, rfl, rfl, by decide, by decide⟩

/-- A store window, which no host sends, with the latch set. -/
theorem witness_StepKeepsMachineInv :
    ∃ t, MachineInv ((ready cfgS blankBytes false true).withPacket (.storeWindow [0x02, 0x00, 0x04, 0x00])) ∧
      step ((ready cfgS blankBytes false true).withPacket (.storeWindow [0x02, 0x00, 0x04, 0x00])) = .next t :=
  ⟨_, by decide, rfl⟩

/-- CFG-P, whose rows have padding bits. -/
theorem witness_HostStepKeepsLayout :
    ∃ t, MachineInv ((ready cfgP (blankBytes.take 7) false false).withPacket (.command 0x21000B0000)) ∧
      (∀ i ∈ ((ready cfgP (blankBytes.take 7) false false).withPacket (.command 0x21000B0000)).inbox,
        i.fromHost = true) ∧
      LayoutInv ((ready cfgP (blankBytes.take 7) false false).withPacket (.command 0x21000B0000)) ∧
      step ((ready cfgP (blankBytes.take 7) false false).withPacket (.command 0x21000B0000)) = .next t :=
  ⟨_, by decide, by decide, by decide, rfl⟩

theorem witness_HostStepKeepsVcomAlternation :
    ∃ t, MachineInv (drawnWith (.packet (.command 0x5000000000))) ∧
      (∀ i ∈ (drawnWith (.packet (.command 0x5000000000))).inbox, i.fromHost = true) ∧
      VcomInv (drawnWith (.packet (.command 0x5000000000))) ∧
      step (drawnWith (.packet (.command 0x5000000000))) = .next t := ⟨_, by decide, by decide, by decide, rfl⟩

/-- V-E6. -/
theorem witness_BeginWithoutRoomForTheHeader :
    (State.resetOf (cfgSUpTo 1)).ctrl = .uninitialized ∧ (State.resetOf (cfgSUpTo 1)).cfg.storeMaxAddr < 2 := by decide

theorem witness_DisplayDecodingIsExact :
    cfgS.Valid ∧ decodeDF cfgS [0xC0, 0x80, 0xFE, 0x7F, 0x00, 0x40, 0xFF, 0xFF, 0x00] = .ok (.dfWrite true drawnData) :=
  ⟨by decide, rfl⟩

/-- BEGIN, CLEAR and REFRESH. -/
theorem witness_CutCommandLeavesAPrefixOfItsWrites :
    cfgS.Valid ∧ cfgS.relayMode = .directLink ∧
    MachineInv { resetS with inbox := [.commandCut 0x1000000000 7 true] } ∧
    decodeHC 0x1000000000 = .ok .begin ∧ resetS.ctrl = .uninitialized ∧
    MachineInv (drawnWith (.commandCut 0x4000000000 12 false)) ∧
    decodeHC 0x4000000000 = .ok .clear ∧ MachineInv (drawnWith (.commandCut 0x5000000000 7 true)) ∧
    decodeHC 0x5000000000 = .ok .refresh ∧ (drawnWith (.commandCut 0x5000000000 7 true)).ctrl = .ready :=
  ⟨by decide, rfl, by decide, rfl, rfl, by decide, rfl, by decide, rfl, rfl⟩

/-- The first write's data bytes are its events 7 to 9, and the next write's the events 18 to 21. -/
theorem witness_CutCommandLeavesAPrefixOfItsWrites_clauses :
    cutAddress (beginCalls cfgS) 6 = none ∧ cutAddress (beginCalls cfgS) 7 = some 0 ∧
    cutAddress (beginCalls cfgS) 9 = some 2 ∧ cutAddress (beginCalls cfgS) 10 = none ∧
    cutAddress (beginCalls cfgS) 18 = some 3 ∧ cutAddress (beginCalls cfgS) 21 = some 6 ∧
    cutAddress (beginCalls cfgS) 22 = none ∧
    (cutMemory (beginCalls cfgS) 9 []).readBytes 0 3 = [0x20, 0x00, 0x00] := by decide

end Sys2Proof.Tests
end

section
/-! PROOFS. Scope (spec/00_scope.md): the configurations a step refuses (R9, R97), and the bus events that explain
what every instruction does to the devices (R12). -/

namespace Sys2Proof.Machine

/-! ## Configurations without a meaning -/

theorem configRefusal_of_not_valid {c : Config} (hc : ¬ c.Valid) : configRefusal c = some .configuration := by
  unfold configRefusal
  rw [if_pos hc]

theorem configRefusal_of_relayMode {c : Config} (hc : c.Valid) (hr : c.relayMode ≠ .directLink) :
    configRefusal c = some .relayMode := by
  unfold configRefusal
  rw [if_neg (not_not_intro hc), if_pos hr]

/-- The configuration is looked at before any input is. -/
theorem step_of_configRefusal {s : State} {r : Refusal} (h : configRefusal s.cfg = some r) : step s = .refused r := by
  unfold step takeNext
  rw [h]

/-- Settles O8: both refusals of `configRefusal` are the step's. -/
theorem stepRefusesOtherConfigurations : Obligations.StepRefusesOtherConfigurations := fun _ =>
  ⟨fun hc => step_of_configRefusal (configRefusal_of_not_valid hc),
    fun hc hr => step_of_configRefusal (configRefusal_of_relayMode hc hr)⟩

/-! ## Store access, whether it succeeds or raises `OutOfRange` -/

/-- The bus a sequence of store writes leaves: after all of them, or as the calls before the failing one left it
(R71, R117). -/
def busLeft : Except OutOfRange Bus → Bus
  | .ok b => b
  | .error e => e.bus

theorem follows_busLeft_storeWrite (c : Config) (a : Nat) (data : List Byte) (b : Bus) :
    b.Follows c (busLeft (storeWrite c a data b)) := by
  cases h : storeWrite c a data b with
  | ok b' => exact follows_storeWrite h
  | error e =>
    rw [busLeft, storeWrite_error_bus h]
    exact Bus.Follows.refl c b

theorem follows_busLeft_writeAllRecords (c : Config) (b : Bus) : b.Follows c (busLeft (writeAllRecords c b)) := by
  obtain ⟨hok, herror⟩ := follows_writeRecords (c := c) (List.range c.height) (b := b)
  cases h : writeAllRecords c b with
  | ok b' => exact hok b' h
  | error e => exact herror e h

theorem follows_busLeft_bind {c : Config} {b : Bus} {first : Except OutOfRange Bus}
    {rest : Bus → Except OutOfRange Bus} (hfirst : b.Follows c (busLeft first))
    (hrest : ∀ b' : Bus, b'.Follows c (busLeft (rest b'))) : b.Follows c (busLeft (first.bind rest)) := by
  cases first with
  | ok b' => exact hfirst.trans (hrest b')
  | error e => exact hfirst

theorem beginWrites_eq (c : Config) (b : Bus) :
    beginWrites c b = (storeWrite c headerBase (headerTemplates c) b).bind (writeAllRecords c) := by
  unfold beginWrites
  cases storeWrite c headerBase (headerTemplates c) b <;> rfl

theorem clearWrites_eq (c : Config) (v : Bool) (b : Bus) :
    clearWrites c v b =
      (writeAllRecords c b).bind (storeWrite c (ctrlSlot .clear) [cmdByte c c.cmdClear v]) := by
  unfold clearWrites
  cases writeAllRecords c b <;> rfl

theorem follows_busLeft_beginWrites (c : Config) (b : Bus) : b.Follows c (busLeft (beginWrites c b)) := by
  rw [beginWrites_eq]
  exact follows_busLeft_bind (follows_busLeft_storeWrite c _ _ b) (follows_busLeft_writeAllRecords c)

theorem follows_busLeft_clearWrites (c : Config) (v : Bool) (b : Bus) :
    b.Follows c (busLeft (clearWrites c v b)) := by
  rw [clearWrites_eq]
  exact follows_busLeft_bind (follows_busLeft_writeAllRecords c b) (follows_busLeft_storeWrite c _ _)

/-- A failed read is no event at all (R67). -/
theorem follows_storeRead_error {c : Config} {a n : Nat} {b : Bus} {e : OutOfRange}
    (h : storeRead c a n b = .error e) : b.Follows c e.bus := by
  rw [storeRead_error_bus h]
  exact Bus.Follows.refl c b

/-! ## One lemma per instruction: the bus after it follows the bus before it -/

section
variable {s t : State}

/-- A refused command leaves the bus alone (R118), so only the admitted one has to be looked at. -/
theorem follows_admitIn {needed : Ctrl} {command : State → Host.Outcome State Fault Refusal}
    (hcommand : command s = .next t → s.bus.Follows s.cfg t.bus) (h : admitIn needed s command = .next t) :
    s.bus.Follows s.cfg t.bus := by
  unfold admitIn at h
  split at h
  · exact hcommand h
  · cases h
    exact Bus.Follows.refl s.cfg s.bus

theorem follows_toggleAndRelay {a lineCount lineLength : Nat} (h : toggleAndRelay a lineCount lineLength s = .next t) :
    s.bus.Follows s.cfg t.bus := by
  simp only [toggleAndRelay, toggleVcom_cfg, toggleVcom_bus] at h
  cases hrelay : relay s.cfg a lineCount lineLength s.bus with
  | next b =>
    rw [hrelay] at h
    cases h
    exact follows_relay hrelay
  | fault r => exact nomatch r
  | refused r =>
    rw [hrelay] at h
    cases h

theorem follows_execBegin (h : execBegin s = .next t) : s.bus.Follows s.cfg t.bus := by
  refine follows_admitIn (fun h => ?_) h
  have writes := follows_busLeft_beginWrites s.cfg s.bus
  split at h <;> next hwrites =>
    rw [hwrites] at writes
    cases h
    exact writes

theorem follows_execSetPixel {x y : Coord} {on : Bool} (h : execSetPixel x y on s = .next t) :
    s.bus.Follows s.cfg t.bus := by
  refine follows_admitIn (fun h => ?_) h
  simp only at h
  split at h
  · split at h
    · next e hread =>
      cases h
      exact follows_storeRead_error hread
    · next bytes b hread =>
      have write := follows_busLeft_storeWrite s.cfg (pixAddress s.cfg (coordinate x) (coordinate y))
        [mutate (bytes 0) (pixBit (coordinate x)) on] b
      split at h <;> next hwrite =>
        rw [hwrite] at write
        cases h
        exact (follows_storeRead hread).trans write
  · cases h
    exact Bus.Follows.refl s.cfg s.bus

theorem follows_execGetPixel {x y : Coord} (h : execGetPixel x y s = .next t) : s.bus.Follows s.cfg t.bus := by
  refine follows_admitIn (fun h => ?_) h
  simp only at h
  split at h
  · split at h
    · next e hread =>
      cases h
      exact follows_storeRead_error hread
    · next bytes b hread =>
      cases h
      exact follows_storeRead hread
  · cases h
    exact Bus.Follows.refl s.cfg s.bus

theorem follows_execClear (h : execClear s = .next t) : s.bus.Follows s.cfg t.bus := by
  refine follows_admitIn (fun h => ?_) h
  have writes := follows_busLeft_clearWrites s.cfg s.vcom s.bus
  split at h <;> rename_i hwrites <;> rw [hwrites] at writes
  · cases h
    exact writes
  · exact writes.trans (follows_toggleAndRelay h)

theorem follows_execRefresh (h : execRefresh s = .next t) : s.bus.Follows s.cfg t.bus := by
  refine follows_admitIn (fun h => ?_) h
  have write := follows_busLeft_storeWrite s.cfg (ctrlSlot .write) [cmdByte s.cfg s.cfg.cmdWrite s.vcom] s.bus
  split at h <;> rename_i hwrite <;> rw [hwrite] at write
  · cases h
    exact write
  · exact write.trans (follows_toggleAndRelay h)

theorem follows_execSbRead {address : Addr} {count : Nat} (h : execSbRead address count s = .next t) :
    s.bus.Follows s.cfg t.bus := by
  unfold execSbRead at h
  split at h
  · cases h
  · split at h
    · next bytes b hread =>
      cases h
      exact follows_storeRead hread
    · next e hread =>
      cases h
      exact follows_storeRead_error hread

theorem follows_execSbWrite {address : Addr} {data : List Byte} (h : execSbWrite address data s = .next t) :
    s.bus.Follows s.cfg t.bus := by
  unfold execSbWrite at h
  split at h
  · cases h
  · split at h
    · split at h <;> cases h
      exact Bus.follows_writeTransaction s.cfg address.toNat data s.bus
    · cases h
      exact Bus.Follows.refl s.cfg s.bus

theorem follows_execDfWrite {vcom : Bool} {data : List Byte} (h : execDfWrite vcom data s = .next t) :
    s.bus.Follows s.cfg t.bus := by
  unfold execDfWrite at h
  split at h <;> cases h
  exact Bus.follows_showFrame s.cfg _ s.bus

end

/-- Settles O52, instruction by instruction: each is a chain of emitted events. -/
theorem traceExplainsTheDevices : Obligations.TraceExplainsTheDevices := by
  intro i s t h
  cases i with
  | begin => exact follows_execBegin h
  | setPixel x y on => exact follows_execSetPixel h
  | getPixel x y => exact follows_execGetPixel h
  | clear => exact follows_execClear h
  | refresh => exact follows_execRefresh h
  | sbRead address count => exact follows_execSbRead h
  | sbWren =>
    cases h
    exact Bus.follows_writeEnable s.cfg s.bus
  | sbWrite address data => exact follows_execSbWrite h
  | dfWrite vcom data => exact follows_execDfWrite h
  | dfClear vcom marker write =>
    cases h
    exact Bus.follows_showFrame s.cfg _ s.bus

end Sys2Proof.Machine
end

section
/-! PROOFS. The architectural state (spec/10_state.md): what a step keeps of it (R22, R30, R98, R120), how `CTRL`
changes (R16, R117, R136), and the reset value (R28). -/

namespace Sys2Proof.Machine

/-! ## The invariant, from what a step does to the bus -/

/-- Every reaction of the devices keeps the memory, so a step owes only the quiet bus and the fit. -/
theorem machineInv_of_follows {s t : State} (h : MachineInv s) (hcfg : t.cfg = s.cfg)
    (hfollows : s.bus.Follows s.cfg t.bus) (hquiet : t.bus.Quiet) (hready : t.ctrl = .ready → Fits s.cfg) :
    MachineInv t := by
  obtain ⟨hwf, hbelow, -, -⟩ := h
  obtain ⟨hwf', hbelow'⟩ := hfollows.keeps ⟨hwf, hbelow⟩
  exact ⟨hwf', by rw [hcfg]; exact hbelow', hquiet, by rw [hcfg]; exact hready⟩

theorem follows_acceptPacket {p : Packet} {s t : State} (h : acceptPacket p s = .next t) :
    s.bus.Follows s.cfg t.bus := by
  unfold acceptPacket at h
  cases hdecode : decode s.cfg p with
  | ok i =>
    rw [hdecode] at h
    exact traceExplainsTheDevices i s t h
  | error why =>
    rw [hdecode] at h
    cases p <;> cases h
    exact Bus.Follows.refl s.cfg s.bus

/-! ## Reset -/

/-- Reset quiets the bus and leaves `Ready`, so it owes only the memory. -/
theorem machineInv_assertReset {s : State} (h : Bus.MemoryInv s.cfg s.bus.store.mem) : MachineInv s.assertReset := by
  obtain ⟨hwf, hbelow⟩ := h
  rw [← assertReset_mem s.cfg s.bus] at hwf hbelow
  exact ⟨hwf, hbelow, assertReset_quiet s.cfg s.bus, nofun⟩

theorem cutDuring_keeps {c : Config} {b : Bus} (h : Bus.MemoryInv c b.store.mem) (e : Option BusEvent) :
    Bus.MemoryInv c (b.cutDuring c e).store.mem := by
  unfold Bus.cutDuring
  split
  · split
    · exact Bus.accept_keeps h _ _
    · exact h
  · exact h

theorem cutAt_keeps {c : Config} {b : Bus} (h : Bus.MemoryInv c b.store.mem) (events : List BusEvent) (n : Nat)
    (midByte : Bool) : Bus.MemoryInv c (b.cutAt c events n midByte).store.mem := by
  unfold Bus.cutAt
  split
  · exact cutDuring_keeps (Bus.replay_keeps _ h) _
  · exact Bus.replay_keeps _ h

theorem resetDuring_eq (s : State) (events : List BusEvent) (n : Nat) (midByte : Bool) :
    s.resetDuring events n midByte = { s with bus := s.bus.cutAt s.cfg events n midByte }.assertReset := rfl

/-- A command cut by reset ends in that reset, whatever its bus events were. -/
theorem acceptCut_cases {w : CommandWord} {n : Nat} {midByte : Bool} {s t : State}
    (h : acceptCut w n midByte s = .next t) : ∃ events, t = s.resetDuring events n midByte := by
  unfold acceptCut at h
  split at h <;> cases h
  exact ⟨_, rfl⟩

/-- Settles O54: nothing is listed, nothing is selected, `CTRL` is not `Ready`, and no frame was received. -/
theorem resetHasMachineInv : Obligations.ResetHasMachineInv := by
  intro c
  refine ⟨⟨⟨List.Pairwise.nil, nofun⟩, nofun, ⟨rfl, rfl, rfl, rfl, rfl⟩, nofun⟩, nofun, ?_, nofun⟩
  exact (Bool.xor_false c.vcomInit).symm

/-! ## The row of BEGIN -/

/-- The mask of R54 keeps the fields `OP` and `RSV`. -/
theorem and_tableMask (w : CommandWord) :
    w &&& 0xFE00000000 = fieldOp w ++ fieldRsv w ++ (0 : BitVec 33) := by
  apply BitVec.eq_of_getLsbD_eq
  intro i hi
  rw [BitVec.getLsbD_and, Laws.TableRow.tableMask_getLsbD ⟨i, hi⟩]
  simp only [fieldOp, fieldRsv, BitVec.getLsbD_append, BitVec.getLsbD_extractLsb']
  by_cases hrsv : i < 33
  · simp [hrsv, show ¬ 33 ≤ i by omega]
  · by_cases hop : i < 36
    · simp [hrsv, show 33 ≤ i by omega, show i - 33 < 3 by omega, show 33 + (i - 33) = i by omega]
    · simp [hrsv, show 33 ≤ i by omega, show ¬ i - 33 < 3 by omega, show i - 33 - 3 < 4 by omega,
        show 36 + (i - 33 - 3) = i by omega]

/-- A word matches the row of `op` (R54) exactly when its fields `OP` and `RSV` say so. -/
theorem matches_row_iff (w : CommandWord) (op : BitVec 4) :
    w &&& 0xFE00000000 = op ++ (0 : BitVec 3) ++ (0 : BitVec 33) ↔ fieldOp w = op ∧ fieldRsv w = 0 := by
  rw [and_tableMask, BitVec.append_left_inj]
  constructor
  · intro h
    have hop := congrArg (BitVec.extractLsb' 3 4) h
    have hrsv := congrArg (BitVec.extractLsb' 0 3) h
    rw [BitVec.extractLsb'_append_eq_left, BitVec.extractLsb'_append_eq_left] at hop
    rw [BitVec.extractLsb'_append_eq_right, BitVec.extractLsb'_append_eq_right] at hrsv
    exact ⟨hop, hrsv⟩
  · rintro ⟨hop, hrsv⟩
    rw [hop, hrsv]

theorem decodeHC_eq_begin_iff (w : CommandWord) :
    decodeHC w = .ok .begin ↔ fieldOp w = 1 ∧ fieldRsv w = 0 := by
  unfold decodeHC
  by_cases hrsv : fieldRsv w = 0
  · rw [if_neg (not_not_intro hrsv)]
    by_cases hop : fieldOp w = 1
    · simp [hrsv, hop]
    · rw [if_neg hop]
      refine iff_of_false (fun h => ?_) (fun h => hop h.1)
      repeat' split at h
      all_goals cases h
  · rw [if_pos hrsv]
    exact iff_of_false nofun (fun h => hrsv h.2)

theorem matches_begin_iff (w : CommandWord) :
    w &&& 0xFE00000000 = 0x1000000000 ↔ decodeHC w = .ok .begin :=
  (matches_row_iff w 1).trans (decodeHC_eq_begin_iff w).symm

/-! ## A command word -/

/-- Whatever a command word does, the configuration stays (R21), the bus is quiet again (R22), and only BEGIN in
`Uninitialized` can change `CTRL` (R16). -/
theorem acceptCommand_keeps {s t : State} (hc : s.cfg.Valid) (hr : s.cfg.relayMode = .directLink) (hq : s.bus.Quiet)
    (hready : s.ctrl = .ready → Fits s.cfg) {w : CommandWord} (h : acceptPacket (.command w) s = .next t) :
    t.cfg = s.cfg ∧ t.bus.Quiet ∧ (s.ctrl = .uninitialized ∧ decodeHC w = .ok .begin ∨ t.ctrl = s.ctrl) := by
  obtain ⟨t', ht', hcases⟩ := acceptCommand_cases hc hr hq hready w
  cases h.symm.trans ht'
  have hafter := fun m wel ptr frames events draws => after_quiet s.bus m wel ptr frames events draws hq
  rcases hcases with rfl | rfl | ⟨hctrl, hdecode, -, q, d, events, rfl⟩ | ⟨hctrl, hdecode, -, e, he, -, rfl⟩ |
    ⟨-, -, rfl⟩ | ⟨-, -, x, y, on, q, d, events, -, -, rfl⟩ | ⟨-, -, q, d, events, r, rfl⟩ |
    ⟨-, -, q, d, events, rfl⟩ | ⟨-, -, q, d, events, rfl⟩
  case inl | inr.inl => exact ⟨rfl, hq, Or.inr rfl⟩
  case inr.inr.inl => exact ⟨rfl, hafter _ _ _ _ _ _, Or.inl ⟨hctrl, hdecode⟩⟩
  case inr.inr.inr.inl => exact ⟨rfl, he, Or.inl ⟨hctrl, hdecode⟩⟩
  case inr.inr.inr.inr.inl => exact ⟨rfl, hq, Or.inr rfl⟩
  all_goals exact ⟨rfl, hafter _ _ _ _ _ _, Or.inr rfl⟩

/-- BEGIN in `Uninitialized` leaves it, to `Ready` when the frame fits the store and else to `Failed` (R101, R117). -/
theorem execBegin_ctrl {s t : State} (hc : s.cfg.Valid) (hq : s.bus.Quiet) (hctrl : s.ctrl = .uninitialized)
    (h : execBegin s = .next t) : t.ctrl = if Fits s.cfg then .ready else .failed := by
  by_cases hfits : Fits s.cfg
  · obtain ⟨q, d, he⟩ := execBegin_ok hc hq hctrl hfits
    cases h.symm.trans he
    rw [if_pos hfits]
    rfl
  · obtain ⟨k, q, d, -, -, -, he⟩ := execBegin_short hc hq hctrl hfits
    cases h.symm.trans he
    rw [if_neg hfits]
    rfl

/-- The transitions of `CTRL` under a command word (R16, R117). -/
theorem acceptCommand_ctrl {s t : State} (hc : s.cfg.Valid) (hr : s.cfg.relayMode = .directLink) (hq : s.bus.Quiet)
    (hready : s.ctrl = .ready → Fits s.cfg) {w : CommandWord} (h : acceptPacket (.command w) s = .next t) :
    t.ctrl =
      if s.ctrl = .uninitialized ∧ w &&& 0xFE00000000 = 0x1000000000 then if Fits s.cfg then .ready else .failed
      else s.ctrl := by
  by_cases hbegin : s.ctrl = .uninitialized ∧ w &&& 0xFE00000000 = 0x1000000000
  · rw [if_pos hbegin]
    obtain ⟨hctrl, hword⟩ := hbegin
    simp only [acceptPacket, decode, (matches_begin_iff w).mp hword] at h
    exact execBegin_ctrl hc hq hctrl h
  · rw [if_neg hbegin]
    obtain ⟨-, -, hcases⟩ := acceptCommand_keeps hc hr hq hready h
    exact hcases.resolve_left fun ⟨hctrl, hdecode⟩ => hbegin ⟨hctrl, (matches_begin_iff w).mpr hdecode⟩

/-! ## The windows no host makes -/

theorem readTransaction_quiet {c : Config} (hc : c.Valid) {b : Bus} (hq : b.Quiet) {a n : Nat} (hn : 1 ≤ n)
    (hbound : boundOk c a n = true) : (b.readTransaction c a n).Quiet := by
  obtain ⟨-, hd, -, -, hsh⟩ := hq
  rw [boundOk_iff] at hbound
  obtain ⟨q, he, -⟩ := readTransaction_eq hc.2.2.2.2.1 hd (a := a) (n := n) (by omega) (by omega)
  rw [he]
  exact ⟨rfl, hd, rfl, rfl, hsh⟩

theorem writeEnable_quiet (c : Config) {b : Bus} (hq : b.Quiet) : (b.writeEnable c).Quiet := by
  obtain ⟨-, hd, -, -, hsh⟩ := hq
  rw [writeEnable_eq hd]
  exact ⟨rfl, hd, rfl, rfl, hsh⟩

theorem writeTransaction_quiet {c : Config} (hc : c.Valid) {b : Bus} (hq : b.Quiet) (hwel : b.store.wel = true)
    {a : Nat} {data : List Byte} (hlen : 1 ≤ data.length) (hbound : boundOk c a data.length = true) :
    (b.writeTransaction c a data).Quiet := by
  obtain ⟨-, -, -, -, hmax, -, -, -, hop, -⟩ := hc
  obtain ⟨-, hd, -, -, hsh⟩ := hq
  rw [boundOk_iff] at hbound
  obtain ⟨q, he, -⟩ := writeTransaction_eq hmax hop hd hwel (a := a) (data := data) (by omega) (by omega)
  rw [he]
  exact ⟨rfl, hd, rfl, rfl, hsh⟩

theorem showFrame_quiet (c : Config) {b : Bus} (hq : b.Quiet) (frame : List Byte) : (b.showFrame c frame).Quiet := by
  obtain ⟨hs, -, hm, hh, -⟩ := hq
  obtain ⟨p, he⟩ := showFrame_eq hs frame
  rw [he]
  exact ⟨hs, rfl, hm, hh, rfl⟩

/-- What a store window that is a row of the table can be (R57). -/
theorem decodeSB_cases {c : Config} {sent : List Byte} {i : Instr} (h : decodeSB c sent = .ok i) :
    i = .sbWren ∨ (∃ a n, i = .sbRead a n) ∨ ∃ a data, i = .sbWrite a data := by
  unfold decodeSB at h
  repeat' split at h
  all_goals cases h
  · exact Or.inl rfl
  · exact Or.inr (Or.inl ⟨_, _, rfl⟩)
  · exact Or.inr (Or.inr ⟨_, _, rfl⟩)

/-- What a display window that is a row of the table can be (R59). -/
theorem decodeDF_cases {c : Config} {shifted : List Byte} {i : Instr} (h : decodeDF c shifted = .ok i) :
    (∃ v data, i = .dfWrite v data) ∨ ∃ v marker write, i = .dfClear v marker write := by
  unfold decodeDF at h
  repeat' split at h
  all_goals cases h
  · exact Or.inr ⟨_, _, _, rfl⟩
  · exact Or.inl ⟨_, _, rfl⟩

/-- A step that answers to a window found a row of the table in it. -/
theorem acceptStoreWindow_decodes {s t : State} {sent : List Byte} (h : acceptPacket (.storeWindow sent) s = .next t) :
    ∃ i, decodeSB s.cfg sent = .ok i ∧ exec i s = .next t := by
  simp only [acceptPacket, decode] at h
  split at h
  · next i hdecode => exact ⟨i, hdecode, h⟩
  · cases h

theorem acceptDisplayWindow_decodes {s t : State} {shifted : List Byte}
    (h : acceptPacket (.displayWindow shifted) s = .next t) :
    ∃ i, decodeDF s.cfg shifted = .ok i ∧ exec i s = .next t := by
  simp only [acceptPacket, decode] at h
  split at h
  · next i hdecode => exact ⟨i, hdecode, h⟩
  · cases h

/-- What an instruction of a window can do: run its bus events to a quiet bus, or raise `OutOfRange` before any. -/
abbrev WindowOutcome (s t : State) : Prop :=
  (∃ b : Bus, b.Quiet ∧ t = { s with bus := b }) ∨ ∃ e : OutOfRange, e.bus = s.bus ∧ t = s.raiseOutOfRange e

theorem execSbRead_cases {s t : State} (hc : s.cfg.Valid) (hq : s.bus.Quiet) {a : Addr} {n : Nat}
    (h : execSbRead a n s = .next t) : WindowOutcome s t := by
  unfold execSbRead storeRead at h
  split at h
  · cases h
  · next hn =>
    by_cases hbound : boundOk s.cfg a.toNat n = true
    · rw [if_pos hbound] at h
      cases h
      exact Or.inl ⟨_, readTransaction_quiet hc hq (by omega) hbound, rfl⟩
    · rw [if_neg hbound] at h
      cases h
      exact Or.inr ⟨_, rfl, rfl⟩

theorem execSbWrite_cases {s t : State} (hc : s.cfg.Valid) (hq : s.bus.Quiet) {a : Addr} {data : List Byte}
    (h : execSbWrite a data s = .next t) : WindowOutcome s t := by
  unfold execSbWrite at h
  split at h
  · cases h
  · next hlen =>
    split at h
    · next hbound =>
      split at h <;> cases h
      next hwel => exact Or.inl ⟨_, writeTransaction_quiet hc hq hwel (by omega) hbound, rfl⟩
    · cases h
      exact Or.inr ⟨_, rfl, rfl⟩

/-- A store window (R57, notes/assumptions/17.md). -/
theorem acceptStoreWindow_cases {s t : State} (hc : s.cfg.Valid) (hq : s.bus.Quiet) {sent : List Byte}
    (h : acceptPacket (.storeWindow sent) s = .next t) : WindowOutcome s t := by
  obtain ⟨i, hdecode, hexec⟩ := acceptStoreWindow_decodes h
  rcases decodeSB_cases hdecode with rfl | ⟨a, n, rfl⟩ | ⟨a, data, rfl⟩
  · cases hexec
    exact Or.inl ⟨_, writeEnable_quiet s.cfg hq, rfl⟩
  · exact execSbRead_cases hc hq hexec
  · exact execSbWrite_cases hc hq hexec

/-- A display window (R59) shows a frame and does nothing else. -/
theorem acceptDisplayWindow_cases {s t : State} {shifted : List Byte}
    (h : acceptPacket (.displayWindow shifted) s = .next t) :
    ∃ frame, t = { s with bus := s.bus.showFrame s.cfg frame } := by
  obtain ⟨i, hdecode, hexec⟩ := acceptDisplayWindow_decodes h
  rcases decodeDF_cases hdecode with ⟨v, data, rfl⟩ | ⟨v, marker, write, rfl⟩
  · simp only [exec, execDfWrite] at hexec
    split at hexec <;> cases hexec
    exact ⟨_, rfl⟩
  · cases hexec
    exact ⟨_, rfl⟩

/-! ## Every step keeps the invariant -/

section
variable {s t : State} (hc : s.cfg.Valid) (hr : s.cfg.relayMode = .directLink) (hinv : MachineInv s)
include hc hinv

include hr in
theorem acceptCommand_keeps_machineInv {w : CommandWord} (h : acceptPacket (.command w) s = .next t) :
    MachineInv t := by
  have ⟨_, _, hq, hready⟩ := hinv
  obtain ⟨hcfg, hquiet, -⟩ := acceptCommand_keeps hc hr hq hready h
  refine machineInv_of_follows hinv hcfg (follows_acceptPacket h) hquiet (fun hctrl => ?_)
  rw [acceptCommand_ctrl hc hr hq hready h] at hctrl
  split at hctrl
  · split at hctrl
    · assumption
    · cases hctrl
  · exact hready hctrl

theorem acceptStoreWindow_keeps_machineInv {sent : List Byte} (h : acceptPacket (.storeWindow sent) s = .next t) :
    MachineInv t := by
  have ⟨_, _, hq, hready⟩ := hinv
  have hfollows := follows_acceptPacket h
  rcases acceptStoreWindow_cases hc hq h with ⟨b, hb, rfl⟩ | ⟨e, he, rfl⟩
  · exact machineInv_of_follows hinv rfl hfollows hb hready
  · exact machineInv_of_follows hinv rfl hfollows (by rw [raiseOutOfRange_bus, he]; exact hq) nofun

omit hc in
theorem acceptDisplayWindow_keeps_machineInv {shifted : List Byte}
    (h : acceptPacket (.displayWindow shifted) s = .next t) : MachineInv t := by
  have ⟨_, _, hq, hready⟩ := hinv
  have hfollows := follows_acceptPacket h
  obtain ⟨frame, rfl⟩ := acceptDisplayWindow_cases h
  exact machineInv_of_follows hinv rfl hfollows (showFrame_quiet s.cfg hq frame) hready

include hr in
theorem takeInput_keeps_machineInv {i : Input} (h : takeInput i s = .next t) : MachineInv t := by
  have ⟨hwf, hbelow, _, _⟩ := hinv
  cases i with
  | packet p =>
    cases p with
    | command w => exact acceptCommand_keeps_machineInv hc hr hinv h
    | storeWindow sent => exact acceptStoreWindow_keeps_machineInv hc hinv h
    | displayWindow shifted => exact acceptDisplayWindow_keeps_machineInv hinv h
  | commandCut w n midByte =>
    obtain ⟨events, rfl⟩ := acceptCut_cases h
    rw [resetDuring_eq]
    exact machineInv_assertReset (cutAt_keeps ⟨hwf, hbelow⟩ events n midByte)
  | reset =>
    cases h
    exact machineInv_assertReset ⟨hwf, hbelow⟩

end

/-- Settles O55, input by input: an idle step changes nothing, and the invariant does not look at the inbox. -/
theorem stepKeepsMachineInv : Obligations.StepKeepsMachineInv := by
  intro s t hinv hstep
  obtain ⟨hc, hr⟩ := config_of_step hstep
  rcases step_cases hstep with ⟨-, rfl⟩ | ⟨i, rest, -, h⟩
  · exact hinv
  · exact takeInput_keeps_machineInv (s := { s with inbox := rest }) hc hr hinv h

/-! ## The transitions of `CTRL` -/

theorem takeInput_reset_ctrl {s t : State} {i : Input}
    (hi : i = .reset ∨ ∃ w n midByte, i = .commandCut w n midByte) (h : takeInput i s = .next t) :
    t.ctrl = .uninitialized := by
  rcases hi with rfl | ⟨w, n, midByte, rfl⟩
  · cases h
    rfl
  · obtain ⟨events, rfl⟩ := acceptCut_cases h
    rfl

/-- Settles O49, from what each kind of input can do. -/
theorem ctrlTransitions : Obligations.CtrlTransitions := by
  rintro s t i rest ⟨-, -, hq, hready⟩ hinbox hstep
  obtain ⟨hc, hr⟩ := config_of_step hstep
  rw [step_input hc hr hinbox] at hstep
  refine ⟨?_, fun hi => takeInput_reset_ctrl hi hstep, ?_, ?_⟩
  · rintro w rfl
    exact acceptCommand_ctrl (s := { s with inbox := rest }) hc hr hq hready hstep
  · rintro shifted rfl
    obtain ⟨frame, rfl⟩ := acceptDisplayWindow_cases hstep
    rfl
  · rintro sent rfl
    rcases acceptStoreWindow_cases (s := { s with inbox := rest }) hc hq hstep with ⟨b, -, rfl⟩ | ⟨e, -, rfl⟩
    · exact Or.inl ⟨rfl, rfl, rfl, rfl⟩
    · exact Or.inr ⟨rfl, rfl⟩

end Sys2Proof.Machine
end

section
/-! PROOFS. The persisted layout (spec/20_memory.md R33, R34, R36): line numbers, trailers and padding bits stand in
`Ready` through every input of the host. -/

namespace Sys2Proof.Machine

/-! ## Bits of a byte in the two views (R81, R85, R86) -/

theorem getLsbD_moveBit (b : Byte) (i j k : Nat) :
    (moveBit b i j).getLsbD k = (decide (k < 8) && decide (k = j) && b.getLsbD i) := by
  simp only [moveBit, BitVec.getLsbD_shiftLeft, BitVec.getLsbD_and, BitVec.getLsbD_ushiftRight]
  by_cases hk : k = j
  · simp [hk]
  · by_cases hlt : k < j
    · simp [hk, hlt]
    · simp [hk, show k - j ≠ 0 by omega]

theorem getLsbD_reverse (b : Byte) {i : Nat} (hi : i < 8) : (reverse b).getLsbD i = b.getLsbD (7 - i) := by
  simp only [reverse, BitVec.getLsbD_or, getLsbD_moveBit]
  have hcases : i = 0 ∨ i = 1 ∨ i = 2 ∨ i = 3 ∨ i = 4 ∨ i = 5 ∨ i = 6 ∨ i = 7 := by omega
  rcases hcases with rfl | rfl | rfl | rfl | rfl | rfl | rfl | rfl <;> simp

theorem reverse_reverse (b : Byte) : reverse (reverse b) = b := by
  refine BitVec.eq_of_getLsbD_eq fun i hi => ?_
  rw [getLsbD_reverse _ hi, getLsbD_reverse _ (by omega), show 7 - (7 - i) = i by omega]

theorem natMask_eq_twoPow (i : Fin 8) : natMask i = BitVec.twoPow 8 i := by
  revert i
  decide

/-- TEST reads one bit of the natural view: the pixel is on when that bit is 0. -/
theorem testBit_eq (s : Byte) (i : Fin 8) : testBit s i = !(reverse s).getLsbD i := by
  rw [testBit, toNatural, natMask_eq_twoPow, BitVec.and_twoPow]
  cases (reverse s).getLsbD i
  · rfl
  · revert i
    decide

theorem getLsbD_driveBit_of_ne (n : NaturalByte) {i j : Fin 8} (on : Bool) (h : j ≠ i) :
    (driveBit n i on).bits.getLsbD j = n.bits.getLsbD j := by
  have hmask : (natMask i).getLsbD j = false := by
    rw [natMask_eq_twoPow, BitVec.getLsbD_twoPow]
    simp [show i.val ≠ j.val by omega]
  unfold driveBit
  split
  · rw [BitVec.getLsbD_or, hmask, Bool.or_false]
  · rw [BitVec.getLsbD_and, BitVec.getLsbD_not, hmask]
    simp

/-- MUTATE drives its own pixel and no other. -/
theorem testBit_mutate_of_ne (s : Byte) {i j : Fin 8} (on : Bool) (h : j ≠ i) :
    testBit (mutate s i on) j = testBit s j := by
  rw [testBit_eq, testBit_eq, mutate, toStored, reverse_reverse, getLsbD_driveBit_of_ne _ _ h, toNatural]

theorem testBit_blankByte (i : Fin 8) : testBit blankByte i = false := by
  revert i
  decide

/-! ## The layout of a memory -/

/-- The padding bits of a row's last data byte read as off (R36). -/
def PaddingOff (c : Config) (v : Byte) : Prop :=
  ∀ i : Fin 8, c.width < 8 * c.rowBytes → c.width % 8 ≤ i.val → testBit v i = false

/-- What `LayoutInv` says of the memory in `Ready` (`layoutInv_iff`). -/
def Layout (c : Config) (m : Memory) : Prop :=
  ∀ y, y < c.height →
    m.read (recAddr c y) = lineNum y ∧
    m.read (recAddr c y + c.record - 1) = trailerByte ∧
    PaddingOff c (m.read (recAddr c y + c.rowBytes))

theorem layoutInv_iff (s : State) : LayoutInv s ↔ (s.ctrl = .ready → Layout s.cfg s.bus.store.mem) := Iff.rfl

/-- No address lies in two records. -/
theorem record_unique {c : Config} {a y z : Nat} (hy : recAddr c y ≤ a) (hy' : a < recAddr c y + c.record)
    (hz : recAddr c z ≤ a) (hz' : a < recAddr c z + c.record) : y = z := by
  rcases Nat.lt_trichotomy y z with hlt | heq | hgt
  · have := recAddr_lt c hlt
    omega
  · exact heq
  · have := recAddr_lt c hgt
    omega

/-- A write keeps the layout if it misses the framing bytes and keeps the padding of a row's last data byte. -/
theorem layout_write {c : Config} {m : Memory} (h : Layout c m) {a : Nat} {v : Byte}
    (hline : ∀ y, recAddr c y ≠ a) (htrailer : ∀ y, recAddr c y + c.record - 1 ≠ a)
    (hpad : ∀ y, y < c.height → recAddr c y + c.rowBytes = a → PaddingOff c v) : Layout c (m.write a v) := by
  intro y hy
  obtain ⟨hl, ht, hp⟩ := h y hy
  rw [Memory.read_write_other _ _ _ (hline y), Memory.read_write_other _ _ _ (htrailer y), Memory.read_write]
  refine ⟨hl, ht, ?_⟩
  split
  · next ha => exact hpad y hy ha
  · exact hp

/-- The header lies below every record (R31). -/
theorem layout_write_header {c : Config} {m : Memory} (h : Layout c m) {a : Nat} (ha : a < 3) (v : Byte) :
    Layout c (m.write a v) := by
  have hrec := record_ge c
  refine layout_write h (fun y => ?_) (fun y => ?_) (fun y _ hlast => ?_) <;>
    · have := recAddr_ge c y
      omega

/-- A data byte of a row is none of its framing bytes, nor of another row's (R33). -/
theorem layout_write_data {c : Config} {m : Memory} (h : Layout c m) {a y : Nat} (hlo : recAddr c y + 1 ≤ a)
    (hhi : a ≤ recAddr c y + c.rowBytes) {v : Byte} (hpad : recAddr c y + c.rowBytes = a → PaddingOff c v) :
    Layout c (m.write a v) := by
  have hrec := record_eq c
  have hrow : ∀ {z}, recAddr c z ≤ a → a < recAddr c z + c.record → y = z := fun hz hz' =>
    record_unique (by omega) (by omega) hz hz'
  refine layout_write h (fun z hz => ?_) (fun z hz => ?_) (fun z _ hz => ?_) <;>
    obtain rfl := hrow (z := z) (by omega) (by omega)
  · omega
  · omega
  · exact hpad hz

/-- The bulk write of BEGIN and CLEAR lays out every row (R111). -/
theorem layout_recordsMemory {c : Config} (hc : c.Valid) (m : Memory) :
    Layout c (recordsMemory c (List.range c.height) m) := by
  intro y hy
  obtain ⟨hline, hdata, htrailer⟩ := read_recordsMemory_fields c m hy
  refine ⟨hline, htrailer, ?_⟩
  have hpos := rowBytes_pos hc
  have hlast := hdata (c.rowBytes - 1) (by omega)
  rw [show recAddr c y + 1 + (c.rowBytes - 1) = recAddr c y + c.rowBytes by omega] at hlast
  rw [hlast]
  exact fun i _ _ => testBit_blankByte i

theorem layout_beginMemory {c : Config} (hc : c.Valid) (m : Memory) : Layout c (beginMemory c m) :=
  layout_recordsMemory hc _

theorem layout_clearMemory {c : Config} (hc : c.Valid) (v : Bool) (m : Memory) : Layout c (clearMemory c v m) :=
  layout_write_header (layout_recordsMemory hc m) (by decide) _

theorem layout_refreshMemory {c : Config} {m : Memory} (h : Layout c m) (v : Bool) : Layout c (refreshMemory c v m) :=
  layout_write_header h (by decide) _

/-! ## The pixel write -/

/-- In a row's last data byte, an in-bounds pixel's bit lies below the padding. -/
theorem pixBit_lt_padding {c : Config} {x y : Int} (h : inBounds c x y = true)
    (hlast : pixAddress c x y = recAddr c y.toNat + c.rowBytes) (hpadded : c.width < 8 * c.rowBytes) :
    (pixBit x).val < c.width % 8 := by
  rw [inBounds_iff] at h
  rw [pixAddress_eq] at hlast
  simp only [Config.rowBytes, pixBit] at *
  omega

/-- The padding is out of a pixel's reach (R36): in a row's last data byte MUTATE changes another bit. -/
theorem layout_write_pixel {c : Config} {m : Memory} (h : Layout c m) {x y : Int} (hin : inBounds c x y = true)
    (on : Bool) :
    Layout c (m.write (pixAddress c x y) (mutate (m.read (pixAddress c x y)) (pixBit x) on)) := by
  obtain ⟨hy, hlo, hhi⟩ := pixAddress_bounds hin
  obtain ⟨-, -, hpad⟩ := h _ hy
  refine layout_write_data h hlo hhi (fun hlast i hpadded hi => ?_)
  have hlt := pixBit_lt_padding hin hlast.symm hpadded
  rw [testBit_mutate_of_ne _ _ (fun heq => by subst heq; omega), ← hlast]
  exact hpad i hpadded hi

/-! ## Every input of the host -/

/-- A command word: BEGIN and CLEAR lay out every row, SETPIXEL writes a pixel's byte, REFRESH a header slot, and any
other word leaves the memory or `Ready`. -/
theorem acceptCommand_keeps_layout {s t : State} (hc : s.cfg.Valid) (hr : s.cfg.relayMode = .directLink)
    (hinv : MachineInv s) (hlayout : LayoutInv s) {w : CommandWord} (h : acceptPacket (.command w) s = .next t) :
    LayoutInv t := by
  obtain ⟨-, -, hq, hready⟩ := hinv
  obtain ⟨t', ht', hcases⟩ := acceptCommand_cases hc hr hq hready w
  cases h.symm.trans ht'
  rw [layoutInv_iff] at hlayout ⊢
  rcases hcases with rfl | rfl | ⟨-, -, -, q, d, events, rfl⟩ | ⟨-, -, -, e, -, -, rfl⟩ | ⟨-, -, rfl⟩ |
    ⟨hctrl, -, x, y, on, q, d, events, -, hin, rfl⟩ | ⟨-, -, q, d, events, r, rfl⟩ |
    ⟨-, -, q, d, events, rfl⟩ | ⟨hctrl, -, q, d, events, rfl⟩
  case inr.inr.inl => exact fun _ => layout_beginMemory hc _
  case inr.inr.inr.inl => exact nofun
  case inr.inr.inr.inr.inr.inl => exact fun _ => layout_write_pixel (hlayout hctrl) hin on
  case inr.inr.inr.inr.inr.inr.inr.inl => exact fun _ => layout_clearMemory hc _ _
  case inr.inr.inr.inr.inr.inr.inr.inr => exact fun _ => layout_refreshMemory (hlayout hctrl) _
  all_goals exact hlayout

theorem takeInput_keeps_layout {s t : State} (hc : s.cfg.Valid) (hr : s.cfg.relayMode = .directLink)
    (hinv : MachineInv s) (hlayout : LayoutInv s) {i : Input} (hhost : i.fromHost = true)
    (h : takeInput i s = .next t) : LayoutInv t := by
  have hreset : t.ctrl = .uninitialized → LayoutInv t := fun hu hready => nomatch hu.symm.trans hready
  cases i with
  | packet p =>
    cases p with
    | command w => exact acceptCommand_keeps_layout hc hr hinv hlayout h
    | storeWindow sent => cases hhost
    | displayWindow shifted => cases hhost
  | commandCut w n midByte => exact hreset (takeInput_reset_ctrl (Or.inr ⟨w, n, midByte, rfl⟩) h)
  | reset => exact hreset (takeInput_reset_ctrl (Or.inl rfl) h)

/-- Settles O56, input by input: an idle step changes nothing, a command keeps the layout, and after a reset `CTRL` is
not `Ready`. -/
theorem hostStepKeepsLayout : Obligations.HostStepKeepsLayout := by
  intro s t hinv hhost hlayout hstep
  obtain ⟨hc, hr⟩ := config_of_step hstep
  rcases step_cases hstep with ⟨-, rfl⟩ | ⟨i, rest, hinbox, h⟩
  · exact hlayout
  · exact takeInput_keeps_layout (s := { s with inbox := rest }) hc hr hinv hlayout
      (hhost i (by rw [hinbox]; exact List.mem_cons_self)) h

end Sys2Proof.Machine
end

section
/-! PROOFS. The encodings (spec/30_encoding.md): the opcode map and its reserved words (R52 to R55), the VCOM bit of a
command byte (R60), and the decoders against the encoder (R51 to R60). -/

namespace Sys2Proof.Machine

/-! ## The VCOM bit of a command byte (R60) -/

theorem cmdByte_false (c : Config) (template : Byte) : cmdByte c template false = template := BitVec.or_zero

theorem cmdByte_true (c : Config) (template : Byte) : cmdByte c template true = template ||| c.vcomMask := rfl

theorem cmdByte_true_and_mask (c : Config) (template : Byte) :
    cmdByte c template true &&& c.vcomMask = c.vcomMask := by
  rw [cmdByte_true]
  ext i hi
  cases h : c.vcomMask[i] <;> simp [h]

/-- The mask has a bit set, and a template has none of its bits (R9 item 6), so the two command bytes differ there. -/
theorem cmdByte_true_ne_false {c : Config} {template : Byte} (hmask : c.vcomMask ≠ 0)
    (h : template &&& c.vcomMask = 0) : cmdByte c template true ≠ cmdByte c template false := by
  intro heq
  apply hmask
  rw [← cmdByte_true_and_mask c template, heq, cmdByte_false, h]

theorem template_and_mask {c : Config} (hc : c.Valid) {template : Byte}
    (h : template ∈ [c.cmdClear, c.cmdWrite]) : template &&& c.vcomMask = 0 := by
  obtain ⟨-, -, -, -, -, -, hclear, hwrite, -⟩ := hc
  simp only [List.mem_cons, List.not_mem_nil, or_false] at h
  rcases h with rfl | rfl
  · exact hclear
  · exact hwrite

/-- Settles O5, for either template. -/
theorem commandByteCarriesVcom : Obligations.CommandByteCarriesVcom := by
  intro c hc template htemplate
  have hmask : c.vcomMask ≠ 0 := hc.2.2.2.2.2.1
  have hand := template_and_mask hc htemplate
  refine ⟨cmdByte_true_and_mask c template, ?_, cmdByte_false c template, cmdByte_true_ne_false hmask hand⟩
  rw [cmdByte_false, hand]

theorem vcomOfCmdByte_cmdByte {c : Config} (hc : c.Valid) {template : Byte}
    (h : template ∈ [c.cmdClear, c.cmdWrite]) (v : Bool) :
    vcomOfCmdByte c template (cmdByte c template v) = some v := by
  have hmask : c.vcomMask ≠ 0 := hc.2.2.2.2.2.1
  cases v with
  | false => exact if_pos rfl
  | true =>
    unfold vcomOfCmdByte
    rw [if_neg (cmdByte_true_ne_false hmask (template_and_mask hc h)), if_pos rfl]

theorem eq_cmdByte_of_vcomOfCmdByte {c : Config} {template b : Byte} {v : Bool}
    (h : vcomOfCmdByte c template b = some v) : b = cmdByte c template v := by
  unfold vcomOfCmdByte at h
  split at h
  · next hb => cases h; exact hb
  · split at h
    · next hb => cases h; exact hb
    · cases h

/-! ## Host command words (R52 to R55) -/

theorem fieldX_eq_shift (w : CommandWord) : fieldX w = (w >>> 16).setWidth 16 :=
  BitVec.eq_of_toNat_eq (by simp [fieldX])

theorem fieldY_eq_setWidth (w : CommandWord) : fieldY w = w.setWidth 16 :=
  BitVec.eq_of_toNat_eq (by simp [fieldY])

theorem fieldOn_eq_one_iff (w : CommandWord) : fieldOn w = 1 ↔ w.getLsbD 32 = true := by
  constructor
  · intro h
    simpa [fieldOn] using congrArg (fun b : BitVec 1 => b.getLsbD 0) h
  · intro h
    refine BitVec.eq_of_getLsbD_eq fun i hi => ?_
    obtain rfl : i = 0 := by omega
    simpa [fieldOn] using h

theorem toNat_fieldOp (w : CommandWord) : (fieldOp w).toNat = w.toNat / 2 ^ 36 := by
  have := w.isLt
  rw [fieldOp, BitVec.extractLsb'_toNat, Nat.shiftRight_eq_div_pow]
  omega

theorem toNat_fieldRsv (w : CommandWord) : (fieldRsv w).toNat = w.toNat / 2 ^ 33 % 8 := by
  rw [fieldRsv, BitVec.extractLsb'_toNat, Nat.shiftRight_eq_div_pow]

theorem reserved_iff (w : CommandWord) :
    Reserved w ↔ fieldOp w = 0 ∨ 6 ≤ (fieldOp w).toNat ∨ fieldRsv w ≠ 0 := by
  rw [Reserved, ← toNat_fieldOp, ← toNat_fieldRsv, ne_eq, ne_eq, ← BitVec.toNat_inj, ← BitVec.toNat_inj]
  rfl

/-- The opcode map R54 on the fields of a word: one value of `OP` for each row, the others reserved (R55). -/
def rowOfOp (op : BitVec 4) (on : Bool) (x y : Coord) : Except DecodeError Instr :=
  if op = 1 then .ok .begin
  else if op = 2 then .ok (.setPixel x y on)
  else if op = 3 then .ok (.getPixel x y)
  else if op = 4 then .ok .clear
  else if op = 5 then .ok .refresh
  else .error .reservedOperation

theorem decodeHC_eq_rowOfOp {w : CommandWord} (hrsv : fieldRsv w = 0) :
    decodeHC w = rowOfOp (fieldOp w) (fieldOn w = 1) (fieldX w) (fieldY w) := by
  rw [decodeHC, if_neg (not_not_intro hrsv), rowOfOp]

theorem decodeHC_packHC (op : BitVec 4) (on : Bool) (x y : Coord) :
    decodeHC (packHC op on x y) = rowOfOp op on x y := by
  rw [decodeHC_eq_rowOfOp (fieldRsv_packHC ..)]
  cases on <;> simp

/-- A word that matches the row of `op` (R54) decodes to that row, its operands read by shifting (R52, R53). -/
theorem decodeHC_of_matches {w : CommandWord} (op : BitVec 4)
    (h : w &&& 0xFE00000000 = op ++ (0 : BitVec 3) ++ (0 : BitVec 33)) :
    decodeHC w = rowOfOp op (w.getLsbD 32) ((w >>> 16).setWidth 16) (w.setWidth 16) := by
  obtain ⟨hop, hrsv⟩ := (matches_row_iff w op).mp h
  simp only [decodeHC_eq_rowOfOp hrsv, hop, fieldOn_eq_one_iff, Bool.decide_eq_true, fieldX_eq_shift,
    fieldY_eq_setWidth]

/-- Settles O1: each row of the opcode map is `decodeHC_of_matches` at its value of `OP`. -/
theorem opcodeMapDecodesMatchingWords : Obligations.OpcodeMapDecodesMatchingWords := fun _ =>
  ⟨decodeHC_of_matches 1, decodeHC_of_matches 2, decodeHC_of_matches 3, decodeHC_of_matches 4, decodeHC_of_matches 5⟩

/-- The values of `OP` without a row are 0 and those from 6 on (R55). -/
theorem op_reserved_iff (op : BitVec 4) :
    op = 0 ∨ 6 ≤ op.toNat ↔ op ≠ 1 ∧ op ≠ 2 ∧ op ≠ 3 ∧ op ≠ 4 ∧ op ≠ 5 := by
  revert op
  decide

theorem rowOfOp_error_iff (op : BitVec 4) (on : Bool) (x y : Coord) :
    (∃ why, rowOfOp op on x y = .error why) ↔ op = 0 ∨ 6 ≤ op.toNat := by
  rw [op_reserved_iff]
  constructor
  · rintro ⟨why, h⟩
    refine ⟨?_, ?_, ?_, ?_, ?_⟩ <;> rintro rfl <;> cases h
  · rintro ⟨h1, h2, h3, h4, h5⟩
    exact ⟨.reservedOperation, by rw [rowOfOp, if_neg h1, if_neg h2, if_neg h3, if_neg h4, if_neg h5]⟩

theorem decodeHC_error_iff (w : CommandWord) :
    (∃ why, decodeHC w = .error why) ↔ fieldRsv w ≠ 0 ∨ (fieldOp w = 0 ∨ 6 ≤ (fieldOp w).toNat) := by
  by_cases hrsv : fieldRsv w = 0
  · rw [decodeHC_eq_rowOfOp hrsv, rowOfOp_error_iff]
    exact (or_iff_right (not_not_intro hrsv)).symm
  · exact iff_of_true ⟨.reservedBits, by rw [decodeHC, if_pos hrsv]⟩ (Or.inl hrsv)

/-- Settles O2: both sides say the same of the fields `OP` and `RSV`. -/
theorem reservedWordsAreTheUndecodable : Obligations.ReservedWordsAreTheUndecodable := by
  intro w
  rw [reserved_iff, decodeHC_error_iff, or_comm (a := fieldRsv w ≠ 0), or_assoc]

/-- Settles O3, by running the decoders on the ten fixed encodings. -/
theorem specEncodingsDecode : Obligations.SpecEncodingsDecode :=
  ⟨rfl, rfl, rfl, rfl, rfl, rfl, rfl, rfl, rfl, rfl⟩

/-! ## Store windows (R57, R58) -/

section
variable {c : Config} (hc : c.Valid)
include hc

theorem decodeSB_readWindow (a : Addr) {n : Nat} (hn : 1 ≤ n) :
    decodeSB c (c.opRead :: addrHigh a :: addrLow a :: List.replicate n 0x00) = .ok (.sbRead a n) := by
  obtain ⟨-, -, -, -, -, -, -, -, -, hwren, -, -⟩ := hc
  obtain ⟨k, rfl⟩ : ∃ k, n = k + 1 := ⟨n - 1, by omega⟩
  rw [decodeSB, if_neg hwren, if_pos rfl]
  simp only [List.replicate_succ, List.length_replicate, addrOf_high_low]

theorem decodeSB_writeWindow (a : Addr) {data : List Byte} (hlen : 1 ≤ data.length) :
    decodeSB c (c.opWrite :: addrHigh a :: addrLow a :: data) = .ok (.sbWrite a data) := by
  obtain ⟨-, -, -, -, -, -, -, -, hread, -, hwren, -⟩ := hc
  cases data with
  | nil => cases hlen
  | cons first more =>
    rw [decodeSB, if_neg hwren, if_neg hread.symm, if_pos rfl]
    simp only [addrOf_high_low]

/-! ## Display frames (R59, R60) -/

/-- A frame of `DF.WRITE` is longer than one of `DF.CLEAR` (R59). -/
theorem frameSize_ge : 3 ≤ c.frameSize := by
  have hge := frameEnd_ge hc
  simp only [frameEnd, lineRecordBase] at hge
  omega

theorem decodeDF_clearFrame (v : Bool) (marker write : Byte) :
    decodeDF c [cmdByte c c.cmdClear v, marker, write] = .ok (.dfClear v marker write) := by
  simp only [decodeDF, vcomOfCmdByte_cmdByte hc List.mem_cons_self]

theorem decodeDF_writeFrame (v : Bool) {data : List Byte} (hlen : data.length = c.height * c.rowBytes) :
    decodeDF c (cmdByte c c.cmdWrite v :: frameRecords c c.height 0 data) = .ok (.dfWrite v data) := by
  have hsize : (frameRecords c c.height 0 data).length = c.frameSize := length_frameRecords c c.height 0 data hlen
  obtain ⟨hframed, hdata⟩ := framed_frameRecords c c.height 0 data hlen
  have hlong : ∀ marker write, frameRecords c c.height 0 data ≠ [marker, write] := by
    intro marker write h
    have hge := frameSize_ge hc
    rw [← hsize, h] at hge
    simp at hge
  rw [decodeDF, if_pos ((hasLength_iff _ _).mpr hsize)]
  · simp only [vcomOfCmdByte_cmdByte hc (List.mem_cons_of_mem _ List.mem_cons_self), hframed, if_true, hdata]
  · exact hlong

end

/-! ## All three (R51) -/

/-- Settles O4, row by row. -/
theorem decodeEncodeRoundTrip : Obligations.DecodeEncodeRoundTrip := by
  intro c i hc hwf
  cases i with
  | begin => exact decodeHC_packHC 1 false 0 0
  | setPixel x y on => exact decodeHC_packHC 2 on x y
  | getPixel x y => exact decodeHC_packHC 3 false x y
  | clear => exact decodeHC_packHC 4 false 0 0
  | refresh => exact decodeHC_packHC 5 false 0 0
  | sbRead a n => exact decodeSB_readWindow hc a (of_decide_eq_true hwf)
  | sbWren => exact if_pos rfl
  | sbWrite a data => exact decodeSB_writeWindow hc a (of_decide_eq_true hwf)
  | dfWrite v data => exact decodeDF_writeFrame hc v (of_decide_eq_true hwf)
  | dfClear v marker write => exact decodeDF_clearFrame hc v marker write

/-- Settles O59, for the two frames the decoder answers: the command byte is of its template, and the records are those
built from the data bytes read out of them. -/
theorem displayDecodingIsExact : Obligations.DisplayDecodingIsExact := by
  intro c frame i _ h
  unfold decodeDF at h
  split at h
  · cases h
  · next cmd marker write =>
    split at h
    · next v hv =>
      cases h
      rw [eq_cmdByte_of_vcomOfCmdByte hv]
      exact ⟨rfl, rfl⟩
    · cases h
  · next cmd records _ =>
    split at h
    · split at h
      · next v hv =>
        split at h
        · next hframed =>
          cases h
          obtain ⟨hrecords, hlen⟩ := frameRecords_of_framed c c.height 0 records hframed
          rw [eq_cmdByte_of_vcomOfCmdByte hv]
          exact ⟨by rw [encode, hrecords], decide_eq_true hlen⟩
        · cases h
      · cases h
    · cases h

end Sys2Proof.Machine
end

section
/-! PROOFS. The response of a command word (spec/30_encoding.md R56): one for every command, whatever the state. -/

namespace Sys2Proof.Machine

/-! ## The response word -/

theorem response_result (status : Status) (result : Bool) : (response status result).getLsbD 0 = result := by
  cases status <;> cases result <;> rfl

theorem response_status (status : Status) (result : Bool) :
    (response status result).toNat / 2 = status.code.toNat := by
  cases status <;> cases result <;> rfl

/-! ## Each command ends in one response -/

section
variable {s t : State}

/-- The command ended with one response, and its `RESULT` is 1 only if it ended `OK` and `on` holds. -/
abbrev RespondedOnce (on : Prop) (s t : State) : Prop :=
  ∃ status result, Responded s t status result ∧ (result = true → status = .ok ∧ on)

/-- A response with `RESULT` 0 promises nothing. -/
theorem respondedOnce_zero {on : Prop} {status : Status} (h : Responded s t status false) : RespondedOnce on s t :=
  ⟨status, false, h, nofun⟩

theorem respondedOnce_imp {on on' : Prop} (himp : on → on') (h : RespondedOnce on s t) : RespondedOnce on' s t := by
  obtain ⟨status, result, hresponded, hon⟩ := h
  exact ⟨status, result, hresponded, fun hr => ⟨(hon hr).1, himp (hon hr).2⟩⟩

theorem respondedOnce_admitIn {on : Prop} {needed : Ctrl} {command : State → Host.Outcome State Fault Refusal}
    (hcommand : command s = .next t → RespondedOnce on s t) (h : admitIn needed s command = .next t) :
    RespondedOnce on s t := by
  unfold admitIn at h
  split at h
  · exact hcommand h
  · cases h
    exact respondedOnce_zero ⟨rfl, rfl, rfl⟩

theorem storeRead_bytes {c : Config} {a n : Nat} {b b' : Bus} {bytes : Fin n → Byte}
    (h : storeRead c a n b = .ok (bytes, b')) (k : Fin n) : bytes k = b.store.mem.read (a + k.val) := by
  unfold storeRead at h
  split at h <;> cases h
  rfl

/-- What an image update does at the end: the toggle, and the bus of the relay with the response. -/
theorem toggleAndRelay_next {a lineCount lineLength : Nat} (h : toggleAndRelay a lineCount lineLength s = .next t) :
    ∃ b, relay s.cfg a lineCount lineLength s.bus = .next b ∧
      t = ({ s.toggleVcom with bus := b }.respond .ok false) := by
  simp only [toggleAndRelay, toggleVcom_cfg, toggleVcom_bus] at h
  cases hrelay : relay s.cfg a lineCount lineLength s.bus with
  | next b =>
    rw [hrelay] at h
    cases h
    exact ⟨b, rfl, rfl⟩
  | fault r => exact nomatch r
  | refused r =>
    rw [hrelay] at h
    cases h

theorem respondedOnce_execBegin (h : execBegin s = .next t) : RespondedOnce False s t := by
  refine respondedOnce_admitIn (fun h => ?_) h
  split at h <;> cases h
  · exact respondedOnce_zero ⟨rfl, rfl, rfl⟩
  · exact respondedOnce_zero ⟨rfl, rfl, rfl⟩

theorem respondedOnce_execSetPixel {x y : Coord} {on : Bool} (h : execSetPixel x y on s = .next t) :
    RespondedOnce False s t := by
  refine respondedOnce_admitIn (fun h => ?_) h
  simp only at h
  split at h
  · split at h
    · cases h
      exact respondedOnce_zero ⟨rfl, rfl, rfl⟩
    · split at h <;> cases h
      · exact respondedOnce_zero ⟨rfl, rfl, rfl⟩
      · exact respondedOnce_zero ⟨rfl, rfl, rfl⟩
  · cases h
    exact respondedOnce_zero ⟨rfl, rfl, rfl⟩

/-- What GETPIXEL answers 1 for: an in-bounds pixel that the TEST of its stored byte finds on (R75, R86, R103). -/
abbrev PixelFoundOn (s : State) (x y : Coord) : Prop :=
  inBounds s.cfg (coordinate x) (coordinate y) = true ∧
    testBit (s.read (pixAddress s.cfg (coordinate x) (coordinate y))) (pixBit (coordinate x)) = true

theorem respondedOnce_execGetPixel {x y : Coord} (h : execGetPixel x y s = .next t) :
    RespondedOnce (PixelFoundOn s x y) s t := by
  refine respondedOnce_admitIn (fun h => ?_) h
  simp only at h
  split at h
  · next hin =>
    split at h
    · cases h
      exact respondedOnce_zero ⟨rfl, rfl, rfl⟩
    · next bytes b hread =>
      cases h
      rw [storeRead_bytes hread]
      exact ⟨.ok, _, ⟨rfl, rfl, rfl⟩, fun hon => ⟨rfl, hin, hon⟩⟩
  · cases h
    exact respondedOnce_zero ⟨rfl, rfl, rfl⟩

theorem respondedOnce_execClear (h : execClear s = .next t) : RespondedOnce False s t := by
  refine respondedOnce_admitIn (fun h => ?_) h
  split at h
  · cases h
    exact respondedOnce_zero ⟨rfl, rfl, rfl⟩
  · obtain ⟨b, -, rfl⟩ := toggleAndRelay_next h
    exact respondedOnce_zero ⟨rfl, rfl, rfl⟩

theorem respondedOnce_execRefresh (h : execRefresh s = .next t) : RespondedOnce False s t := by
  refine respondedOnce_admitIn (fun h => ?_) h
  split at h
  · cases h
    exact respondedOnce_zero ⟨rfl, rfl, rfl⟩
  · obtain ⟨b, -, rfl⟩ := toggleAndRelay_next h
    exact respondedOnce_zero ⟨rfl, rfl, rfl⟩

end

/-- What a command word can decode to (R54). -/
theorem decodeHC_cases {w : CommandWord} {i : Instr} (h : decodeHC w = .ok i) :
    i = .begin ∨ (∃ x y on, i = .setPixel x y on) ∨ (∃ x y, i = .getPixel x y) ∨ i = .clear ∨ i = .refresh := by
  unfold decodeHC at h
  repeat' split at h
  all_goals cases h
  · exact Or.inl rfl
  · exact Or.inr (Or.inl ⟨_, _, _, rfl⟩)
  · exact Or.inr (Or.inr (Or.inl ⟨_, _, rfl⟩))
  · exact Or.inr (Or.inr (Or.inr (Or.inl rfl)))
  · exact Or.inr (Or.inr (Or.inr (Or.inr rfl)))

/-- A command word, reserved or not, in any state: one response, with `RESULT` 1 only from GETPIXEL (R56). -/
theorem respondedOnce_acceptCommand {s t : State} {w : CommandWord} (h : acceptPacket (.command w) s = .next t) :
    RespondedOnce (∃ x y, decodeHC w = .ok (.getPixel x y) ∧ PixelFoundOn s x y) s t := by
  simp only [acceptPacket, decode] at h
  split at h
  · next i hdecode =>
    rcases decodeHC_cases hdecode with rfl | ⟨x, y, on, rfl⟩ | ⟨x, y, rfl⟩ | rfl | rfl
    · exact respondedOnce_imp False.elim (respondedOnce_execBegin h)
    · exact respondedOnce_imp False.elim (respondedOnce_execSetPixel h)
    · exact respondedOnce_imp (fun hon => ⟨x, y, hdecode, hon⟩) (respondedOnce_execGetPixel h)
    · exact respondedOnce_imp False.elim (respondedOnce_execClear h)
    · exact respondedOnce_imp False.elim (respondedOnce_execRefresh h)
  · cases h
    exact respondedOnce_zero ⟨rfl, rfl, rfl⟩

/-- Settles O11: the response is the one the command ended with, and the TEST of GETPIXEL reads the natural bit. -/
theorem eachCommandRespondsOnce : Obligations.EachCommandRespondsOnce := by
  intro s t w rest hinbox hstep
  obtain ⟨hc, hr⟩ := config_of_step hstep
  rw [step_input hc hr hinbox] at hstep
  obtain ⟨status, result, ⟨hstatus, hresult, hresponses⟩, hon⟩ := respondedOnce_acceptCommand hstep
  subst hstatus hresult
  refine ⟨⟨_, hresponses, response_result _ _, ?_⟩, fun htrue => ?_⟩
  · rw [response_status]
    cases t.status <;> rfl
  · obtain ⟨hok, x, y, hdecode, hin, htest⟩ := hon htrue
    rw [testBit_eq, Bool.not_eq_true'] at htest
    exact ⟨hok, x, y, hdecode, hin, htest⟩

end Sys2Proof.Machine
end

section
/-! PROOFS. The store and display rows run by themselves (spec/30_encoding.md R57, R59), and the frames of CLEAR and
REFRESH as rows of format DF (spec/44_controller.md R104, R105). -/

namespace Sys2Proof.Machine

/-! ## Store rows by themselves (R57) -/

section
variable {s : State} (hc : s.cfg.Valid) (hq : s.bus.Quiet)
include hc hq

theorem execSbRead_ok {a : Addr} {n : Nat} (hn : 1 ≤ n) (hlast : a.toNat + n - 1 ≤ s.cfg.storeMaxAddr) :
    ∃ q d, ∃ p : Nat → Byte, execSbRead a n s =
      .next { s with
        bus := s.bus.after s.bus.store.mem s.bus.store.wel q []
          (readWindow s.cfg s.bus.store.mem a.toNat n p) d } ∧
      (a.toNat + n ≤ s.cfg.storeMaxAddr → q.toNat = a.toNat + n) := by
  obtain ⟨-, -, -, -, hmax, -⟩ := hc
  obtain ⟨hs, hd, hm, hh, -⟩ := hq
  obtain ⟨q, he, hptr⟩ := readTransaction_eq hmax hd (a := a.toNat) (n := n) (by omega) (by omega)
  refine ⟨q, s.bus.draws + n + 5, fun k => Config.placeholder (s.bus.draws + 4 + k), ?_, hptr⟩
  rw [execSbRead, if_neg (by omega), storeRead, if_pos (boundOk_iff.mpr hlast), he]
  simp [Bus.after, hs, hm, hh]

theorem execSbWrite_ok {a : Addr} {data : List Byte} (hwel : s.bus.store.wel = true) (hlen : 1 ≤ data.length)
    (hlast : a.toNat + data.length - 1 ≤ s.cfg.storeMaxAddr) :
    ∃ q d, execSbWrite a data s =
      .next { s with
        bus := s.bus.after (s.bus.store.mem.writeBytes a.toNat data) false q []
          (writeWindow s.cfg a.toNat data) d } ∧
      (a.toNat + data.length ≤ s.cfg.storeMaxAddr → q.toNat = a.toNat + data.length) := by
  obtain ⟨-, -, -, -, hmax, -, -, -, hop, -⟩ := hc
  obtain ⟨hs, hd, hm, hh, -⟩ := hq
  obtain ⟨q, he, hptr⟩ := writeTransaction_eq hmax hop hd hwel (a := a.toNat) (data := data) (by omega) (by omega)
  refine ⟨q, s.bus.draws + data.length + 5, ?_, hptr⟩
  rw [execSbWrite, if_neg (by omega), if_pos (boundOk_iff.mpr hlast), if_pos hwel, he]
  simp [Bus.after, hs, hm, hh]

omit hc in
theorem execSbWren_eq :
    ∃ d, execSbWren s =
      .next { s with bus := s.bus.after s.bus.store.mem true s.bus.store.ptr [] (wrenWindow s.cfg) d } := by
  obtain ⟨hs, hd, hm, hh, -⟩ := hq
  refine ⟨s.bus.draws + 3, ?_⟩
  rw [execSbWren, writeEnable_eq hd]
  simp [Bus.after, hs, hm, hh]

end

/-- Settles O30, from the one update an SB.READ makes. -/
theorem sbReadDrivesTheStoredBytes : Obligations.SbReadDrivesTheStoredBytes := by
  intro s a n hc hq hn hlast
  obtain ⟨q, d, p, he, hptr⟩ := execSbRead_ok hc hq hn hlast
  exact ⟨_, p, he, rfl, fun _ => rfl, rfl, hptr, by simp, after_quiet _ _ _ _ _ _ _ hq, rfl, rfl, ⟨rfl, rfl⟩,
    rfl, rfl, rfl⟩

/-- Settles O31, from the one update an SB.WREN makes. -/
theorem sbWrenSetsTheLatch : Obligations.SbWrenSetsTheLatch := by
  intro s _ hq
  obtain ⟨d, he⟩ := execSbWren_eq hq
  exact ⟨_, he, rfl, rfl, fun _ => rfl, rfl, by simp, after_quiet _ _ _ _ _ _ _ hq, rfl, rfl, ⟨rfl, rfl⟩,
    rfl, rfl, rfl⟩

/-- Settles O32, from the one update an SB.WRITE makes and what a read finds after `writeBytes`. -/
theorem sbWriteStoresAndRelocks : Obligations.SbWriteStoresAndRelocks := by
  intro s a data hc hq hwel hlen hlast
  obtain ⟨q, d, he, hptr⟩ := execSbWrite_ok hc hq hwel hlen hlast
  exact ⟨_, he, fun k hk => Memory.read_writeBytes_at _ _ _ k hk,
    fun a' ha' => Memory.read_writeBytes_outside _ _ _ ha', rfl, hptr, rfl, by simp,
    after_quiet _ _ _ _ _ _ _ hq, rfl, rfl, ⟨rfl, rfl⟩, rfl, rfl, rfl⟩

/-! ## Display rows by themselves (R59) -/

/-- The records of a frame, row by row. -/
theorem frameRecords_eq_flatMap (c : Config) (n : Nat) : ∀ (y : Nat) (data : List Byte),
    frameRecords c n y data = (List.range n).flatMap fun z =>
      lineNum (y + z) :: ((data.drop (z * c.rowBytes)).take c.rowBytes ++ [trailerByte]) := by
  induction n with
  | zero => intro y data; rfl
  | succ n ih =>
    intro y data
    rw [frameRecords, ih, List.range_succ_eq_map, List.flatMap_cons, List.flatMap_map]
    simp [List.drop_drop, Nat.succ_mul, Nat.add_comm, Nat.add_left_comm]

/-- A display window on a quiet bus reaches the display alone (R26). -/
theorem showFrame_quiet_eq (c : Config) {b : Bus} (hq : b.Quiet) (frame : List Byte) :
    ∃ d, ∃ p : Nat → Byte, b.showFrame c frame =
      b.after b.store.mem b.store.wel b.store.ptr [frame]
        (.dselUp :: frame.mapIdx (fun k v => BusEvent.byte (p k) (some v)) ++ [.dselDown]) d := by
  obtain ⟨hs, hd, -, -, hsh⟩ := hq
  obtain ⟨p, he⟩ := showFrame_eq (c := c) hs frame
  refine ⟨b.draws + frame.length + 2, p, ?_⟩
  rw [he]
  simp [Bus.after, hd, hsh]

/-- Settles O36: both rows show their frame, and DF.WRITE's is built row by row. -/
theorem displayFramesReachTheLog : Obligations.DisplayFramesReachTheLog := by
  intro s v data marker write hq
  refine ⟨fun hlen => ?_, fun hlen => if_neg fun h => hlen ((hasLength_iff _ _).mp h), ?_⟩
  · have hexec : exec (.dfWrite v data) s = .next { s with
        bus := s.bus.showFrame s.cfg
          (cmdByte s.cfg s.cfg.cmdWrite v :: frameRecords s.cfg s.cfg.height 0 data) } :=
      if_pos ((hasLength_iff _ _).mpr hlen)
    obtain ⟨d, p, he⟩ := showFrame_quiet_eq s.cfg hq
      (cmdByte s.cfg s.cfg.cmdWrite v :: frameRecords s.cfg s.cfg.height 0 data)
    rw [he] at hexec
    refine ⟨_, p, _, hexec, ?_, rfl, by simp, rfl, after_quiet _ _ _ _ _ _ _ hq, rfl, rfl, ⟨rfl, rfl⟩, rfl, rfl, rfl⟩
    rw [frameRecords_eq_flatMap]
    simp only [Nat.zero_add]
    rfl
  · have hexec : exec (.dfClear v marker write) s =
        .next { s with bus := s.bus.showFrame s.cfg [cmdByte s.cfg s.cfg.cmdClear v, marker, write] } := rfl
    obtain ⟨d, p, he⟩ := showFrame_quiet_eq s.cfg hq [cmdByte s.cfg s.cfg.cmdClear v, marker, write]
    rw [he] at hexec
    exact ⟨_, p, hexec, rfl, by simp [cmdByte, vmask], rfl, after_quiet _ _ _ _ _ _ _ hq, rfl, rfl, ⟨rfl, rfl⟩,
      rfl, rfl, rfl⟩

/-! ## The frames of CLEAR and REFRESH (R104, R105) -/

theorem readBytes_add (m : Memory) (a j k : Nat) :
    m.readBytes a (j + k) = m.readBytes a j ++ m.readBytes (a + j) k := by
  simp only [Memory.readBytes, List.range_add, List.map_append, List.map_map]
  congr 1
  exact List.map_congr_left fun i _ => by rw [Function.comp_apply, Nat.add_assoc]

@[simp] theorem length_readBytes (m : Memory) (a n : Nat) : (m.readBytes a n).length = n := by
  simp [Memory.readBytes]

/-- A write below an address is not seen from there on. -/
theorem readBytes_write_below (m : Memory) {a a' : Nat} (v : Byte) (n : Nat) (h : a' < a) :
    (m.write a' v).readBytes a n = m.readBytes a n :=
  List.map_congr_left fun _ _ => Memory.read_write_other _ _ _ (by omega)

/-- The data bytes of the `n` rows from row `y` on, in row order. -/
def rowsData (c : Config) (m : Memory) (y n : Nat) : List Byte :=
  (List.range' y n).flatMap fun z => m.readBytes (recAddr c z + 1) c.rowBytes

theorem rowsData_succ (c : Config) (m : Memory) (y n : Nat) :
    rowsData c m y (n + 1) = m.readBytes (recAddr c y + 1) c.rowBytes ++ rowsData c m (y + 1) n := by
  rw [rowsData, List.range'_succ, List.flatMap_cons, rowsData]

theorem length_rowsData (c : Config) (m : Memory) (y n : Nat) : (rowsData c m y n).length = n * c.rowBytes := by
  induction n generalizing y with
  | zero => rw [Nat.zero_mul]; rfl
  | succ n ih => rw [rowsData_succ, List.length_append, length_readBytes, ih, Nat.succ_mul, Nat.add_comm]

section
variable {c : Config} {m : Memory} (h : Layout c m)
include h

/-- A laid out record is a line number, the row's data bytes and a trailer (R33, R34). -/
theorem readBytes_record {y : Nat} (hy : y < c.height) :
    m.readBytes (recAddr c y) c.record =
      lineNum y :: (m.readBytes (recAddr c y + 1) c.rowBytes ++ [trailerByte]) := by
  obtain ⟨hline, htrailer, -⟩ := h y hy
  rw [record_eq, show recAddr c y + (c.rowBytes + 2) - 1 = recAddr c y + 1 + c.rowBytes by omega] at htrailer
  rw [record_eq, readBytes_succ, hline, readBytes_add, readBytes_succ _ _ 0, htrailer]
  rfl

/-- Laid out records are those a frame of DF.WRITE carries for their data bytes (R59). -/
theorem readBytes_records (n : Nat) : ∀ y, y + n ≤ c.height →
    m.readBytes (recAddr c y) (n * c.record) = frameRecords c n y (rowsData c m y n) := by
  induction n with
  | zero => intro y _; rw [Nat.zero_mul]; rfl
  | succ n ih =>
    intro y hy
    have hrow := length_readBytes m (recAddr c y + 1) c.rowBytes
    rw [frameRecords, rowsData_succ, List.take_left' hrow, List.drop_left' hrow, ← ih (y + 1) (by omega),
      Nat.succ_mul, Nat.add_comm, readBytes_add, readBytes_record h (by omega), recAddr_succ]
    simp

end

theorem directLink_of_relay {c : Config} {a lineCount lineLength : Nat} {b b' : Bus}
    (h : relay c a lineCount lineLength b = .next b') : c.relayMode = .directLink := by
  unfold relay at h
  split at h
  · cases h
  · next hr => exact Decidable.not_not.mp hr

theorem clearWrites_ok {c : Config} (hc : c.Valid) (hfits : Fits c) (v : Bool) {b : Bus} (hq : b.Quiet) :
    ∃ b', clearWrites c v b = .ok b' := by
  obtain ⟨q, w, d, hall, -⟩ := writeAllRecords_quiet hc hfits hq
  obtain ⟨q', d', hw, -⟩ := storeWrite_quiet hc
    (after_quiet b (recordsMemory c (List.range c.height) b.store.mem) w q [] (recordEvents c) d hq)
    (a := ctrlSlot .clear) (data := [cmdByte c c.cmdClear v]) (by simp) (by simp [ctrlSlot, clearSlot])
  exact ⟨_, by rw [clearWrites, hall]; exact hw⟩

section
variable {s t : State} (hc : s.cfg.Valid) (hq : s.bus.Quiet) (hctrl : s.ctrl = .ready) (hfits : Fits s.cfg)
include hc hq hctrl hfits

/-- An image update that completes has relayed, and only the direct link relays (R97). -/
theorem directLink_of_execClear (h : execClear s = .next t) : s.cfg.relayMode = .directLink := by
  obtain ⟨b, hwrites⟩ := clearWrites_ok hc hfits s.vcom hq
  rw [execClear, admitIn, if_pos hctrl, hwrites] at h
  obtain ⟨b', hrelay, -⟩ := toggleAndRelay_next h
  exact directLink_of_relay hrelay

omit hfits in
theorem directLink_of_execRefresh (h : execRefresh s = .next t) : s.cfg.relayMode = .directLink := by
  have hmax : 2 ≤ s.cfg.storeMaxAddr := hc.2.2.2.2.2.2.2.2.2.2.2
  obtain ⟨q, d, hwrite, -⟩ := storeWrite_quiet hc hq (a := ctrlSlot .write)
    (data := [cmdByte s.cfg s.cfg.cmdWrite s.vcom]) (by simp) (by simp [ctrlSlot, writeSlot]; omega)
  rw [execRefresh, admitIn, if_pos hctrl, hwrite] at h
  obtain ⟨b', hrelay, -⟩ := toggleAndRelay_next h
  exact directLink_of_relay hrelay

/-- CLEAR sends the clear slot and the two slots after it, which no record write reaches. -/
theorem execClear_frame (h : execClear s = .next t) :
    t.bus.displayLog = s.bus.displayLog ++ [[cmdByte s.cfg s.cfg.cmdClear s.vcom, s.read 1, s.read 2]] := by
  obtain ⟨q, d, p, he, -⟩ :=
    execClear_ok hc (directLink_of_execClear hc hq hctrl hfits h) hq hctrl hfits rfl
  cases h.symm.trans he
  simp only [respond_bus, after_displayLog, readBytes_succ, clearMemory, Memory.read_write_same]
  rw [Memory.read_write_other _ _ _ (by decide), Memory.read_write_other _ _ _ (by decide),
    read_recordsMemory_outside _ _ (by omega), read_recordsMemory_outside _ _ (by omega)]
  rfl

/-- REFRESH sends the write slot and every record (R105). -/
theorem execRefresh_frame (h : execRefresh s = .next t) :
    t.bus.displayLog = s.bus.displayLog ++
      [cmdByte s.cfg s.cfg.cmdWrite s.vcom :: s.bus.store.mem.readBytes (recAddr s.cfg 0) s.cfg.frameSize] := by
  obtain ⟨q, d, p, he⟩ :=
    execRefresh_ok hc (directLink_of_execRefresh hc hq hctrl h) hq hctrl hfits rfl
  cases h.symm.trans he
  simp only [respond_bus, after_displayLog, readBytes_succ, refreshMemory, Memory.read_write_same,
    readBytes_write_below _ _ _ (show 2 < 2 + 1 by omega), recAddr_zero]
  rfl

end

/-- Settles O29: CLEAR's frame is the encoding of a DF.CLEAR; the laid out records of REFRESH's are those of a
DF.WRITE. -/
theorem updateFramesDecode : Obligations.UpdateFramesDecode := by
  intro s t hc hq hctrl hfits
  refine ⟨fun h => ⟨_, execClear_frame hc hq hctrl hfits h, decodeDF_clearFrame hc _ _ _⟩, fun hlayout h => ?_⟩
  refine ⟨_, execRefresh_frame hc hq hctrl hfits h, ?_⟩
  have hrecords := readBytes_records ((layoutInv_iff s).mp hlayout hctrl) s.cfg.height 0 (by omega)
  rw [Config.frameSize, hrecords, decodeDF_writeFrame hc _ (length_rowsData _ _ _ _), rowsData,
    ← List.range_eq_range']
  rfl

end Sys2Proof.Machine
end

section
/-! PROOFS. Store access (spec/40_store_access.md): the bound check (R67), STORE.READ and STORE.WRITE (R65, R66), and
the store rows that fail their bound check or have no meaning (R70, R71). -/

namespace Sys2Proof.Machine

/-! ## The bound check (R67) -/

theorem boundOk_eq_false_iff {c : Config} {a n : Nat} : boundOk c a n = false ↔ c.storeMaxAddr < a + n - 1 := by
  rw [← Bool.not_eq_true, boundOk_iff, Nat.not_le]

/-- For a transfer of at least one byte, the highest address is the one to check. -/
theorem boundOk_iff_forall {c : Config} {a n : Nat} (hn : 1 ≤ n) :
    boundOk c a n = true ↔ ∀ k, k < n → a + k ≤ c.storeMaxAddr := by
  rw [boundOk_iff]
  constructor
  · intro hlast k hk
    omega
  · intro hall
    have hlast := hall (n - 1) (by omega)
    omega

/-- Settles O18, from the two readings of the bound check. -/
theorem boundCheckCoversEveryAddress : Obligations.BoundCheckCoversEveryAddress := fun _ _ _ hn =>
  ⟨boundOk_iff_forall hn, boundOk_eq_false_iff⟩

/-! ## STORE.READ and STORE.WRITE (R65, R66) -/

/-- `STORE.READ` on a quiet bus, of any number of bytes (R65). -/
theorem storeRead_quiet_bytes {c : Config} (hc : c.Valid) {b : Bus} (hq : b.Quiet) {a n : Nat} (hn : 1 ≤ n)
    (hlast : a + n - 1 ≤ c.storeMaxAddr) :
    ∃ q d, ∃ p : Nat → Byte, storeRead c a n b =
      .ok (fun k => b.store.mem.read (a + k.val),
        b.after b.store.mem b.store.wel q [] (readWindow c b.store.mem a n p) d) := by
  obtain ⟨-, -, -, -, hmax, -⟩ := hc
  obtain ⟨hs, hd, hm, hh, -⟩ := hq
  obtain ⟨q, he, -⟩ := readTransaction_eq hmax hd (a := a) (n := n) (by omega) (by omega)
  refine ⟨q, b.draws + n + 5, fun k => Config.placeholder (b.draws + 4 + k), ?_⟩
  rw [storeRead, if_pos (boundOk_iff.mpr hlast), he]
  simp [Bus.after, hs, hm, hh]

/-- `STORE.READ` fails when its last byte would lie past the store, and then nothing happens (R65, R71). -/
theorem storeRead_error {c : Config} {b : Bus} {a n : Nat} (hlast : c.storeMaxAddr < a + n - 1) :
    storeRead c a n b = .error ⟨a, n, b⟩ := by
  rw [storeRead, boundOk_eq_false_iff.mpr hlast]
  rfl

/-- Settles O16, from the one update a STORE.READ makes. -/
theorem storeReadReturnsTheBytes : Obligations.StoreReadReturnsTheBytes := by
  intro c b a n hc hq hn
  refine ⟨fun hlast => ?_, storeRead_error⟩
  obtain ⟨q, d, p, he⟩ := storeRead_quiet_bytes hc hq hn hlast
  exact ⟨_, _, p, he, fun _ => rfl, rfl, rfl, rfl, by simp, after_quiet _ _ _ _ _ _ _ hq⟩

/-- Settles O17, from the one update a STORE.WRITE makes and what a read finds after `writeBytes`. -/
theorem storeWritePutsTheBytes : Obligations.StoreWritePutsTheBytes := by
  intro c b a data hc hq hlen
  refine ⟨fun hlast => ?_, storeWrite_error⟩
  obtain ⟨q, d, he, -⟩ := storeWrite_quiet hc hq (a := a) hlen (by omega)
  exact ⟨_, he, fun k hk => Memory.read_writeBytes_at _ _ _ k hk,
    fun a' ha' => Memory.read_writeBytes_outside _ _ _ ha', rfl, rfl, by simp, after_quiet _ _ _ _ _ _ _ hq⟩

/-! ## The store rows that move no byte (R67, R70, R71) -/

section
variable {s : State} {a : Addr}

theorem execSbRead_zero : execSbRead a 0 s = .refused .zeroLength := rfl

theorem execSbWrite_nil : execSbWrite a [] s = .refused .zeroLength := rfl

theorem execSbRead_pastEnd {n : Nat} (hn : 1 ≤ n) (hlast : s.cfg.storeMaxAddr < a.toNat + n - 1) :
    execSbRead a n s = .next (s.raiseOutOfRange ⟨a.toNat, n, s.bus⟩) := by
  rw [execSbRead, if_neg (by omega), storeRead_error hlast]

theorem execSbWrite_pastEnd {data : List Byte} (hlen : 1 ≤ data.length)
    (hlast : s.cfg.storeMaxAddr < a.toNat + data.length - 1) :
    execSbWrite a data s = .next (s.raiseOutOfRange ⟨a.toNat, data.length, s.bus⟩) := by
  rw [execSbWrite, if_neg (by omega), boundOk_eq_false_iff.mpr hlast]
  rfl

theorem execSbWrite_locked {data : List Byte} (hwel : s.bus.store.wel = false) (hlen : 1 ≤ data.length)
    (hlast : a.toNat + data.length - 1 ≤ s.cfg.storeMaxAddr) :
    execSbWrite a data s = .refused .lockedWrite := by
  rw [execSbWrite, if_neg (by omega), if_pos (boundOk_iff.mpr hlast), hwel]
  rfl

end

/-- Settles O33. -/
theorem lockedWriteIsRefused : Obligations.LockedWriteIsRefused := fun _ _ _ hwel hlen hlast =>
  execSbWrite_locked hwel hlen hlast

/-- Settles O34: `raiseOutOfRange` with the bus as it was is the state the statement writes out. -/
theorem storeRowsPastTheEndFail : Obligations.StoreRowsPastTheEndFail := fun _ _ _ _ =>
  ⟨execSbRead_pastEnd, execSbWrite_pastEnd⟩

/-- Settles O35. -/
theorem zeroLengthTransfersAreRefused : Obligations.ZeroLengthTransfersAreRefused := fun _ _ =>
  ⟨execSbRead_zero, execSbWrite_nil⟩

end Sys2Proof.Machine
end

section
/-! PROOFS. Frame layout (spec/41_frame_layout.md): the header slots and the record bases (R78, R79), pixel addresses
(R76, R77), and the pixel commands outside the frame (R75). -/

namespace Sys2Proof.Machine

/-! ## Pixel addresses (R76, R77) -/

/-- A pixel address determines the row, and the column up to the bit index. -/
theorem pixAddress_injective {c : Config} {x y x' y' : Int} (h : inBounds c x y = true) (h' : inBounds c x' y' = true)
    (haddress : pixAddress c x y = pixAddress c x' y') (hbit : pixBit x = pixBit x') : x = x' ∧ y = y' := by
  obtain ⟨-, hlo, hhi⟩ := pixAddress_bounds h
  obtain ⟨-, hlo', hhi'⟩ := pixAddress_bounds h'
  have hrec := record_eq c
  have hrow : y.toNat = y'.toNat :=
    record_unique (c := c) (a := pixAddress c x y) (by omega) (by omega) (by omega) (by omega)
  have hbyte : x.toNat / 8 = x'.toNat / 8 := by
    rw [pixAddress_eq, pixAddress_eq, hrow] at haddress
    omega
  have hmod : x.toNat % 8 = x'.toNat % 8 := congrArg Fin.val hbit
  rw [inBounds_iff] at h h'
  omega

/-- Bit `i` of data byte `k` of row `y` is the image of `(8k + i, y)`. -/
theorem pixel_of_bit (c : Config) (k : Nat) (i : Fin 8) (y : Nat) :
    pixAddress c (8 * k + i.val : Nat) y = recAddr c y + 1 + k ∧ pixBit (8 * k + i.val : Nat) = i := by
  refine ⟨?_, Fin.ext ?_⟩
  · rw [pixAddress_eq, Int.toNat_natCast, Int.toNat_natCast]
    omega
  · simp only [pixBit, Int.toNat_natCast]
    omega

/-- The bound check of a pixel access cannot fail once the frame fits (R77). -/
theorem boundOk_pixAddress {c : Config} {x y : Int} (h : inBounds c x y = true) (hfits : Fits c) :
    boundOk c (pixAddress c x y) 1 = true := by
  have hmax : frameEnd c ≤ c.storeMaxAddr := hfits
  obtain ⟨-, hend⟩ := pixAddress_lt_frameEnd h
  rw [boundOk_iff]
  omega

/-- Settles O41: the range is that of the row's data bytes, and the rest follows from it, since no address lies in two
records. -/
theorem pixelAddressRangeAndInjectivity : Obligations.PixelAddressRangeAndInjectivity := by
  refine fun c _ => ⟨fun x y h => ?_, fun _ _ _ _ => pixAddress_injective, fun k i y hy hx => ?_,
    fun _ _ => boundOk_pixAddress⟩
  · obtain ⟨-, hlo, hhi⟩ := pixAddress_bounds h
    obtain ⟨hge, hend⟩ := pixAddress_lt_frameEnd h
    exact ⟨hlo, hhi, hge, Nat.le_sub_one_of_lt hend⟩
  · exact ⟨inBounds_iff.mpr (by omega), pixel_of_bit c k i y⟩

/-! ## Pixel commands outside the frame (R75, R102, R103) -/

theorem inBounds_eq_false_iff {c : Config} {x y : Int} :
    inBounds c x y = false ↔ x < 0 ∨ c.width ≤ x ∨ y < 0 ∨ c.height ≤ y := by
  rw [← Bool.not_eq_true, inBounds_iff]
  omega

/-- Settles O26, from the clipped branch of the two commands. -/
theorem clippedPixelCommandsDoNothing : Obligations.ClippedPixelCommandsDoNothing := fun _ _ _ on hctrl hout =>
  execPixel_clipped on hctrl (inBounds_eq_false_iff.mpr hout)

/-! ## The slots and the record bases (R78, R79) -/

/-- Settles O43, from the decided addresses and the sizes of R8. -/
theorem slotAddresses : Obligations.SlotAddresses :=
  ⟨rfl, rfl, rfl, rfl, fun _ _ => rfl⟩

end Sys2Proof.Machine
end

section
/-! PROOFS. The bit order of a byte (spec/42_bit_order_codec.md R81 to R88): REVERSE, MUTATE and TEST in the natural and
in the stored view, and the line numbers. -/

namespace Sys2Proof.Machine

/-! ## REVERSE (R81, R82) -/

theorem reverse_and (a b : Byte) : reverse (a &&& b) = reverse a &&& reverse b := by
  refine BitVec.eq_of_getLsbD_eq fun i hi => ?_
  simp only [BitVec.getLsbD_and, getLsbD_reverse _ hi]

theorem reverse_or (a b : Byte) : reverse (a ||| b) = reverse a ||| reverse b := by
  refine BitVec.eq_of_getLsbD_eq fun i hi => ?_
  simp only [BitVec.getLsbD_or, getLsbD_reverse _ hi]

theorem reverse_not (a : Byte) : reverse (~~~a) = ~~~(reverse a) := by
  refine BitVec.eq_of_getLsbD_eq fun i hi => ?_
  have hmirror : 7 - i < 8 := by omega
  simp only [BitVec.getLsbD_not, getLsbD_reverse _ hi, hi, hmirror]

theorem reverse_eq_zero_iff (b : Byte) : reverse b = 0 ↔ b = 0 := by
  have hzero : reverse 0 = 0 := by decide
  constructor
  · intro h
    rw [← reverse_reverse b, h, hzero]
  · rintro rfl
    exact hzero

/-- Settles O37, from the bits of the reversed byte. -/
theorem reverseMirrorsBits : Obligations.ReverseMirrorsBits :=
  ⟨fun b _ hi => getLsbD_reverse b hi, reverse_reverse⟩

/-! ## MUTATE and TEST in the natural view (R84 to R86) -/

/-- The shift in the model's two masks is taken on numbers, the one of the statements on bytes. -/
theorem natMask_eq_shift (i : Fin 8) : natMask i = 1#8 <<< i.val := by
  revert i
  decide

theorem reverse_mutate (s : Byte) (i : Fin 8) (on : Bool) :
    reverse (mutate s i on) = if on then reverse s &&& ~~~(natMask i) else reverse s ||| natMask i := by
  rw [mutate, toStored, reverse_reverse]
  cases on <;> rfl

/-- The stored bit of pixel `i` is `7 - i`; MUTATE keeps the others. -/
theorem getLsbD_mutate_of_ne (s : Byte) {i : Fin 8} (on : Bool) {j : Nat} (hj : j < 8) (hne : j ≠ 7 - i.val) :
    (mutate s i on).getLsbD j = s.getLsbD j := by
  have hother : (⟨7 - j, by omega⟩ : Fin 8) ≠ i := by
    rintro rfl
    exact hne (by simp only; omega)
  calc (mutate s i on).getLsbD j
      = (driveBit (toNatural s) i on).bits.getLsbD (7 - j) := getLsbD_reverse _ hj
    _ = (reverse s).getLsbD (7 - j) := getLsbD_driveBit_of_ne _ _ hother
    _ = s.getLsbD j := by rw [← getLsbD_reverse _ hj, reverse_reverse]

theorem testBit_iff_natural (s : Byte) (i : Fin 8) : testBit s i = true ↔ reverse s &&& natMask i = 0 := by
  rw [testBit, onLevel, beq_iff_eq, decide_eq_false_iff_not, Decidable.not_not, toNatural]

theorem testBit_mutate_self (s : Byte) (i : Fin 8) (on : Bool) : testBit (mutate s i on) i = on := by
  rw [testBit_eq, reverse_mutate, natMask_eq_twoPow]
  cases on <;> simp

/-! ## MUTATE and TEST in the stored view (R87) -/

theorem reverse_natMask (i : Fin 8) : reverse (natMask i) = storedMask i := by
  revert i
  decide

theorem storedMask_eq_shift (i : Fin 8) : storedMask i = 0x80#8 >>> i.val := by
  revert i
  decide

theorem mutate_eq_stored (s : Byte) (i : Fin 8) (on : Bool) :
    mutate s i on = if on then s &&& ~~~(storedMask i) else s ||| storedMask i := by
  rw [← reverse_reverse (mutate s i on), reverse_mutate]
  cases on
  · simp only [Bool.false_eq_true, if_false, reverse_or, reverse_reverse, reverse_natMask]
  · simp only [if_true, reverse_and, reverse_not, reverse_reverse, reverse_natMask]

theorem mutate_mutate (s : Byte) (i : Fin 8) (on : Bool) : mutate (mutate s i on) i on = mutate s i on := by
  simp only [mutate_eq_stored]
  cases on
  · simp only [Bool.false_eq_true, if_false, BitVec.or_assoc, BitVec.or_self]
  · simp only [if_true, BitVec.and_assoc, BitVec.and_self]

theorem testBit_iff_stored (s : Byte) (i : Fin 8) : testBit s i = true ↔ s &&& storedMask i = 0 := by
  rw [testBit_iff_natural, ← reverse_eq_zero_iff, reverse_and, reverse_reverse, reverse_natMask]

/-- Settles O38: the drive is read off the natural view, and idempotence off the stored one. -/
theorem mutateDrivesOneNaturalBit : Obligations.MutateDrivesOneNaturalBit := by
  intro s i on
  rw [← natMask_eq_shift]
  exact ⟨reverse_mutate s i on, fun _ => getLsbD_mutate_of_ne s on, mutate_mutate s i on⟩

/-- Settles O39; a byte of ones is the blank byte, which has no pixel on. -/
theorem testIsNaturalBitClear : Obligations.TestIsNaturalBitClear := by
  intro s i v
  rw [← natMask_eq_shift]
  exact ⟨testBit_iff_natural s i, testBit_mutate_self s i v, fun _ => testBit_mutate_of_ne s v, testBit_blankByte i⟩

/-- Settles O40, since REVERSE takes the natural mask to the stored one and commutes with the bitwise operations. -/
theorem mutateAndTestInStoredView : Obligations.MutateAndTestInStoredView := by
  intro s i on
  rw [← storedMask_eq_shift]
  exact ⟨reverse_natMask i, rfl, mutate_eq_stored s i on, testBit_iff_stored s i⟩

/-! ## Line numbers (R88) -/

theorem reverse_lineNum (y : Nat) : reverse (lineNum y) = BitVec.ofNat 8 (y + 1) := reverse_reverse _

/-- Settles O42: for a row a frame can have, the 1-based index fits in the byte. -/
theorem lineNumbersDecodeToRowIndex : Obligations.LineNumbersDecodeToRowIndex := by
  intro y hy
  have hfits : y + 1 < 2 ^ 8 := by omega
  exact ⟨rfl, by rw [reverse_lineNum, BitVec.toNat_ofNat, Nat.mod_eq_of_lt hfits]⟩

end Sys2Proof.Machine
end

section
/-! PROOFS. RelayBridge (spec/43_relay_bridge.md): what a relay moves (R89, R94), where it has no meaning (R97, R98), and
that no input of the host leads there (R98, R117, R120, R121). -/

namespace Sys2Proof.Machine

/-! ## Inside the precondition (R89) -/

/-- Settles O19, from the one update a relay makes of a quiet bus. -/
theorem relayMovesTheBytes : Obligations.RelayMovesTheBytes := by
  intro c b a lineCount lineLength hc hr hq hcount _ hlast
  obtain ⟨q, d, p, he, -⟩ := relay_quiet hc hr hq (a := a) (lineLength := lineLength) hcount rfl (by omega)
  exact ⟨_, p, he, rfl, rfl, rfl, rfl, after_quiet _ _ _ _ _ _ _ hq⟩

/-! ## Outside the precondition (R97, R98) -/

section
variable {c : Config} {a lineCount lineLength : Nat} {b : Bus}

theorem relay_otherMode (hr : c.relayMode ≠ .directLink) : relay c a lineCount lineLength b = .refused .relayMode := by
  rw [relay, if_pos hr]

theorem relay_pastEnd (hr : c.relayMode = .directLink) (hcount : 1 ≤ lineCount)
    (hlast : c.storeMaxAddr < a + lineCount * lineLength) :
    relay c a lineCount lineLength b = .refused .pointerPastEnd := by
  rw [relay, if_neg (not_not_intro hr), if_pos (by rw [relayLength_eq hcount]; omega)]

end

/-- Settles O20: the relay's last byte is at `a + lineCount * lineLength`. -/
theorem relayStopsOutsideItsPrecondition : Obligations.RelayStopsOutsideItsPrecondition := fun _ _ _ _ _ hcount =>
  ⟨fun hr hlast => relay_pastEnd hr hcount hlast, relay_otherMode⟩

/-! ## The host's inputs (R98, R117, R120, R121) -/

theorem step_idle {s : State} (hc : s.cfg.Valid) (hr : s.cfg.relayMode = .directLink) (hi : s.inbox = []) :
    step s = .next s := by
  rw [step, takeNext, configRefusal_none hc hr, hi]

theorem acceptCut_next {s t : State} {w : CommandWord} (n : Nat) (midByte : Bool)
    (h : acceptPacket (.command w) s = .next t) :
    acceptCut w n midByte s = .next (s.resetDuring (t.bus.trace.drop s.bus.trace.length) n midByte) := by
  rw [acceptCut, h]

/-- An input of BEGIN's row (R54) that finds `Uninitialized` and a frame the store cannot hold (R117). -/
abbrev BeginWithoutRoom (s : State) (i : Input) : Prop :=
  s.ctrl = .uninitialized ∧ ¬ Fits s.cfg ∧ ∃ w, i = .packet (.command w) ∧ w &&& 0xFE00000000 = 0x1000000000

section
variable {s : State} (hc : s.cfg.Valid) (hr : s.cfg.relayMode = .directLink) (hq : s.bus.Quiet)
  (hready : s.ctrl = .ready → Fits s.cfg)
include hc hr hq hready

/-- Of the ways a command word can end, only the BEGIN whose frame does not fit raises `OutOfRange`. -/
theorem acceptCommand_outOfRange (w : CommandWord) :
    ∃ t, acceptPacket (.command w) s = .next t ∧
      (t.status = .errOutOfRange → BeginWithoutRoom s (.packet (.command w))) := by
  obtain ⟨t, ht, hcases⟩ := acceptCommand_cases hc hr hq hready w
  refine ⟨t, ht, ?_⟩
  rcases hcases with rfl | rfl | ⟨-, -, -, q, d, events, rfl⟩ | ⟨hctrl, hdecode, hfits, e, -, -, rfl⟩ |
    ⟨-, -, rfl⟩ | ⟨-, -, x, y, on, q, d, events, -, -, rfl⟩ | ⟨-, -, q, d, events, r, rfl⟩ |
    ⟨-, -, q, d, events, rfl⟩ | ⟨-, -, q, d, events, rfl⟩
  case inr.inr.inr.inl => exact fun _ => ⟨hctrl, hfits, w, rfl, (matches_begin_iff w).mpr hdecode⟩
  all_goals exact nofun

/-- Every input of the host is answered: a command word as above, and a reset, also inside a command, with `OK`. -/
theorem takeInput_outOfRange {i : Input} (hhost : i.fromHost = true) :
    ∃ t, takeInput i s = .next t ∧ (t.status = .errOutOfRange → BeginWithoutRoom s i) := by
  cases i with
  | packet p =>
    cases p with
    | command w => exact acceptCommand_outOfRange hc hr hq hready w
    | storeWindow sent => cases hhost
    | displayWindow shifted => cases hhost
  | commandCut w n midByte =>
    obtain ⟨t, ht, -⟩ := acceptCommand_outOfRange hc hr hq hready w
    exact ⟨_, acceptCut_next n midByte ht, nofun⟩
  | reset => exact ⟨_, rfl, nofun⟩

end

/-- Settles O53: an idle step answers the state itself, and any other takes an input of the host. -/
theorem hostInputsNeverStop : Obligations.HostInputsNeverStop := by
  rintro s hc hr ⟨-, -, hq, hready⟩ hhost
  cases hi : s.inbox with
  | nil => exact ⟨s, step_idle hc hr hi, fun _ hne => absurd rfl hne⟩
  | cons i rest =>
    obtain ⟨t, ht, hout⟩ := takeInput_outOfRange (s := { s with inbox := rest }) hc hr hq hready
      (hhost i (by rw [hi]; exact List.mem_cons_self))
    refine ⟨t, (step_input hc hr hi).trans ht, fun hstatus _ => ?_⟩
    obtain ⟨hctrl, hfits, w, rfl, hword⟩ := hout hstatus
    exact ⟨hctrl, hfits, w, rest, rfl, hword⟩

end Sys2Proof.Machine
end

section
/-! PROOFS. The controller (spec/44_controller.md): a step and the packet it takes (R100), each command's effect in full
(R101 to R105), the commands in sequence (R110), and the VCOM bit (R106 to R109). -/

namespace Sys2Proof.Machine

/-! ## A step and the packet it takes (R100) -/

theorem acceptPacket_of_decode {s : State} {p : Packet} {i : Instr} (h : decode s.cfg p = .ok i) :
    acceptPacket p s = exec i s := by
  rw [acceptPacket, h]

theorem acceptCommand_of_decodeHC {s : State} {w : CommandWord} {i : Instr} (h : decodeHC w = .ok i) :
    acceptPacket (.command w) s = exec i s :=
  acceptPacket_of_decode (p := .command w) h

/-- Settles O6: the oldest input is the packet, and a packet that decodes is executed. -/
theorem stepRunsDecodedPacket : Obligations.StepRunsDecodedPacket := by
  refine ⟨fun s p rest i hc hr hinbox hdecode => ?_, fun s p i hc hr hdecode => ?_⟩
  · rw [step_input hc hr hinbox]
    exact acceptPacket_of_decode (s := { s with inbox := rest }) hdecode
  · rw [step_input (s := s.withPacket p) hc hr rfl]
    exact acceptPacket_of_decode (s := s) hdecode

/-- Settles O7, from the idle branch of the step. -/
theorem idleStepChangesNothing : Obligations.IdleStepChangesNothing := fun _ hc hr hinbox => step_idle hc hr hinbox

/-! ## BEGIN (R101) -/

/-- Every row is a blank record, byte by byte (R111). -/
def BlankRows (c : Config) (m : Memory) : Prop :=
  ∀ y, y < c.height →
    m.read (recAddr c y) = lineNum y ∧
    (∀ k, k < c.rowBytes → m.read (recAddr c y + 1 + k) = blankByte) ∧
    m.read (recAddr c y + c.rowBytes + 1) = trailerByte

theorem blankRows_recordsMemory (c : Config) (m : Memory) :
    BlankRows c (recordsMemory c (List.range c.height) m) :=
  fun _ hy => read_recordsMemory_fields c m hy

theorem blankRows_beginMemory (c : Config) (m : Memory) : BlankRows c (beginMemory c m) :=
  blankRows_recordsMemory c _

/-- The header lies below every record (R31). -/
theorem blankRows_write_header {c : Config} {m : Memory} (h : BlankRows c m) {a : Nat} (ha : a < 3) (v : Byte) :
    BlankRows c (m.write a v) := by
  intro y hy
  obtain ⟨hline, hdata, htrailer⟩ := h y hy
  have hge := recAddr_ge c y
  refine ⟨?_, fun k hk => ?_, ?_⟩
  · rw [Memory.read_write_other _ _ _ (by omega), hline]
  · rw [Memory.read_write_other _ _ _ (by omega), hdata k hk]
  · rw [Memory.read_write_other _ _ _ (by omega), htrailer]

theorem blankRows_clearMemory (c : Config) (v : Bool) (m : Memory) : BlankRows c (clearMemory c v m) :=
  blankRows_write_header (blankRows_recordsMemory c m) (by decide) _

/-- Memory after BEGIN's header and the first `n` records: what a failing BEGIN leaves, and with every row
`beginMemory`. -/
abbrev begunMemory (c : Config) (n : Nat) (m : Memory) : Memory :=
  recordsMemory c (List.range n) (m.writeBytes 0 [c.cmdClear, c.marker, c.cmdWrite])

/-- The slots hold the bare templates (R32). -/
theorem begunMemory_header (c : Config) (n : Nat) (m : Memory) :
    (begunMemory c n m).read 0 = c.cmdClear ∧ (begunMemory c n m).read 1 = c.marker ∧
      (begunMemory c n m).read 2 = c.cmdWrite := by
  refine ⟨?_, ?_, ?_⟩ <;>
    · rw [read_recordsMemory_outside _ _ (by omega), Memory.read_writeBytes]
      rfl

/-- From the first record not written on, nothing is changed. -/
theorem begunMemory_beyond (c : Config) {n a : Nat} (m : Memory) (h : recAddr c n ≤ a) :
    (begunMemory c n m).read a = m.read a := by
  have hge := recAddr_ge c n
  rw [read_recordsMemory_outside _ _ (Or.inr h), Memory.read_writeBytes_outside _ _ _ (by simp; omega)]

/-- Settles O21, from the one update BEGIN makes and what its memory reads as. -/
theorem beginInitialisesTheStore : Obligations.BeginInitialisesTheStore := by
  intro s hc hq hctrl hfits
  obtain ⟨q, d, he⟩ := execBegin_ok hc hq hctrl hfits
  obtain ⟨hclear, hmarker, hwrite⟩ := begunMemory_header s.cfg s.cfg.height s.bus.store.mem
  refine ⟨_, he, rfl, ⟨rfl, rfl, rfl⟩, hclear, hmarker, hwrite, blankRows_beginMemory _ _, fun a ha => ?_,
    rfl, by simp, ⟨rfl, rfl⟩, after_quiet _ _ _ _ _ _ _ hq, rfl⟩
  exact begunMemory_beyond _ _ (by rw [recAddr_height]; omega)

/-- Settles O22, from the one update BEGIN makes. -/
theorem beginBusTrace : Obligations.BeginBusTrace := by
  intro s hc hq hctrl hfits
  obtain ⟨q, d, he⟩ := execBegin_ok hc hq hctrl hfits
  exact ⟨_, he, rfl⟩

/-- Records rise, so the rows that fit the store are those before the first that does not (R117). -/
theorem record_fits_iff {c : Config} {k : Nat} (hbefore : ∀ y, y < k → recAddr c y + c.record ≤ c.storeMaxAddr + 1)
    (hafter : c.storeMaxAddr + 1 < recAddr c k + c.record) (y : Nat) :
    y < k ↔ recAddr c y + c.record - 1 ≤ c.storeMaxAddr := by
  have hrec := record_ge c
  constructor
  · intro hy
    have hfit := hbefore y hy
    omega
  · intro hlast
    refine Nat.lt_of_not_le fun hle => ?_
    have hmono := recAddr_mono c hle
    omega

/-- Settles O23: the header and the rows before the one at which BEGIN stops are written, and those are the rows that
fit. -/
theorem beginOnTooSmallStore : Obligations.BeginOnTooSmallStore := by
  intro s hc hq hctrl hfits
  obtain ⟨k, q, d, hk, hbefore, hafter, he⟩ := execBegin_short hc hq hctrl hfits
  obtain ⟨hclear, hmarker, hwrite⟩ := begunMemory_header s.cfg k s.bus.store.mem
  have hrow := record_fits_iff hbefore hafter
  refine ⟨_, he, rfl, ⟨rfl, rfl, rfl⟩, rfl, by simp, ⟨rfl, rfl⟩, after_quiet _ _ _ _ _ _ _ hq, hclear, hmarker, hwrite,
    rfl, fun n _ hfit hover => ?_, fun y _ hlast j hj => ?_, fun y _ hover a ha => ?_⟩
  · obtain rfl : n = k := by
      have hnk : ¬ n < k := fun h => absurd ((hrow n).mp h) (by omega)
      have hkn : ¬ k < n := fun h => absurd ((hrow k).mpr (hfit k h)) (by omega)
      omega
    rfl
  · rw [← length_blankRecord s.cfg y] at hj
    rw [List.getElem?_eq_getElem hj]
    exact congrArg some (read_recordsMemory_row s.cfg _ ((hrow y).mpr hlast) hj).symm
  · have hky : k ≤ y := Nat.le_of_not_lt fun h => absurd ((hrow y).mp h) (by omega)
    exact begunMemory_beyond _ _ (Nat.le_trans (recAddr_mono s.cfg hky) ha)

/-- Settles O58: the state the statement writes out is that of the exception. -/
theorem beginWithoutRoomForTheHeader : Obligations.BeginWithoutRoomForTheHeader := fun _ hctrl hmax =>
  execBegin_noHeader hctrl hmax

/-! ## SETPIXEL and GETPIXEL (R102, R103) -/

theorem getLsbD_reverse_mutate (s : Byte) (i : Fin 8) (on : Bool) {j : Nat} (hj : j < 8) :
    (reverse (mutate s i on)).getLsbD j = if j = i.val then !on else (reverse s).getLsbD j := by
  have hbit : ∀ v : Byte, (reverse v).getLsbD j = !testBit v ⟨j, hj⟩ := fun v => by rw [testBit_eq, Bool.not_not]
  rw [hbit, hbit]
  split
  · next h =>
    subst h
    rw [testBit_mutate_self]
  · next h => rw [testBit_mutate_of_ne _ _ (fun heq => h (congrArg Fin.val heq))]

/-- Settles O24, from the one update SETPIXEL makes. -/
theorem setPixelInBounds : Obligations.SetPixelInBounds := by
  intro s x y on hc hq hctrl hfits hx hx' hy hy'
  obtain ⟨a, ha⟩ : ∃ a, pixAddress s.cfg (coordinate x) (coordinate y) = a := ⟨_, rfl⟩
  obtain ⟨q, d, p, he, hptr⟩ := execSetPixel_ok on hc hq hctrl hfits (inBounds_iff.mpr ⟨hx, hx', hy, hy'⟩) ha
  have hread := Memory.read_write_same s.bus.store.mem a (mutate (s.read a) (pixBit (coordinate x)) on)
  refine ⟨_, a, p, he, ha.symm, hread, fun j hj => ?_, fun a' ha' => Memory.read_write_other _ _ _ ha', hctrl, rfl,
    by simp, ⟨rfl, rfl⟩, ⟨rfl, rfl, rfl⟩, after_quiet _ _ _ _ _ _ _ hq, rfl, hptr, ?_⟩
  · exact (congrArg (fun v => (reverse v).getLsbD j) hread).trans (getLsbD_reverse_mutate _ _ _ hj)
  · exact congrArg (fun v => s.bus.trace ++
      (readWindow s.cfg s.bus.store.mem a 1 p ++ storeWriteEvents s.cfg a [v])) hread.symm

/-- Settles O25, from the one update GETPIXEL makes; TEST reads the natural bit. -/
theorem getPixelInBounds : Obligations.GetPixelInBounds := by
  intro s x y hc hq hctrl hfits hx hx' hy hy'
  obtain ⟨q, d, p, he, hptr⟩ := execGetPixel_ok hc hq hctrl hfits (inBounds_iff.mpr ⟨hx, hx', hy, hy'⟩) rfl
  rw [testBit_eq] at he
  exact ⟨_, pixAddress s.cfg (coordinate x) (coordinate y), p, he, rfl, ⟨rfl, rfl, rfl⟩, fun _ => rfl, hctrl, rfl,
    by simp, ⟨rfl, rfl⟩, after_quiet _ _ _ _ _ _ _ hq, rfl, hptr, rfl⟩

/-! ## CLEAR and REFRESH (R104, R105) -/

/-- CLEAR leaves the marker and the write slot: they are no part of a record and not the clear slot. -/
theorem clearMemory_otherSlots (c : Config) (v : Bool) (m : Memory) :
    (clearMemory c v m).read 1 = m.read 1 ∧ (clearMemory c v m).read 2 = m.read 2 := by
  refine ⟨?_, ?_⟩ <;>
    rw [clearMemory, Memory.read_write_other _ _ _ (by decide), read_recordsMemory_outside _ _ (by omega)]

theorem clearMemory_beyond (c : Config) (v : Bool) (m : Memory) {a : Nat} (h : frameEnd c < a) :
    (clearMemory c v m).read a = m.read a := by
  rw [clearMemory, Memory.read_write_other _ _ _ (by omega),
    read_recordsMemory_outside _ _ (Or.inr (by rw [recAddr_height]; exact h))]

/-- Settles O27, from the one update CLEAR makes and what its memory reads as. -/
theorem clearBlanksAndRelaysHeader : Obligations.ClearBlanksAndRelaysHeader := by
  intro s hc hr hq hctrl hfits
  obtain ⟨q, d, p, he, hptr⟩ := execClear_ok hc hr hq hctrl hfits rfl
  have hslot : (clearMemory s.cfg s.vcom s.bus.store.mem).read 0 = cmdByte s.cfg s.cfg.cmdClear s.vcom :=
    Memory.read_write_same _ _ _
  obtain ⟨hmarker, hwrite⟩ := clearMemory_otherSlots s.cfg s.vcom s.bus.store.mem
  refine ⟨_, p, he, ⟨rfl, rfl, rfl⟩, hctrl, rfl, ⟨rfl, rfl⟩, hslot, hmarker, hwrite, blankRows_clearMemory _ _ _,
    fun a ha => clearMemory_beyond _ _ _ ha, ?_, after_quiet _ _ _ _ _ _ _ hq, rfl, hptr, ?_⟩
  · exact (execClear_frame hc hq hctrl hfits he).trans
      (congrArg (fun v => s.bus.displayLog ++ [[v, s.read 1, s.read 2]]) hslot.symm)
  · exact congrArg (fun v => s.bus.trace ++ (recordEvents s.cfg ++ storeWriteEvents s.cfg 0 [v] ++
      relayWindow s.cfg (clearMemory s.cfg s.vcom s.bus.store.mem) 0 3 p)) hslot.symm

/-- Settles O28, from the one update REFRESH makes; the records it sends are those from before. -/
theorem refreshRelaysTheFrame : Obligations.RefreshRelaysTheFrame := by
  intro s hc hr hq hctrl hfits
  obtain ⟨q, d, p, he⟩ := execRefresh_ok hc hr hq hctrl hfits rfl
  have hslot : (refreshMemory s.cfg s.vcom s.bus.store.mem).read 2 = cmdByte s.cfg s.cfg.cmdWrite s.vcom :=
    Memory.read_write_same _ _ _
  refine ⟨_, p, he, ⟨rfl, rfl, rfl⟩, hctrl, rfl, ⟨rfl, rfl⟩, hslot, fun a ha => Memory.read_write_other _ _ _ ha, ?_,
    after_quiet _ _ _ _ _ _ _ hq, rfl, ?_⟩
  · have hframe := execRefresh_frame hc hq hctrl hfits he
    rw [recAddr_zero] at hframe
    exact hframe.trans (congrArg (fun v => s.bus.displayLog ++
      [v :: s.bus.store.mem.readBytes lineRecordBase s.cfg.frameSize]) hslot.symm)
  · exact congrArg (fun v => s.bus.trace ++ (storeWriteEvents s.cfg 2 [v] ++
      relayWindow s.cfg (refreshMemory s.cfg s.vcom s.bus.store.mem) 2 (s.cfg.frameSize + 1) p)) hslot.symm

/-! ## Commands in sequence (R110) -/

/-- What every command of `Ready` needs, and leaves for the next one. -/
structure Operable (s : State) : Prop where
  valid : s.cfg.Valid
  quiet : s.bus.Quiet
  ready : s.ctrl = .ready
  fits : Fits s.cfg

section
variable {s : State} (h : Operable s)
include h

/-- GETPIXEL answers whether the pixel is in the frame and on, wherever it lies (R75, R103). -/
theorem Operable.getPixel (x y : Coord) :
    ∃ t, exec (.getPixel x y) s = .next t ∧ t.status = .ok ∧ t.result = decide (PixelFoundOn s x y) := by
  by_cases hin : inBounds s.cfg (coordinate x) (coordinate y) = true
  · obtain ⟨q, d, p, he, -⟩ := execGetPixel_ok h.valid h.quiet h.ready h.fits hin rfl
    exact ⟨_, he, rfl, by simp [PixelFoundOn, hin]⟩
  · exact ⟨_, (execPixel_clipped false h.ready (by simpa using hin)).2, rfl, by simp [PixelFoundOn, hin]⟩

theorem Operable.setPixel {x y : Coord} (on : Bool) (hin : inBounds s.cfg (coordinate x) (coordinate y) = true)
    {a : Nat} (ha : pixAddress s.cfg (coordinate x) (coordinate y) = a) :
    ∃ t, exec (.setPixel x y on) s = .next t ∧ Operable t ∧ t.cfg = s.cfg ∧
      t.bus.store.mem = s.bus.store.mem.write a (mutate (s.read a) (pixBit (coordinate x)) on) := by
  obtain ⟨q, d, p, he, -⟩ := execSetPixel_ok on h.valid h.quiet h.ready h.fits hin ha
  exact ⟨_, he, ⟨h.valid, after_quiet _ _ _ _ _ _ _ h.quiet, h.ready, h.fits⟩, rfl, rfl⟩

theorem Operable.clear (hr : s.cfg.relayMode = .directLink) :
    ∃ t, exec .clear s = .next t ∧ Operable t ∧ t.cfg = s.cfg ∧ t.vcom = (!s.vcom) ∧
      t.bus.store.mem = clearMemory s.cfg s.vcom s.bus.store.mem := by
  obtain ⟨q, d, p, he, -⟩ := execClear_ok h.valid hr h.quiet h.ready h.fits rfl
  exact ⟨_, he, ⟨h.valid, after_quiet _ _ _ _ _ _ _ h.quiet, h.ready, h.fits⟩, rfl, rfl, rfl⟩

theorem Operable.refresh (hr : s.cfg.relayMode = .directLink) :
    ∃ t, exec .refresh s = .next t ∧ Operable t ∧ t.cfg = s.cfg ∧ t.vcom = (!s.vcom) ∧
      t.bus.store.mem = refreshMemory s.cfg s.vcom s.bus.store.mem ∧
      t.bus.displayLog = s.bus.displayLog ++
        [cmdByte s.cfg s.cfg.cmdWrite s.vcom :: s.bus.store.mem.readBytes lineRecordBase s.cfg.frameSize] := by
  obtain ⟨q, d, p, he⟩ := execRefresh_ok h.valid hr h.quiet h.ready h.fits rfl
  have hframe := execRefresh_frame h.valid h.quiet h.ready h.fits he
  rw [recAddr_zero] at hframe
  exact ⟨_, he, ⟨h.valid, after_quiet _ _ _ _ _ _ _ h.quiet, h.ready, h.fits⟩, rfl, rfl, rfl, hframe⟩

end

/-- BEGIN on a frame that fits makes the machine operable. -/
theorem operable_of_begin {s : State} (hc : s.cfg.Valid) (hq : s.bus.Quiet) (hctrl : s.ctrl = .uninitialized)
    (hfits : Fits s.cfg) :
    ∃ t, exec .begin s = .next t ∧ Operable t ∧ t.cfg = s.cfg ∧
      t.bus.store.mem = beginMemory s.cfg s.bus.store.mem := by
  obtain ⟨q, d, he⟩ := execBegin_ok hc hq hctrl hfits
  exact ⟨_, he, ⟨hc, after_quiet _ _ _ _ _ _ _ hq, rfl, hfits⟩, rfl, rfl⟩

section
variable {s t : State} {x y : Coord} {on : Bool} {a : Nat}
  (ha : pixAddress s.cfg (coordinate x) (coordinate y) = a) (hcfg : t.cfg = s.cfg)
  (hmem : t.bus.store.mem = s.bus.store.mem.write a (mutate (s.read a) (pixBit (coordinate x)) on))
  (hin : inBounds s.cfg (coordinate x) (coordinate y) = true)
include ha hcfg hmem hin

/-- The pixel just set shows what it was set to (R86). -/
theorem pixelFoundOn_written : PixelFoundOn t x y ↔ on = true := by
  rw [PixelFoundOn, State.read, hcfg, hmem, ha, Memory.read_write_same, testBit_mutate_self]
  exact and_iff_right hin

/-- Any other pixel shows what it did: it has another byte, or another bit of the same byte (R77, R86). -/
theorem pixelFoundOn_other {x' y' : Coord} (hne : (x', y') ≠ (x, y)) : PixelFoundOn t x' y' ↔ PixelFoundOn s x' y' := by
  rw [PixelFoundOn, PixelFoundOn, State.read, hcfg, hmem]
  refine and_congr_right fun hin' => ?_
  by_cases haddress : pixAddress s.cfg (coordinate x') (coordinate y') = a
  · have hbit : pixBit (coordinate x') ≠ pixBit (coordinate x) := by
      intro hbit
      obtain ⟨hx, hy⟩ := pixAddress_injective hin' hin (haddress.trans ha.symm) hbit
      exact hne (by rw [BitVec.toInt_inj.mp hx, BitVec.toInt_inj.mp hy])
    rw [haddress, Memory.read_write_same, testBit_mutate_of_ne _ _ hbit]
  · rw [Memory.read_write_other _ _ _ haddress, State.read]

end

/-- In a blank record no pixel is on (R111). -/
theorem not_pixelFoundOn_of_blankRows {s : State} (h : BlankRows s.cfg s.bus.store.mem) (x y : Coord) :
    ¬ PixelFoundOn s x y := by
  rintro ⟨hin, hon⟩
  obtain ⟨hy, -, hhi⟩ := pixAddress_bounds hin
  obtain ⟨-, hdata, -⟩ := h _ hy
  rw [pixAddress_eq] at hhi hon
  rw [State.read, hdata _ (by omega), testBit_blankByte] at hon
  cases hon

/-- Settles O44: TEST finds what MUTATE drove in the byte written back. -/
theorem getPixelAfterSetPixel : Obligations.GetPixelAfterSetPixel := by
  intro s x y v hc hq hctrl hfits hin
  obtain ⟨t, ht, hop, hcfg, hmem⟩ := (Operable.mk hc hq hctrl hfits).setPixel v hin rfl
  obtain ⟨u, hu, hok, hresult⟩ := hop.getPixel x y
  have hon : decide (PixelFoundOn t x y) = decide (v = true) :=
    decide_eq_decide.mpr (pixelFoundOn_written rfl hcfg hmem hin)
  exact ⟨t, u, ht, hu, hok, hresult.trans (hon.trans Bool.decide_eq_true)⟩

/-- Settles O45: what GETPIXEL answers is `PixelFoundOn`, which the write keeps for every other coordinate. -/
theorem setPixelLeavesOtherPixels : Obligations.SetPixelLeavesOtherPixels := by
  intro s x y x' y' v hc hq hctrl hfits hin hne
  have hs : Operable s := ⟨hc, hq, hctrl, hfits⟩
  obtain ⟨t, ht, hop, hcfg, hmem⟩ := hs.setPixel v hin rfl
  obtain ⟨u, hu, huok, huresult⟩ := hop.getPixel x' y'
  obtain ⟨r, hr, hrok, hrresult⟩ := hs.getPixel x' y'
  refine ⟨t, u, r, ht, hu, hr, huok, hrok, ?_⟩
  rw [huresult, hrresult, decide_eq_decide.mpr (pixelFoundOn_other rfl hcfg hmem hin hne)]

theorem getPixel_of_blankRows {s : State} (h : Operable s) (hblank : BlankRows s.cfg s.bus.store.mem) (x y : Coord) :
    ∃ t, exec (.getPixel x y) s = .next t ∧ t.status = .ok ∧ t.result = false := by
  obtain ⟨t, ht, hok, hresult⟩ := h.getPixel x y
  exact ⟨t, ht, hok, hresult.trans (decide_eq_false (not_pixelFoundOn_of_blankRows hblank x y))⟩

/-- Settles O46: both commands leave every row blank. -/
theorem everyPixelOffAfterClearAndBegin : Obligations.EveryPixelOffAfterClearAndBegin := by
  intro s x y hc hr hq hfits
  refine ⟨fun hctrl => ?_, fun hctrl => ?_⟩
  · obtain ⟨t, ht, hop, hcfg, hvcom, hmem⟩ := (Operable.mk hc hq hctrl hfits).clear hr
    have hblank : BlankRows t.cfg t.bus.store.mem := by
      rw [hcfg, hmem]
      exact blankRows_clearMemory _ _ _
    obtain ⟨u, hu, hanswer⟩ := getPixel_of_blankRows hop hblank x y
    exact ⟨t, u, ht, hvcom, hu, hanswer⟩
  · obtain ⟨t, ht, hop, hcfg, hmem⟩ := operable_of_begin hc hq hctrl hfits
    have hblank : BlankRows t.cfg t.bus.store.mem := by
      rw [hcfg, hmem]
      exact blankRows_beginMemory _ _
    obtain ⟨u, hu, hanswer⟩ := getPixel_of_blankRows hop hblank x y
    exact ⟨t, u, ht, hu, hanswer⟩

/-- Settles O47: the first REFRESH writes the write slot only, so the second sends the same records. -/
theorem consecutiveRefreshesAlternate : Obligations.ConsecutiveRefreshesAlternate := by
  intro s hc hr hq hctrl hfits
  obtain ⟨t, ht, hop, hcfg, hvcom, hmem, hlog⟩ := (Operable.mk hc hq hctrl hfits).refresh hr
  obtain ⟨u, hu, -, -, huvcom, -, hulog⟩ := hop.refresh (hcfg ▸ hr)
  have hrecords : t.bus.store.mem.readBytes lineRecordBase s.cfg.frameSize =
      s.bus.store.mem.readBytes lineRecordBase s.cfg.frameSize := by
    rw [hmem]
    exact readBytes_write_below _ _ _ (by decide)
  rw [hlog, hcfg, hvcom, hrecords, List.append_assoc] at hulog
  exact ⟨t, u, _, _, ht, hu, hulog, rfl, rfl, rfl, by rw [huvcom, hvcom, Bool.not_not]⟩

/-! ## The VCOM bit (R106 to R109) -/

/-- The command leaves the VCOM bit and sends the display nothing (R109). -/
abbrev SendsNothing (s t : State) : Prop := t.vcom = s.vcom ∧ t.bus.displayLog = s.bus.displayLog

/-- The command sends one frame, led by this template with the VCOM bit from before, and toggles the bit (R108). -/
abbrev SendsFrame (template : Byte) (s t : State) : Prop :=
  t.vcom = (!s.vcom) ∧ ∃ frame, t.bus.displayLog = s.bus.displayLog ++ [frame] ∧
    frame.head? = some (cmdByte s.cfg template s.vcom)

/-- The words of the two image updates, and the template each sends. -/
abbrev ImageUpdate (c : Config) (w : CommandWord) (template : Byte) : Prop :=
  (decodeHC w = .ok .clear ∧ template = c.cmdClear) ∨ (decodeHC w = .ok .refresh ∧ template = c.cmdWrite)

theorem admitIn_cases {needed : Ctrl} {s t : State} {command : State → Host.Outcome State Fault Refusal}
    (h : admitIn needed s command = .next t) :
    (s.ctrl = needed ∧ command s = .next t) ∨ (s.ctrl ≠ needed ∧ t = s.refuseState) := by
  unfold admitIn at h
  split at h
  · next hctrl => exact Or.inl ⟨hctrl, h⟩
  · next hctrl =>
    cases h
    exact Or.inr ⟨hctrl, rfl⟩

theorem imageUpdate_refused {s : State} (hctrl : s.ctrl ≠ .ready) :
    execClear s = .next s.refuseState ∧ execRefresh s = .next s.refuseState :=
  ⟨if_neg hctrl, if_neg hctrl⟩

section
variable {s t : State} (hc : s.cfg.Valid) (hq : s.bus.Quiet)
include hc hq

theorem execBegin_sendsNothing (h : execBegin s = .next t) : SendsNothing s t := by
  rcases admitIn_cases h with ⟨hctrl, -⟩ | ⟨-, rfl⟩
  · by_cases hfits : Fits s.cfg
    · obtain ⟨q, d, he⟩ := execBegin_ok hc hq hctrl hfits
      cases h.symm.trans he
      exact ⟨rfl, List.append_nil _⟩
    · obtain ⟨k, q, d, -, -, -, he⟩ := execBegin_short hc hq hctrl hfits
      cases h.symm.trans he
      exact ⟨rfl, List.append_nil _⟩
  · exact ⟨rfl, rfl⟩

variable (hready : s.ctrl = .ready → Fits s.cfg)
include hready

theorem execSetPixel_sendsNothing {x y : Coord} {on : Bool} (h : execSetPixel x y on s = .next t) :
    SendsNothing s t := by
  rcases admitIn_cases h with ⟨hctrl, -⟩ | ⟨-, rfl⟩
  · by_cases hin : inBounds s.cfg (coordinate x) (coordinate y) = true
    · obtain ⟨q, d, p, he, -⟩ := execSetPixel_ok on hc hq hctrl (hready hctrl) hin rfl
      cases h.symm.trans he
      exact ⟨rfl, List.append_nil _⟩
    · cases h.symm.trans (execPixel_clipped on hctrl (by simpa using hin)).1
      exact ⟨rfl, rfl⟩
  · exact ⟨rfl, rfl⟩

theorem execGetPixel_sendsNothing {x y : Coord} (h : execGetPixel x y s = .next t) : SendsNothing s t := by
  rcases admitIn_cases h with ⟨hctrl, -⟩ | ⟨-, rfl⟩
  · by_cases hin : inBounds s.cfg (coordinate x) (coordinate y) = true
    · obtain ⟨q, d, p, he, -⟩ := execGetPixel_ok hc hq hctrl (hready hctrl) hin rfl
      cases h.symm.trans he
      exact ⟨rfl, List.append_nil _⟩
    · cases h.symm.trans (execPixel_clipped false hctrl (by simpa using hin)).2
      exact ⟨rfl, rfl⟩
  · exact ⟨rfl, rfl⟩

/-- Every command word but an image update in `Ready`, the reserved and the refused ones too (R109). -/
theorem acceptCommand_sendsNothing {w : CommandWord} (hw : ∀ template, ImageUpdate s.cfg w template → s.ctrl ≠ .ready)
    (h : acceptPacket (.command w) s = .next t) : SendsNothing s t := by
  simp only [acceptPacket, decode] at h
  split at h
  · next i hdecode =>
    rcases decodeHC_cases hdecode with rfl | ⟨x, y, on, rfl⟩ | ⟨x, y, rfl⟩ | rfl | rfl
    · exact execBegin_sendsNothing hc hq h
    · exact execSetPixel_sendsNothing hc hq hready h
    · exact execGetPixel_sendsNothing hc hq hready h
    · cases h.symm.trans (imageUpdate_refused (hw _ (Or.inl ⟨hdecode, rfl⟩))).1
      exact ⟨rfl, rfl⟩
    · cases h.symm.trans (imageUpdate_refused (hw _ (Or.inr ⟨hdecode, rfl⟩))).2
      exact ⟨rfl, rfl⟩
  · cases h
    exact ⟨rfl, rfl⟩

omit hready
variable (hr : s.cfg.relayMode = .directLink) (hctrl : s.ctrl = .ready) (hfits : Fits s.cfg)
include hr hctrl hfits

theorem execClear_sendsFrame (h : execClear s = .next t) : SendsFrame s.cfg.cmdClear s t := by
  have hframe := execClear_frame hc hq hctrl hfits h
  obtain ⟨q, d, p, he, -⟩ := execClear_ok hc hr hq hctrl hfits rfl
  cases h.symm.trans he
  exact ⟨rfl, _, hframe, rfl⟩

theorem execRefresh_sendsFrame (h : execRefresh s = .next t) : SendsFrame s.cfg.cmdWrite s t := by
  have hframe := execRefresh_frame hc hq hctrl hfits h
  obtain ⟨q, d, p, he⟩ := execRefresh_ok hc hr hq hctrl hfits rfl
  cases h.symm.trans he
  exact ⟨rfl, _, hframe, rfl⟩

/-- An image update in `Ready` (R104, R105, R108). -/
theorem acceptCommand_sendsFrame {w : CommandWord} {template : Byte} (hw : ImageUpdate s.cfg w template)
    (h : acceptPacket (.command w) s = .next t) : SendsFrame template s t := by
  rcases hw with ⟨hdecode, rfl⟩ | ⟨hdecode, rfl⟩
  · rw [acceptCommand_of_decodeHC hdecode] at h
    exact execClear_sendsFrame hc hq hr hctrl hfits h
  · rw [acceptCommand_of_decodeHC hdecode] at h
    exact execRefresh_sendsFrame hc hq hr hctrl hfits h

end

/-- Both forms of reset end in its assertion (R136, R138). -/
theorem takeInput_reset {s t : State} {i : Input} (hi : i = .reset ∨ ∃ w n midByte, i = .commandCut w n midByte)
    (h : takeInput i s = .next t) : ∃ b : Bus, t = { s with bus := b }.assertReset := by
  rcases hi with rfl | ⟨w, n, midByte, rfl⟩
  · cases h
    exact ⟨s.bus, rfl⟩
  · obtain ⟨events, rfl⟩ := acceptCut_cases h
    exact ⟨_, resetDuring_eq s events n midByte⟩

theorem rowOfOp_eq_clear_iff (op : BitVec 4) (on : Bool) (x y : Coord) :
    rowOfOp op on x y = .ok .clear ↔ op = 4 := by
  unfold rowOfOp; grind

theorem rowOfOp_eq_refresh_iff (op : BitVec 4) (on : Bool) (x y : Coord) :
    rowOfOp op on x y = .ok .refresh ↔ op = 5 := by
  unfold rowOfOp; grind

/-- A row that `rowOfOp` gives to one value of `OP` alone is matched by the words that decode to it (R54). -/
theorem matches_iff_decodeHC {op : BitVec 4} {i : Instr}
    (hrow : ∀ op' on x y, rowOfOp op' on x y = .ok i ↔ op' = op) (w : CommandWord) :
    w &&& 0xFE00000000 = op ++ (0 : BitVec 3) ++ (0 : BitVec 33) ↔ decodeHC w = .ok i := by
  rw [matches_row_iff]
  by_cases hrsv : fieldRsv w = 0
  · rw [decodeHC_eq_rowOfOp hrsv, hrow]
    exact and_iff_left hrsv
  · rw [decodeHC, if_pos hrsv]
    exact iff_of_false (fun h => hrsv h.2) nofun

theorem matches_clear_iff (w : CommandWord) : w &&& 0xFE00000000 = 0x4000000000 ↔ decodeHC w = .ok .clear :=
  matches_iff_decodeHC rowOfOp_eq_clear_iff w

theorem matches_refresh_iff (w : CommandWord) : w &&& 0xFE00000000 = 0x5000000000 ↔ decodeHC w = .ok .refresh :=
  matches_iff_decodeHC rowOfOp_eq_refresh_iff w

/-- Settles O50: an admitted image update sends its frame, any other word nothing, and reset asserts `VCOM_INIT`. -/
theorem vcomStateMachine : Obligations.VcomStateMachine := by
  rintro s t i rest ⟨-, -, hq, hready⟩ hinbox hstep
  obtain ⟨hc, hr⟩ := config_of_step hstep
  rw [step_input hc hr hinbox] at hstep
  refine ⟨?_, fun hi => ?_⟩
  · rintro w rfl
    simp only [matches_clear_iff, matches_refresh_iff]
    refine ⟨fun template hw hctrl => ?_, fun hnot => ?_⟩
    · exact acceptCommand_sendsFrame (s := { s with inbox := rest }) hc hq hr hctrl (hready hctrl) hw hstep
    · exact acceptCommand_sendsNothing (s := { s with inbox := rest }) hc hq hready
        (fun template hw hctrl => hnot ⟨hctrl, hw.imp And.left And.left⟩) hstep
  · obtain ⟨b, rfl⟩ := takeInput_reset hi hstep
    rfl

/-! ## The alternation over the frames since reset (R107) -/

theorem decide_succ_odd (n : Nat) : decide ((n + 1) % 2 = 1) = !decide (n % 2 = 1) := by
  rw [← decide_not]
  exact decide_eq_decide.mpr (by omega)

theorem vcomInv_of_sendsNothing {s t : State} (hinv : VcomInv s) (hcfg : t.cfg = s.cfg) (h : SendsNothing s t) :
    VcomInv t := by
  obtain ⟨hvcom, hlog⟩ := h
  rw [VcomInv, hcfg, hvcom, hlog]
  exact hinv

/-- The new frame is the one the bit was kept for, and the toggle prepares the next. -/
theorem vcomInv_of_sendsFrame {s t : State} {template : Byte} (hinv : VcomInv s) (hcfg : t.cfg = s.cfg)
    (htemplate : template ∈ [s.cfg.cmdClear, s.cfg.cmdWrite]) (h : SendsFrame template s t) : VcomInv t := by
  obtain ⟨hbit, hframes⟩ := hinv
  obtain ⟨hvcom, frame, hlog, hhead⟩ := h
  rw [VcomInv, hcfg, hlog, List.length_append, List.length_singleton]
  refine ⟨?_, fun k hk => ?_⟩
  · rw [hvcom, hbit, decide_succ_odd, Bool.xor_not]
  · rcases Nat.lt_succ_iff_lt_or_eq.mp hk with hlt | rfl
    · rw [List.getElem?_append_left hlt]
      exact hframes k hlt
    · refine ⟨template, htemplate, ?_⟩
      rw [List.getElem?_concat_length, ← hbit]
      exact hhead

theorem vcomInv_assertReset (s : State) : VcomInv s.assertReset :=
  ⟨(Bool.xor_false s.cfg.vcomInit).symm, nofun⟩

theorem acceptCommand_keeps_vcomInv {s t : State} (hc : s.cfg.Valid) (hr : s.cfg.relayMode = .directLink)
    (hinv : MachineInv s) (hvcom : VcomInv s) {w : CommandWord} (h : acceptPacket (.command w) s = .next t) :
    VcomInv t := by
  obtain ⟨-, -, hq, hready⟩ := hinv
  obtain ⟨hcfg, -⟩ := acceptCommand_keeps hc hr hq hready h
  by_cases hw : ∃ template, ImageUpdate s.cfg w template ∧ s.ctrl = .ready
  · obtain ⟨template, hw, hctrl⟩ := hw
    have htemplate : template ∈ [s.cfg.cmdClear, s.cfg.cmdWrite] := by
      rcases hw with ⟨-, rfl⟩ | ⟨-, rfl⟩ <;> simp
    exact vcomInv_of_sendsFrame hvcom hcfg htemplate (acceptCommand_sendsFrame hc hq hr hctrl (hready hctrl) hw h)
  · exact vcomInv_of_sendsNothing hvcom hcfg
      (acceptCommand_sendsNothing hc hq hready (fun template hw' hctrl => hw ⟨template, hw', hctrl⟩) h)

theorem takeInput_keeps_vcomInv {s t : State} (hc : s.cfg.Valid) (hr : s.cfg.relayMode = .directLink)
    (hinv : MachineInv s) (hvcom : VcomInv s) {i : Input} (hhost : i.fromHost = true)
    (h : takeInput i s = .next t) : VcomInv t := by
  have hreset : (∃ b : Bus, t = { s with bus := b }.assertReset) → VcomInv t := by
    rintro ⟨b, rfl⟩
    exact vcomInv_assertReset _
  cases i with
  | packet p =>
    cases p with
    | command w => exact acceptCommand_keeps_vcomInv hc hr hinv hvcom h
    | storeWindow sent => cases hhost
    | displayWindow shifted => cases hhost
  | commandCut w n midByte => exact hreset (takeInput_reset (Or.inr ⟨w, n, midByte, rfl⟩) h)
  | reset => exact hreset (takeInput_reset (Or.inl rfl) h)

/-- Settles O57, input by input: an idle step changes nothing, a command word sends the frame whose turn it is or none,
and after a reset there are no frames. -/
theorem hostStepKeepsVcomAlternation : Obligations.HostStepKeepsVcomAlternation := by
  intro s t hinv hhost hvcom hstep
  obtain ⟨hc, hr⟩ := config_of_step hstep
  rcases step_cases hstep with ⟨-, rfl⟩ | ⟨i, rest, hinbox, h⟩
  · exact hvcom
  · exact takeInput_keeps_vcomInv (s := { s with inbox := rest }) hc hr hinv hvcom
      (hhost i (by rw [hinbox]; exact List.mem_cons_self)) h

end Sys2Proof.Machine
end

section
/-! PROOFS. Exceptions (spec/60_exceptions.md): a reserved word is refused in every state (R119), a command outside the
state it needs is refused (R118), and in `Failed` every command word is refused (R117, R125). -/

namespace Sys2Proof.Machine

/-! ## The two refusals (R118, R119) -/

theorem refuseState_eq (s : State) : s.refuseState =
    { s with status := .errState, result := false, responses := s.responses ++ [0b010] } := rfl

theorem refuseIllegal_eq (s : State) : s.refuseIllegal =
    { s with status := .errIllegal, result := false, responses := s.responses ++ [0b110] } := rfl

section
variable {s : State}

theorem acceptCommand_of_decodeHC_error {w : CommandWord} {why : DecodeError} (h : decodeHC w = .error why) :
    acceptPacket (.command w) s = .next s.refuseIllegal := by
  simp only [acceptPacket, decode, h]

theorem acceptCommand_reserved {w : CommandWord} (hw : Reserved w) :
    acceptPacket (.command w) s = .next s.refuseIllegal := by
  obtain ⟨why, hdecode⟩ := (reservedWordsAreTheUndecodable w).mp hw
  exact acceptCommand_of_decodeHC_error hdecode

/-- Admission fails before any part of the command runs, so the refusal does not depend on the command (R99). -/
theorem admitIn_refused {needed : Ctrl} (hctrl : s.ctrl ≠ needed)
    (command : State → Host.Outcome State Fault Refusal) : admitIn needed s command = .next s.refuseState :=
  if_neg hctrl

theorem exec_begin_refused (hctrl : s.ctrl ≠ .uninitialized) : exec .begin s = .next s.refuseState := by
  rw [exec, execBegin, admitIn_refused hctrl]

/-- The four commands that need `Ready`. -/
theorem exec_refused_of_not_ready (hctrl : s.ctrl ≠ .ready) {i : Instr}
    (hi : (∃ x y on, i = .setPixel x y on) ∨ (∃ x y, i = .getPixel x y) ∨ i = .clear ∨ i = .refresh) :
    exec i s = .next s.refuseState := by
  rcases hi with ⟨x, y, on, rfl⟩ | ⟨x, y, rfl⟩ | rfl | rfl
  · rw [exec, execSetPixel, admitIn_refused hctrl]
  · rw [exec, execGetPixel, admitIn_refused hctrl]
  · rw [exec, execClear, admitIn_refused hctrl]
  · rw [exec, execRefresh, admitIn_refused hctrl]

/-- No command is admitted in `Failed`, and the words that are no command are refused in every state (R117). -/
theorem acceptCommand_failed (hctrl : s.ctrl = .failed) (w : CommandWord) :
    acceptPacket (.command w) s = .next s.refuseState ∨ acceptPacket (.command w) s = .next s.refuseIllegal := by
  cases hdecode : decodeHC w with
  | error why => exact Or.inr (acceptCommand_of_decodeHC_error hdecode)
  | ok i =>
    refine Or.inl ((acceptCommand_of_decodeHC hdecode).trans ?_)
    rcases decodeHC_cases hdecode with rfl | hi
    · exact exec_begin_refused (by rw [hctrl]; nofun)
    · exact exec_refused_of_not_ready (by rw [hctrl]; nofun) hi

end

/-- Settles O9: a reserved word does not decode, and a word that does not decode is refused. -/
theorem reservedWordIsRefused : Obligations.ReservedWordIsRefused := by
  intro s w rest hc hr hinbox hw
  rw [step_input hc hr hinbox, takeInput, acceptCommand_reserved hw, refuseIllegal_eq]

/-- Settles O10: admission fails for BEGIN and for the four commands that need `Ready`. -/
theorem commandsInWrongStateAreRefused : Obligations.CommandsInWrongStateAreRefused := by
  intro s
  rw [← refuseState_eq]
  exact ⟨exec_begin_refused, fun hctrl _ => exec_refused_of_not_ready hctrl⟩

/-- Settles O51: the step ends in one of the two refusals, and each changes the response alone. -/
theorem failedIsTerminal : Obligations.FailedIsTerminal := by
  intro s w rest hc hr hctrl hinbox
  rw [step_input hc hr hinbox]
  rcases acceptCommand_failed (s := { s with inbox := rest }) hctrl w with h | h
  · exact ⟨_, h, hctrl, rfl, rfl, rfl, rfl, rfl, Or.inl rfl⟩
  · exact ⟨_, h, hctrl, rfl, rfl, rfl, rfl, rfl, Or.inr rfl⟩

end Sys2Proof.Machine
end

section
/-! PROOFS. Reset and what the bus costs (spec/70_reset_and_hazards.md): the reset values (R137), reset in an idle core
(R136), reset in the middle of a command (R138), and the byte-periods of each command (R149). -/

namespace Sys2Proof.Machine

/-! ## Reset between commands (R136, R137) -/

/-- Settles O12, field by field of the reset state. -/
theorem resetStateValues : Obligations.ResetStateValues := fun _ => ⟨rfl, rfl, rfl, rfl, rfl, rfl, rfl, rfl, rfl⟩

theorem step_reset {s : State} {rest : List Input} (hc : s.cfg.Valid) (hr : s.cfg.relayMode = .directLink)
    (hinbox : s.inbox = .reset :: rest) : step s = .next { s with inbox := rest }.assertReset :=
  step_input hc hr hinbox

/-- Settles O13, from what the reset of the bus leaves: a quiet bus and the store's bytes. -/
theorem resetEvent : Obligations.ResetEvent := by
  intro s rest hc hr hinbox
  obtain ⟨hssel, hdsel, hmode, -, -⟩ := assertReset_quiet s.cfg s.bus
  refine ⟨_, step_reset hc hr hinbox, rfl, rfl, rfl, rfl, hssel, hdsel, hmode, rfl, fun a => ?_, fun hwel hs => ?_,
    rfl, rfl, rfl⟩
  · exact congrArg (Memory.read · a) (assertReset_mem s.cfg s.bus)
  · exact (assertReset_wel s.cfg s.bus).trans (by rw [hwel, hs]; rfl)

/-! ## The byte-periods of each command (R149) -/

@[simp] theorem bytePeriods_nil : bytePeriods [] = 0 := rfl

@[simp] theorem bytePeriods_cons_byte (o : Byte) (i : Option Byte) (events : List BusEvent) :
    bytePeriods (.byte o i :: events) = bytePeriods events + 1 :=
  List.countP_cons_of_pos rfl

/-- A select line that changes is no byte-period. -/
@[simp] theorem bytePeriods_cons_select (events : List BusEvent) :
    bytePeriods (.sselUp :: events) = bytePeriods events ∧ bytePeriods (.sselDown :: events) = bytePeriods events ∧
      bytePeriods (.dselUp :: events) = bytePeriods events ∧ bytePeriods (.dselDown :: events) = bytePeriods events :=
  ⟨rfl, rfl, rfl, rfl⟩

@[simp] theorem bytePeriods_append (xs ys : List BusEvent) :
    bytePeriods (xs ++ ys) = bytePeriods xs + bytePeriods ys :=
  List.countP_append

@[simp] theorem bytePeriods_map_byte {α : Type} (o : α → Byte) (i : α → Option Byte) (l : List α) :
    bytePeriods (l.map fun x => .byte (o x) (i x)) = l.length := by
  induction l with
  | nil => rfl
  | cons x l ih => simp [ih]

@[simp] theorem bytePeriods_headerEvents (op : Byte) (a : Nat) : bytePeriods (headerEvents op a) = 3 := rfl

@[simp] theorem bytePeriods_dataEvents (m : Memory) (a n : Nat) (p : Nat → Byte) :
    bytePeriods (dataEvents m a n p) = n := by
  rw [dataEvents, bytePeriods_map_byte, List.length_range]

@[simp] theorem bytePeriods_readWindow (c : Config) (m : Memory) (a n : Nat) (p : Nat → Byte) :
    bytePeriods (readWindow c m a n p) = 3 + n := by
  simp [readWindow]

@[simp] theorem bytePeriods_relayWindow (c : Config) (m : Memory) (a n : Nat) (p : Nat → Byte) :
    bytePeriods (relayWindow c m a n p) = 3 + n := by
  simp [relayWindow]

/-- STORE.WRITE: the write-enable's opcode, the write's opcode and address, and the data. -/
@[simp] theorem bytePeriods_storeWriteEvents (c : Config) (a : Nat) (data : List Byte) :
    bytePeriods (storeWriteEvents c a data) = 1 + 3 + data.length := by
  simp [storeWriteEvents, wrenWindow, writeWindow]
  omega

/-- The bulk write: one STORE.WRITE of a whole record for each row. -/
@[simp] theorem bytePeriods_recordEvents (c : Config) :
    bytePeriods (recordEvents c) = c.height * (1 + 3 + c.record) := by
  have hrows : ∀ rows : List Nat,
      bytePeriods (rows.flatMap fun y => storeWriteEvents c (recAddr c y) (blankRecord c y)) =
        rows.length * (1 + 3 + c.record) := by
    intro rows
    induction rows with
    | nil => simp
    | cons y rows ih =>
      rw [List.flatMap_cons, bytePeriods_append, ih, bytePeriods_storeWriteEvents, length_blankRecord,
        List.length_cons, Nat.succ_mul, Nat.add_comm]
  rw [recordEvents, hrows, List.length_range]

/-- Settles O48, from the windows each command's events are made of. -/
theorem bytePeriodCounts : Obligations.BytePeriodCounts := by
  intro s x y on hc hr hq hfits
  refine ⟨fun hctrl => ?_, fun hctrl hin => ⟨?_, ?_⟩, fun hctrl => ⟨?_, ?_⟩⟩
  · obtain ⟨q, d, he⟩ := execBegin_ok hc hq hctrl hfits
    exact ⟨_, he, by simp⟩
  · obtain ⟨q, d, p, he, -⟩ := execSetPixel_ok on hc hq hctrl hfits hin rfl
    exact ⟨_, he, by simp⟩
  · obtain ⟨q, d, p, he, -⟩ := execGetPixel_ok hc hq hctrl hfits hin rfl
    exact ⟨_, he, by simp⟩
  · obtain ⟨q, d, p, he⟩ := execRefresh_ok hc hr hq hctrl hfits rfl
    exact ⟨_, he, by simp; omega⟩
  · obtain ⟨q, d, p, he, -⟩ := execClear_ok hc hr hq hctrl hfits rfl
    exact ⟨_, he, by simp⟩

/-! ## A list of STORE.WRITE calls cut by reset -/

/-- A call of STORE.WRITE that moves at least one byte and none at `limit` or above. -/
abbrev CallBelow (limit : Nat) (call : Nat × List Byte) : Prop :=
  1 ≤ call.2.length ∧ call.1 + call.2.length ≤ limit

/-- The address is none of those the call writes. -/
abbrev OutsideCall (x : Nat) (call : Nat × List Byte) : Prop := x < call.1 ∨ call.1 + call.2.length ≤ x

/-- A cut leaves what no call writes. -/
theorem read_cutMemory_outside {x : Nat} {calls : List (Nat × List Byte)} (h : ∀ call ∈ calls, OutsideCall x call)
    (n : Nat) (m : Memory) : (cutMemory calls n m).read x = m.read x := by
  induction calls generalizing n m with
  | nil => rfl
  | cons call calls ih =>
    obtain ⟨hcall, hcalls⟩ := List.forall_mem_cons.mp h
    have hlen := List.length_take_le' (n - 7) call.2
    rw [cutMemory, ih hcalls, Memory.read_writeBytes_outside _ _ _ (by omega)]

/-- The byte that is cut is one of those a call writes. -/
theorem cutAddress_ne_of_outside {x : Nat} {calls : List (Nat × List Byte)} (h : ∀ call ∈ calls, OutsideCall x call)
    (n : Nat) : cutAddress calls n ≠ some x := by
  induction calls generalizing n with
  | nil => nofun
  | cons call calls ih =>
    obtain ⟨hcall, hcalls⟩ := List.forall_mem_cons.mp h
    rw [cutAddress]
    split
    · split
      · simp only [ne_eq, Option.some.injEq]
        omega
      · nofun
    · exact ih hcalls _

/-- A call of one byte: its eighth event is the data byte. -/
theorem cutMemory_single (a : Nat) (v : Byte) (n : Nat) (m : Memory) :
    cutMemory [(a, [v])] n m = if n ≤ 7 then m else m.write a v := by
  split
  · next h => rw [cutMemory, Nat.sub_eq_zero_of_le h]; rfl
  · next h => rw [cutMemory, List.take_of_length_le (Nat.le_sub_of_add_le (by simp; omega))]; rfl

theorem cutAddress_single (a : Nat) (v : Byte) (n : Nat) :
    cutAddress [(a, [v])] n = if n = 7 then some a else none := by
  simp only [cutAddress, List.length_singleton]
  split
  · split
    · rw [if_pos (by omega), show n - 7 = 0 by omega]; rfl
    · rw [if_neg (by omega)]
  · rw [if_neg (by omega)]

theorem recordCalls_mem {c : Config} {call : Nat × List Byte} (h : call ∈ recordCalls c) :
    CallBelow (frameEnd c + 1) call ∧ 3 ≤ call.1 := by
  obtain ⟨y, hy, rfl⟩ := List.mem_map.mp h
  have hrec := record_ge c
  have hend := recAddr_end c (List.mem_range.mp hy)
  simp only [CallBelow, length_blankRecord]
  exact ⟨⟨by omega, hend⟩, recAddr_ge c y⟩

/-! ## The calls of a command word -/

/-- The STORE.WRITE of an in-bounds SETPIXEL (R102). -/
def pixelCall (s : State) (x y : Coord) (on : Bool) : Nat × List Byte :=
  (pixAddress s.cfg (coordinate x) (coordinate y),
    [mutate (s.read (pixAddress s.cfg (coordinate x) (coordinate y))) (pixBit (coordinate x)) on])

/-- The STORE.WRITE calls of a command in a state, in order; no call where it is refused or clipped. (No command word
decodes to the rows of the store and the display, which make none.) -/
def commandCalls (s : State) : Instr → List (Nat × List Byte)
  | .begin => if s.ctrl = .uninitialized then beginCalls s.cfg else []
  | .setPixel x y on =>
    if s.ctrl = .ready ∧ inBounds s.cfg (coordinate x) (coordinate y) = true then [pixelCall s x y on] else []
  | .clear => if s.ctrl = .ready then clearCalls s.cfg s.vcom else []
  | .refresh => if s.ctrl = .ready then refreshCalls s.cfg s.vcom else []
  | .getPixel _ _ | .sbRead _ _ | .sbWren | .sbWrite _ _ | .dfWrite _ _ | .dfClear _ _ _ => []

/-- The bus events of a command before its first STORE.WRITE: the read window of a SETPIXEL (R102). -/
def eventsBeforeWrites : Instr → Nat
  | .setPixel _ _ _ => 6
  | .begin | .getPixel _ _ | .clear | .refresh | .sbRead _ _ | .sbWren | .sbWrite _ _ | .dfWrite _ _
  | .dfClear _ _ _ => 0

/-- BEGIN's calls end at the first that fails its bound check. -/
theorem beginCalls_mem {c : Config} {call : Nat × List Byte} (h : call ∈ beginCalls c) :
    (call = (0, [c.cmdClear, c.marker, c.cmdWrite]) ∨ call ∈ recordCalls c) ∧
      CallBelow (c.storeMaxAddr + 1) call := by
  have hmem := List.mem_cons.mp (List.takeWhile_subset _ h)
  have hfit := List.all_eq_true.mp (List.all_takeWhile ..) call h
  refine ⟨hmem, ?_, of_decide_eq_true hfit⟩
  rcases hmem with rfl | hrecord
  · exact Nat.le_add_left 1 2
  · exact (recordCalls_mem hrecord).1.1

theorem clearCalls_mem {c : Config} {vcom : Bool} {call : Nat × List Byte} (h : call ∈ clearCalls c vcom) :
    call = (0, [cmdByte c c.cmdClear vcom]) ∨ call ∈ recordCalls c := by
  rwa [clearCalls, List.mem_append, List.mem_singleton, or_comm] at h

theorem callBelow_single {limit a : Nat} (v : Byte) (h : a < limit) : CallBelow limit (a, [v]) := ⟨le_rfl, h⟩

/-- Every call of a command writes to the header or the frame. -/
theorem commandCalls_below {s : State} (hc : s.cfg.Valid) (i : Instr) :
    ∀ call ∈ commandCalls s i, CallBelow (frameEnd s.cfg + 1) call := by
  intro call h
  have hend := frameEnd_ge hc
  cases i with
  | begin =>
    obtain ⟨-, h⟩ := List.mem_ite_nil_right.mp h
    rcases (beginCalls_mem h).1 with rfl | hrecord
    · exact ⟨Nat.le_add_left 1 2, by simp; omega⟩
    · exact (recordCalls_mem hrecord).1
  | setPixel x y on =>
    obtain ⟨⟨-, hin⟩, h⟩ := List.mem_ite_nil_right.mp h
    obtain rfl := List.mem_singleton.mp h
    have hlt := pixAddress_lt_frameEnd hin
    exact callBelow_single _ (by omega)
  | clear =>
    obtain ⟨-, h⟩ := List.mem_ite_nil_right.mp h
    rcases clearCalls_mem h with rfl | hrecord
    · exact callBelow_single _ (by omega)
    · exact (recordCalls_mem hrecord).1
  | refresh =>
    obtain ⟨-, h⟩ := List.mem_ite_nil_right.mp h
    obtain rfl := List.mem_singleton.mp h
    exact callBelow_single _ (by omega)
  | getPixel | sbRead | sbWren | sbWrite | dfWrite | dfClear => cases h

/-- Once the frame fits the store, so does every call. -/
theorem commandCalls_fit {s : State} (hc : s.cfg.Valid) (hfits : Fits s.cfg) (i : Instr) :
    ∀ call ∈ commandCalls s i, CallBelow (s.cfg.storeMaxAddr + 1) call := by
  intro call h
  obtain ⟨hlen, hend⟩ := commandCalls_below hc i call h
  exact ⟨hlen, Nat.le_trans hend (Nat.succ_le_succ hfits)⟩

/-- Outside `Ready` only BEGIN makes a call (R118). -/
theorem commandCalls_of_not_ready {s : State} (hctrl : s.ctrl ≠ .ready) {i : Instr} (hi : i ≠ .begin) :
    commandCalls s i = [] := by
  cases i with
  | begin => exact absurd rfl hi
  | setPixel x y on => exact if_neg fun h => hctrl h.1
  | clear | refresh => exact if_neg hctrl
  | getPixel | sbRead | sbWren | sbWrite | dfWrite | dfClear => rfl

/-- CLEAR writes the records and the clear slot: between them lie the marker slot and the write slot. -/
theorem commandCalls_clear_outside (s : State) {a : Nat} (h1 : 1 ≤ a) (h2 : a ≤ 2) :
    ∀ call ∈ commandCalls s .clear, OutsideCall a call := by
  intro call h
  rcases clearCalls_mem (List.mem_ite_nil_right.mp h).2 with rfl | hrecord
  · exact Or.inr h1
  · exact Or.inl (Nat.lt_of_lt_of_le (Nat.lt_succ_of_le h2) (recordCalls_mem hrecord).2)

/-- REFRESH writes the write slot. -/
theorem commandCalls_refresh_outside (s : State) {a : Nat} (ha : a ≠ 2) :
    ∀ call ∈ commandCalls s .refresh, OutsideCall a call := by
  intro call h
  obtain rfl := List.mem_singleton.mp (List.mem_ite_nil_right.mp h).2
  exact Nat.lt_or_gt_of_ne ha

/-! ## The events of a command word, cut anywhere -/

/-- Wherever the events are cut, the store reads as after a cut of the calls, the first `before` events writing nothing.
A byte whose byte-period is cut is left open. -/
def Bus.CutsAs (c : Config) (b : Bus) (events : List BusEvent) (before : Nat) (calls : List (Nat × List Byte)) : Prop :=
  ∀ (n : Nat) (midByte : Bool) (x : Nat), midByte = false ∨ cutAddress calls (n - before) ≠ some x →
    (b.cutAt c events n midByte).store.mem.read x = (cutMemory calls (n - before) b.store.mem).read x

theorem cutAt_nil (c : Config) (b : Bus) (n : Nat) (midByte : Bool) : b.cutAt c [] n midByte = b := by
  cases midByte <;> simp [Bus.cutAt, Bus.replay, Bus.cutDuring]

theorem cutsAs_silent {c : Config} {b : Bus} {events : List BusEvent} (before : Nat)
    (h : ∀ n midByte, (b.cutAt c events n midByte).store.mem = b.store.mem) : b.CutsAs c events before [] :=
  fun n midByte x _ => congrArg (Memory.read · x) (h n midByte)

/-- STORE.WRITE calls, with nothing but reading after them. -/
theorem cutsAs_calls {c : Config} (hc : c.Valid) {b : Bus} (hq : b.Quiet) {calls : List (Nat × List Byte)}
    (hcalls : ∀ call ∈ calls, CallBelow (c.storeMaxAddr + 1) call) {tail : List BusEvent}
    (htail : ∀ (b : Bus) n midByte, b.Quiet → (b.cutAt c tail n midByte).store.mem = b.store.mem) :
    b.CutsAs c ((calls.flatMap fun call => storeWriteEvents c call.1 call.2) ++ tail) 0 calls :=
  fun n midByte x => cutAt_calls hc tail htail calls n midByte x hq hcalls

theorem cutsAs_calls_only {c : Config} (hc : c.Valid) {b : Bus} (hq : b.Quiet) {calls : List (Nat × List Byte)}
    (hcalls : ∀ call ∈ calls, CallBelow (c.storeMaxAddr + 1) call) :
    b.CutsAs c (calls.flatMap fun call => storeWriteEvents c call.1 call.2) 0 calls := by
  have h := cutsAs_calls hc hq hcalls (tail := []) fun b n midByte _ => by rw [cutAt_nil]
  rwa [List.append_nil] at h

theorem replay_readWindow_quiet (c : Config) (m : Memory) (a : Nat) (p : Nat → Byte) {b : Bus} (hq : b.Quiet) :
    (b.replay c (readWindow c m a 1 p)).Quiet := by
  obtain ⟨hs, hd, -, -, hsh⟩ := hq
  simp [Bus.Quiet, Bus.replay, readWindow, headerEvents, dataEvents, hd, hsh]

theorem replay_readWindow_mem (c : Config) (m : Memory) (a : Nat) (p : Nat → Byte) {b : Bus} (hq : b.Quiet) :
    (b.replay c (readWindow c m a 1 p)).store.mem = b.store.mem := by
  have h := cutAt_readWindow c m a 1 p (readWindow c m a 1 p).length false hq
  rwa [Bus.cutAt, if_neg nofun, List.take_length] at h

/-- A read of one byte before the calls (R102). -/
theorem cutsAs_read_calls {c : Config} (m : Memory) (a : Nat) (p : Nat → Byte) {b : Bus} (hq : b.Quiet)
    {events : List BusEvent} {calls : List (Nat × List Byte)}
    (h : (b.replay c (readWindow c m a 1 p)).CutsAs c events 0 calls) :
    b.CutsAs c (readWindow c m a 1 p ++ events) 6 calls := by
  intro n midByte x hx
  have hlen : (readWindow c m a 1 p).length = 6 := rfl
  by_cases hn : n < 6
  · rw [cutAt_append_lt c _ _ midByte b (by omega), cutAt_readWindow c m a 1 p n midByte hq,
      show n - 6 = 0 by omega, cutMemory_zero]
  · rw [cutAt_append_ge c _ _ midByte b (by omega), hlen, h (n - 6) midByte x hx, replay_readWindow_mem c m a p hq]
    rfl

/-- The command completes, and its events cut as these calls do. -/
def CompletesAs (s : State) (outcome : Host.Outcome State Fault Refusal) (before : Nat)
    (calls : List (Nat × List Byte)) : Prop :=
  ∃ t events, outcome = .next t ∧ t.bus.trace = s.bus.trace ++ events ∧ s.bus.CutsAs s.cfg events before calls

theorem completesAs_silent {s t : State} (h : t.bus = s.bus) (before : Nat) : CompletesAs s (.next t) before [] :=
  ⟨t, [], rfl, by rw [h, List.append_nil], cutsAs_silent before fun n midByte => by rw [cutAt_nil]⟩

/-- The bus events of BEGIN's calls, the frame fitting (`k = H`) or not. -/
theorem beginCalls_events {c : Config} (hc : c.Valid) {k : Nat} (hk : k ≤ c.height)
    (hbefore : ∀ y, y < k → recAddr c y + c.record ≤ c.storeMaxAddr + 1)
    (hafter : k < c.height → c.storeMaxAddr + 1 < recAddr c k + c.record) :
    ((beginCalls c).flatMap fun call => storeWriteEvents c call.1 call.2) =
      storeWriteEvents c 0 [c.cmdClear, c.marker, c.cmdWrite] ++
        (List.range k).flatMap fun y => storeWriteEvents c (recAddr c y) (blankRecord c y) := by
  rw [beginCalls_eq hc hk hbefore hafter, List.flatMap_cons, List.flatMap_map]

section
variable {s : State} (hc : s.cfg.Valid) (hq : s.bus.Quiet)
include hc hq

theorem completesAs_execBegin : CompletesAs s (execBegin s) 0 (commandCalls s .begin) := by
  by_cases hctrl : s.ctrl = .uninitialized
  · rw [commandCalls, if_pos hctrl]
    have hcuts := cutsAs_calls_only hc hq fun _ h => (beginCalls_mem h).2
    by_cases hfits : Fits s.cfg
    · obtain ⟨q, d, he⟩ := execBegin_ok hc hq hctrl hfits
      rw [beginCalls_events hc le_rfl
        (fun y hy => Nat.le_trans (recAddr_end _ hy) (Nat.succ_le_succ hfits)) (absurd · (lt_irrefl _))] at hcuts
      exact ⟨_, _, he, rfl, hcuts⟩
    · obtain ⟨k, q, d, hk, hbefore, hafter, he⟩ := execBegin_short hc hq hctrl hfits
      rw [beginCalls_events hc hk.le hbefore fun _ => hafter] at hcuts
      exact ⟨_, _, he, rfl, hcuts⟩
  · rw [commandCalls, if_neg hctrl, execBegin, admitIn_refused hctrl]
    exact completesAs_silent rfl 0

variable (hctrl : s.ctrl = .ready) (hfits : Fits s.cfg)
include hctrl hfits

theorem completesAs_execSetPixel (x y : Coord) (on : Bool) :
    CompletesAs s (execSetPixel x y on s) 6 (commandCalls s (.setPixel x y on)) := by
  by_cases hin : inBounds s.cfg (coordinate x) (coordinate y) = true
  · have hfit := commandCalls_fit hc hfits (.setPixel x y on)
    obtain ⟨q, d, p, he, -⟩ := execSetPixel_ok on hc hq hctrl hfits hin rfl
    rw [commandCalls, if_pos ⟨hctrl, hin⟩] at hfit ⊢
    have hcuts := cutsAs_calls_only hc (replay_readWindow_quiet s.cfg s.bus.store.mem
      (pixAddress s.cfg (coordinate x) (coordinate y)) p hq) hfit
    rw [List.flatMap_singleton] at hcuts
    exact ⟨_, _, he, rfl, cutsAs_read_calls _ _ p hq hcuts⟩
  · rw [(execPixel_clipped on hctrl (by simpa using hin)).1, commandCalls, if_neg fun h => hin h.2]
    exact completesAs_silent rfl 6

theorem completesAs_execGetPixel (x y : Coord) : CompletesAs s (execGetPixel x y s) 0 [] := by
  by_cases hin : inBounds s.cfg (coordinate x) (coordinate y) = true
  · obtain ⟨q, d, p, he, -⟩ := execGetPixel_ok hc hq hctrl hfits hin rfl
    exact ⟨_, _, he, rfl, cutsAs_silent 0 fun n midByte => cutAt_readWindow _ _ _ _ p n midByte hq⟩
  · rw [(execPixel_clipped false hctrl (by simpa using hin)).2]
    exact completesAs_silent rfl 0

variable (hr : s.cfg.relayMode = .directLink)
include hr

theorem completesAs_execClear : CompletesAs s (execClear s) 0 (commandCalls s .clear) := by
  obtain ⟨q, d, p, he, -⟩ := execClear_ok hc hr hq hctrl hfits rfl
  have hcuts := cutsAs_calls hc hq (commandCalls_fit hc hfits .clear)
    fun _ n midByte => cutAt_relayWindow s.cfg (clearMemory s.cfg s.vcom s.bus.store.mem) 0 3 p n midByte
  rw [commandCalls, if_pos hctrl] at hcuts ⊢
  rw [clearCalls, List.flatMap_append, ← recordEvents_eq, List.flatMap_singleton] at hcuts
  exact ⟨_, _, he, rfl, hcuts⟩

theorem completesAs_execRefresh : CompletesAs s (execRefresh s) 0 (commandCalls s .refresh) := by
  obtain ⟨q, d, p, he⟩ := execRefresh_ok hc hr hq hctrl hfits rfl
  have hcuts := cutsAs_calls hc hq (commandCalls_fit hc hfits .refresh)
    fun _ n midByte => cutAt_relayWindow s.cfg (refreshMemory s.cfg s.vcom s.bus.store.mem) 2
      (s.cfg.frameSize + 1) p n midByte
  rw [commandCalls, if_pos hctrl] at hcuts ⊢
  rw [refreshCalls, List.flatMap_singleton] at hcuts
  exact ⟨_, _, he, rfl, hcuts⟩

end

theorem completesAs_exec {s : State} (hc : s.cfg.Valid) (hr : s.cfg.relayMode = .directLink) (hq : s.bus.Quiet)
    (hready : s.ctrl = .ready → Fits s.cfg) {w : CommandWord} {i : Instr} (h : decodeHC w = .ok i) :
    CompletesAs s (exec i s) (eventsBeforeWrites i) (commandCalls s i) := by
  rcases decodeHC_cases h with rfl | hi
  · exact completesAs_execBegin hc hq
  by_cases hctrl : s.ctrl = .ready
  · have hfits := hready hctrl
    rcases hi with ⟨x, y, on, rfl⟩ | ⟨x, y, rfl⟩ | rfl | rfl
    · exact completesAs_execSetPixel hc hq hctrl hfits x y on
    · exact completesAs_execGetPixel hc hq hctrl hfits x y
    · exact completesAs_execClear hc hq hctrl hfits hr
    · exact completesAs_execRefresh hc hq hctrl hfits hr
  · have hne : i ≠ .begin := by
      rintro rfl
      simp at hi
    rw [exec_refused_of_not_ready hctrl hi, commandCalls_of_not_ready hctrl hne]
    exact completesAs_silent rfl _

/-! ## A command cut by reset (R138) -/

/-- What a reset leaves, whatever it cut, except for the store: the reset values (R137), a quiet bus, the configuration,
the inputs still pending and the responses given before. -/
abbrev ResetFrom (s : State) (rest : List Input) (t : State) : Prop :=
  t.ctrl = .uninitialized ∧ t.vcom = s.cfg.vcomInit ∧ t.status = .ok ∧ t.result = false ∧ t.bus.Quiet ∧
    t.bus.displayLog = [] ∧ t.responses = s.responses ∧ t.inbox = rest ∧ t.cfg = s.cfg

/-- The same as the first conjuncts of a longer statement. -/
theorem resetFrom_and {s t : State} {rest : List Input} {P : Prop} (h : ResetFrom s rest t) (hP : P) :
    t.ctrl = .uninitialized ∧ t.vcom = s.cfg.vcomInit ∧ t.status = .ok ∧ t.result = false ∧ t.bus.Quiet ∧
      t.bus.displayLog = [] ∧ t.responses = s.responses ∧ t.inbox = rest ∧ t.cfg = s.cfg ∧ P := by
  obtain ⟨hctrl, hvcom, hstatus, hresult, hquiet, hlog, hresponses, hinbox, hcfg⟩ := h
  exact ⟨hctrl, hvcom, hstatus, hresult, hquiet, hlog, hresponses, hinbox, hcfg, hP⟩

section
variable {s : State} {rest : List Input} {w : CommandWord} {n : Nat} {midByte : Bool} (hc : s.cfg.Valid)
  (hr : s.cfg.relayMode = .directLink) (hinv : MachineInv s) (hinbox : s.inbox = .commandCut w n midByte :: rest)
include hc hr hinbox

/-- The step that takes a command cut by reset cuts the events the command makes. -/
theorem step_cut {before : Nat} {calls : List (Nat × List Byte)}
    (h : CompletesAs { s with inbox := rest } (acceptPacket (.command w) { s with inbox := rest }) before calls) :
    ∃ t, step s = .next t ∧ ResetFrom s rest t ∧
      ∀ a, midByte = false ∨ cutAddress calls (n - before) ≠ some a →
        t.read a = (cutMemory calls (n - before) s.bus.store.mem).read a := by
  obtain ⟨t, events, haccept, htrace, hcuts⟩ := h
  have hcut := acceptCut_read n midByte haccept htrace
  refine ⟨_, (step_input hc hr hinbox).trans hcut,
    ⟨rfl, rfl, rfl, rfl, assertReset_quiet _ _, rfl, rfl, rfl, rfl⟩, fun a ha => ?_⟩
  rw [resetDuring_read]
  exact hcuts n midByte a ha

include hinv

theorem step_commandCut {i : Instr} (h : decodeHC w = .ok i) :
    ∃ t, step s = .next t ∧ ResetFrom s rest t ∧
      ∀ a, midByte = false ∨ cutAddress (commandCalls s i) (n - eventsBeforeWrites i) ≠ some a →
        t.read a = (cutMemory (commandCalls s i) (n - eventsBeforeWrites i) s.bus.store.mem).read a := by
  obtain ⟨-, -, hq, hready⟩ := hinv
  refine step_cut hc hr hinbox ?_
  rw [acceptCommand_of_decodeHC h]
  exact completesAs_exec (s := { s with inbox := rest }) hc hr hq hready h

/-- What no call of the command writes, the cut leaves. -/
theorem step_commandCut_outside {i : Instr} (h : decodeHC w = .ok i) :
    ∃ t, step s = .next t ∧ ResetFrom s rest t ∧
      ∀ a, (∀ call ∈ commandCalls s i, OutsideCall a call) → t.read a = s.read a := by
  obtain ⟨t, ht, hreset, hread⟩ := step_commandCut hc hr hinv hinbox h
  exact ⟨t, ht, hreset, fun a ha =>
    (hread a (Or.inr (cutAddress_ne_of_outside ha _))).trans (read_cutMemory_outside ha _ _)⟩

end

/-- Settles O60: the calls are those of the command. -/
theorem cutCommandLeavesAPrefixOfItsWrites : Obligations.CutCommandLeavesAPrefixOfItsWrites := by
  intro s rest w n midByte calls hc hr hinv hinbox hcommand
  obtain ⟨i, hdecode, hbefore, hcalls⟩ :
      ∃ i, decodeHC w = .ok i ∧ eventsBeforeWrites i = 0 ∧ commandCalls s i = calls := by
    rcases hcommand with ⟨hdecode, hctrl, rfl⟩ | ⟨hdecode, hctrl, rfl⟩ | ⟨hdecode, hctrl, rfl⟩ <;>
      exact ⟨_, hdecode, rfl, if_pos hctrl⟩
  obtain ⟨t, ht, -, hread⟩ := step_commandCut hc hr hinv hinbox hdecode
  rw [hbefore, hcalls] at hread
  exact ⟨t, ht, hread⟩

/-- Settles O14: the one call of SETPIXEL, which begins after the six events of its read. -/
theorem resetDuringSetPixel : Obligations.ResetDuringSetPixel := by
  intro s rest w x y on n midByte hc hr hinv hctrl hin hinbox hdecode
  obtain ⟨t, ht, hreset, hread⟩ := step_commandCut hc hr hinv hinbox hdecode
  rw [show commandCalls s (.setPixel x y on) = [pixelCall s x y on] from if_pos ⟨hctrl, hin⟩,
    show eventsBeforeWrites (.setPixel x y on) = 6 from rfl, pixelCall, cutMemory_single, cutAddress_single] at hread
  refine ⟨t, ht, resetFrom_and hreset ⟨fun a ha => ?_, fun hn => ?_, fun hn => ?_⟩⟩
  · rw [hread a (Or.inr (by split <;> simp [ha.symm]))]
    split
    · rfl
    · exact Memory.read_write_other _ _ _ ha
  · have hcut : midByte = false ∨ n - 6 ≠ 7 := hn.elim (fun h => Or.inr (by omega)) fun h => Or.inl h.2
    rw [hread _ (hcut.imp_right fun h => by simp [h]), if_pos (by omega)]
    rfl
  · rw [hread _ (Or.inr (by rw [if_neg (by omega)]; nofun)), if_neg (by omega), Memory.read_write_same]

/-- The words whose cut changes no byte: reserved, GETPIXEL, clipped, or not admitted. -/
theorem commandCalls_eq_nil {s : State} {w : CommandWord} {i : Instr} (hdecode : decodeHC w = .ok i)
    (h : Reserved w ∨ (∃ x y, decodeHC w = .ok (.getPixel x y)) ∨
      (∃ x y on, decodeHC w = .ok (.setPixel x y on) ∧ inBounds s.cfg (coordinate x) (coordinate y) = false) ∨
      (decodeHC w = .ok .begin ∧ s.ctrl ≠ .uninitialized) ∨ (decodeHC w ≠ .ok .begin ∧ s.ctrl ≠ .ready)) :
    commandCalls s i = [] := by
  rw [reservedWordsAreTheUndecodable w, hdecode] at h
  simp only [Except.ok.injEq, ne_eq] at h
  rcases h with ⟨_, herror⟩ | ⟨x, y, rfl⟩ | ⟨x, y, on, rfl, hout⟩ | ⟨rfl, hctrl⟩ | ⟨hi, hctrl⟩
  · cases herror
  · rfl
  · exact if_neg fun h => by simp [hout] at h
  · exact if_neg hctrl
  · exact commandCalls_of_not_ready hctrl hi

/-- Settles O15: what lies outside the calls of the word stays, and a word that does not decode makes none. -/
theorem resetDuringAnyCommand : Obligations.ResetDuringAnyCommand := by
  intro s rest w n midByte hc hr hinv hinbox
  cases hdecode : decodeHC w with
  | error why =>
    have hnone : CompletesAs { s with inbox := rest } (acceptPacket (.command w) { s with inbox := rest }) 0 [] := by
      rw [acceptCommand_of_decodeHC_error hdecode]
      exact completesAs_silent rfl 0
    obtain ⟨t, ht, hreset, hread⟩ := step_cut hc hr hinbox hnone
    have hall : ∀ a, t.read a = s.read a := fun a => hread a (Or.inr nofun)
    exact ⟨t, ht, resetFrom_and hreset
      ⟨fun a _ => hall a, fun _ => hall, fun _ a _ => hall a, fun _ => ⟨hall 1, hall 2⟩⟩⟩
  | ok i =>
    obtain ⟨t, ht, hreset, houtside⟩ := step_commandCut_outside hc hr hinv hinbox hdecode
    refine ⟨t, ht, resetFrom_and hreset ⟨fun a ha => houtside a fun call hcall => ?_, fun hnone a => houtside a ?_,
      fun hi a ha => houtside a ?_, fun hi => ⟨houtside 1 ?_, houtside 2 ?_⟩⟩⟩
    · obtain ⟨-, hend⟩ := commandCalls_below hc i call hcall
      exact Or.inr (Nat.le_trans hend ha)
    · rw [commandCalls_eq_nil hdecode (by rwa [hdecode])]
      nofun
    · cases hi
      exact commandCalls_refresh_outside s ha
    all_goals
      cases hi
      exact commandCalls_clear_outside s (by decide) (by decide)

end Sys2Proof.Machine
end
